-- ==== Sys2Proof/Word.lean ====
section
/-! DEFINITION. The word types of the HCC (10_state.md, 00_scope.md R5, R7, R8). Nothing in the HCC is signed (R7). -/

namespace Sys2Proof

/-- One byte of IBUF or OBUF; a byte value (symbol) 0..255. -/
abbrev Byte := BitVec 8

/-- A register or a word of the 32-bit host data bus (R5 BUS_DW). -/
abbrev Word := BitVec 32

/-- A byte offset in the host window (R5 BUS_AW, R40). -/
abbrev Offset := BitVec 22

/-- The handle of a NODE entry (R28, R35). -/
abbrev Handle := BitVec 9

/-- A node weight (R5 WEIGHT_W). -/
abbrev Weight := BitVec 40

/-- A bit-string (R8): a code, a path or a stream; element 0 is the first bit, `true` is the bit 1. -/
abbrev Bits := List Bool

end Sys2Proof
end

