-- ==== Sys2Proof/Syntax.lean ====
section
/-! DEFINITION. The commands of the HCC: one constructor per row of spec/opcode_table.json (30_encoding.md R62). -/

namespace Sys2Proof

/-- A decoded command. Operands are implicit (R60, R64), so only ILLEGAL carries anything: the word itself. -/
inductive Instr where
  | nop                  -- R76
  | freq                 -- R78
  | build                -- R81
  | gencb                -- R92
  | pack                 -- R99
  | unpack               -- R103
  | compress             -- R110
  | clrcb                -- R93
  | illegal (w : Word)   -- R77, R63
deriving DecidableEq, Repr

/-- Whether a command is the ILLEGAL row. -/
def Instr.isIllegal : Instr → Bool
  | .illegal _ => true
  | .nop | .freq | .build | .gencb | .pack | .unpack | .compress | .clrcb => false

end Sys2Proof
end

