-- ==== Sys2Proof/WellFormed.lean ====
section
/-! DEFINITION. Which command terms stand for a command word: an `illegal` must carry a word that R63 calls illegal. -/

namespace Sys2Proof

/-- R63: "OP values 0x8 to 0xF, and every word with RSVD ≠ 0, are illegal." -/
def isReservedWord (w : Word) : Bool :=
  (w >>> 4) != 0#32 || decide (8#32 ≤ (w &&& 0xF#32))

/-- A term is well formed when it is one of the eight commands, or ILLEGAL with a reserved word. -/
def Instr.wf : Instr → Bool
  | .illegal w => isReservedWord w
  | .nop | .freq | .build | .gencb | .pack | .unpack | .compress | .clrcb => true

end Sys2Proof
end

