-- ==== Sys2Proof/Decode.lean ====
section
/-! DEFINITION. Decoding a CMD word (30_encoding.md R60 to R63), total on all 2^32 words, and the encoder written from
the same table (R62). -/

namespace Sys2Proof

/-- OP, bits [3:0] of the command word (R60). -/
def opField (w : Word) : BitVec 4 := w.extractLsb' 0 4

/-- RSVD, bits [31:4] of the command word (R60). -/
def rsvdField (w : Word) : BitVec 28 := w.extractLsb' 4 28

/-- The opcode map of R62; `none` for the reserved opcodes 0x8 .. 0xF (R63). -/
def opmap (op : BitVec 4) : Option Instr :=
  match op.toNat with
  | 0 => some .nop
  | 1 => some .freq
  | 2 => some .build
  | 3 => some .gencb
  | 4 => some .pack
  | 5 => some .unpack
  | 6 => some .compress
  | 7 => some .clrcb
  | _ => none

/-- R61: decode a stored CMD word. -/
def decodeWord (w : Word) : Instr :=
  if rsvdField w ≠ 0#28 then .illegal w
  else (opmap (opField w)).getD (.illegal w)

/-- Why a sequence of bytes holds no command word. -/
inductive DecodeError where
  /-- Fewer than the four bytes of the one command format (R60); raised by `decodeBytes` only, never by the machine. -/
  | shortWord
deriving DecidableEq, Repr

/-- The command word whose bytes these are, the least significant first (R45, R60; DEDUCED, log entry 12). -/
def wordOfBytes (b0 b1 b2 b3 : Byte) : Word := b3 ++ b2 ++ b1 ++ b0

/-- Decode the command at the head of a byte sequence, and give what follows it. -/
def decodeBytes : List Byte → Except DecodeError (Instr × List Byte)
  | b0 :: b1 :: b2 :: b3 :: rest => .ok (decodeWord (wordOfBytes b0 b1 b2 b3), rest)
  | _ => .error .shortWord

/-- The command word of a command (R62); ILLEGAL's is the word it carries (R77). -/
def encode : Instr → Word
  | .nop => 0x00000000#32
  | .freq => 0x00000001#32
  | .build => 0x00000002#32
  | .gencb => 0x00000003#32
  | .pack => 0x00000004#32
  | .unpack => 0x00000005#32
  | .compress => 0x00000006#32
  | .clrcb => 0x00000007#32
  | .illegal w => w

/-- The four bytes of a word, the least significant first (R45). -/
def bytesOfWord (w : Word) : List Byte :=
  [w.extractLsb' 0 8, w.extractLsb' 8 8, w.extractLsb' 16 8, w.extractLsb' 24 8]

/-- The bytes of a command's word. -/
def encodeBytes (i : Instr) : List Byte := bytesOfWord (encode i)

/-- What the decoder reads from the command word whose bits are `w`, as spec/opcode_table.json numbers them; a table
word shorter than 32 bits is filled up with zeros. -/
def decodeTableWord (nbits w : Nat) : Option Instr :=
  match decodeBytes (bytesOfWord (BitVec.ofNat 32 (w % 2 ^ nbits))) with
  | .ok (i, _) => some i
  | .error _ => none

end Sys2Proof
end

