-- ==== Sys2Proof/Config.lean ====
section
/-! DEFINITION. What one HCC fixes: the constants of 00_scope.md R5, the open parameters of R6 and R40, and the free
values of 93_implementation_defined.md section 1. -/

namespace Sys2Proof

/-- The open parameters (R6, R40), and one point that the spec leaves open by contradicting itself. They are an argument
of the model: State carries them, and every statement is for every legal value (DESIGN CHOICE, log entry 1; HCC_BASE:
log entry 13; `compressLenDrops`: log entry 7). -/
structure Params where
  /-- N_IBUF, the size of IBUF in bytes. -/
  nIbuf : Nat
  /-- N_OBUF, the size of OBUF in bytes. -/
  nObuf : Nat
  /-- HCC_BASE, where the platform places the host window. -/
  hccBase : Nat
  /-- Which of two readings of the spec holds when COMPRESS fails with E_LEN: true, the failure writes of PACK and UNPACK
  apply (R23, R24, R25, R137; D19 of 92_eei_decisions.md; 93_implementation_defined.md section 1); false, nothing else is
  written (R110, V-CMP-10). No file settles it (DESIGN CHOICE, log entry 7). -/
  compressLenDrops : Bool
deriving DecidableEq, Repr

namespace Config

/-- The value of the ID register (R2, R15). -/
def idValue : Word := 0x48434337#32

/-- NSYM, the number of byte values (R5). -/
def nSym : Nat := 256

/-- NODE_MAX, the number of arena entries (R5). -/
def nodeMax : Nat := 511

/-- ROOT's value when there is no tree (R28). -/
def noRoot : Handle := 0x1FF#9

/-- The largest legal buffer size (R6). -/
def bufMax : Nat := 2 ^ 20

/-- FREE VALUE: byte `i` of draw number `draw`, what a buffer's undetermined bytes hold (R39 "any byte values, which a
model draws freely"; R99, R103 failure writes). Nothing constrains it (DESIGN CHOICE, log entries 2 and 3; safe). -/
opaque freeByte (draw i : Nat) : Byte

/-- FREE VALUE: the word number `draw`, what a window read while BUSY returns (R54). Nothing constrains it (DESIGN CHOICE, log entry 4;
safe). -/
opaque freeWord (draw : Nat) : Word

end Config

/-- The parameters a real HCC may have (R6). -/
abbrev Params.Legal (p : Params) : Prop :=
  (1 ≤ p.nIbuf ∧ p.nIbuf ≤ Config.bufMax) ∧ (1 ≤ p.nObuf ∧ p.nObuf ≤ Config.bufMax)

/-- The reference parameters of 95_test_vectors.md (R6); DESIGN CHOICE for the reset state (log entries 1,
7 and 13). -/
def Params.reference : Params where
  nIbuf := 65536
  nObuf := 65536
  hccBase := 0
  compressLenDrops := true

end Sys2Proof
end

