-- ==== Sys2Proof/Machine/State.lean ====
section
/-! DEFINITION. The whole state of the HCC (10_state.md), as plain data, and the state after reset (R39). -/

namespace Sys2Proof.Machine

/-- The engine phase, the only sequencing state (R14); STATUS.BUSY is 1 while BUSY (R19). -/
inductive Phase where
  | idle
  | busy
deriving DecidableEq, Repr

/-- The error codes of R115. The reserved codes 7 .. 15 are "never reported", so they have no name here. -/
inductive ErrCode where
  | ok            -- 0
  | badCmd        -- 1, E_BAD_CMD
  | missingCode   -- 2, E_MISSING_CODE
  | malformed     -- 3, E_MALFORMED
  | dupCode       -- 4, E_DUP_CODE
  | obufOvf       -- 5, E_OBUF_OVF
  | len           -- 6, E_LEN
deriving DecidableEq, Repr

/-- KIND of a NODE entry (R35). -/
inductive NodeKind where
  | unused
  | leaf
  | phantom
  | internal
deriving DecidableEq, Repr

/-- One entry of the tree arena (R35). -/
structure Node where
  kind : NodeKind
  sym : Byte
  left : Handle
  right : Handle
  weight : Weight
deriving DecidableEq, Repr

/-- The entry of the reset arena, and of every entry BUILD does not use (R35, R81). -/
def Node.empty : Node := ⟨.unused, 0, 0, 0, 0⟩

/-- One entry of the codebook (R36). CODE[i] is bit 255 − i of `code` (R51: the first code bit is the most
significant). LEN = 0 means the byte value has no code. -/
structure CodeEntry where
  len : BitVec 8
  code : BitVec 256
deriving DecidableEq, Repr

/-- The cleared entry: LEN 0 and CODE all zero (R36, R93). -/
def CodeEntry.empty : CodeEntry := ⟨0, 0⟩

/-- A sparse memory: (index, value) pairs, indexes rising, no pair equal to what an unlisted index reads as. -/
abbrev Table (α : Type) := List (Nat × α)

/-- A byte buffer (R32, R33): the bytes that are determined, and the number of the free draw that the others come from
(DESIGN CHOICE, log entries 2 and 3). -/
structure Buffer where
  cells : List Host.Cell
  draw : Nat
deriving DecidableEq, Repr

/-- The five memories (10_state.md section 4). An unlisted FREQ entry reads 0, an unlisted NODE or CB entry reads its
reset contents, an unlisted buffer byte reads the buffer's free draw. -/
structure Memory where
  freq : Table Word
  node : Table Node
  cb : Table CodeEntry
  ibuf : Buffer
  obuf : Buffer
deriving DecidableEq, Repr

/-- The sixteen registers (10_state.md section 2). -/
inductive Reg where
  | id | ibufSize | obufSize | cmd | status | irqEn | inLen | padIn
  | outLen | padOut | nbits | nleaf | nnode | root | errPos | errSym
deriving DecidableEq, Repr

/-- The width n of a host access (R42). -/
inductive Width where
  | byte
  | half
  | word
deriving DecidableEq, Repr

/-- One host bus access at a window offset (R42). -/
inductive Access where
  | read (a : Offset) (n : Width)
  | write (a : Offset) (n : Width) (v : Word)
deriving DecidableEq, Repr

/-- The response of a host access (R42): OK or ERR, and the data of a read. -/
structure Response where
  ok : Bool
  data : Word
deriving DecidableEq, Repr

/-- What comes to the HCC from outside, one at a time: a bus access (R42), the polling loop WAIT of a host script (R68),
or a level on the reset input RST (R131). -/
inductive Input where
  | access (a : Access)
  | wait
  | rst (level : Bool)
deriving DecidableEq, Repr

/-- The state of one HCC. -/
structure State where
  /-- The open parameters; IBUF_SIZE and OBUF_SIZE read them (R16, R17). -/
  params : Params
  /-- PHASE (R14); STATUS.BUSY (R19). -/
  phase : Phase
  /-- CMD, as written, RSVD included (R18). -/
  cmd : Word
  /-- STATUS.DONE (R19). -/
  done : Bool
  /-- STATUS.OVR (R19, R53). -/
  ovr : Bool
  /-- STATUS.ERR (R19, R115). -/
  err : ErrCode
  /-- IRQ_EN.IE (R20). -/
  ie : Bool
  /-- IN_LEN (R21). -/
  inLen : Word
  /-- PAD_IN.PAD (R22). -/
  padIn : BitVec 3
  /-- OUT_LEN (R23). -/
  outLen : Word
  /-- PAD_OUT.PAD (R24). -/
  padOut : BitVec 3
  /-- NBITS (R25). -/
  nbits : Word
  /-- NLEAF (R26). -/
  nleaf : BitVec 9
  /-- NNODE (R27). -/
  nnode : BitVec 10
  /-- ROOT (R28). -/
  root : Handle
  /-- ERR_POS (R29). -/
  errPos : Word
  /-- ERR_SYM (R30). -/
  errSym : BitVec 16
  /-- FREQ, NODE, CB, IBUF and OBUF (R32 to R36). -/
  mem : Memory
  /-- The level of the reset input RST (R131). -/
  rst : Bool
  /-- The response of the last host access (R42; the model's field, DESIGN CHOICE, log entry 8). -/
  resp : Option Response
  /-- The host operations still to come, oldest first (the model's field, DESIGN CHOICE, log entry 5). -/
  inputs : List Input
  /-- How many host steps still land before the running command completes (the model's
  field, DESIGN CHOICE, log entry 5). -/
  latency : Nat
  /-- The same for the commands still to be started, in order (the model's field, DESIGN CHOICE, log entry 5). -/
  latencies : List Nat
  /-- The number of the next free draw (the model's field, DESIGN CHOICE, log entry 4). -/
  draws : Nat
deriving DecidableEq, Repr

/-- Why a step could stop with a fault. The spec names none: a bus error is a response (R47) and a command error is a
completed command (R123), so this type has no constructor (DEDUCED, log entry 10). -/
inductive Fault where
deriving DecidableEq, Repr

/-- Why a step could be refused. -/
inductive Refusal where
  /-- Raised by `exec` for a command that has no meaning yet; safe. No arm of `exec` raises it. -/
  | notModelled (mnemonic : String)
deriving DecidableEq, Repr

/-- The memories after reset: FREQ, NODE and CB cleared, IBUF and OBUF unspecified, drawn as numbers `d` and `d + 1`
(R39). -/
def Memory.reset (d : Nat) : Memory where
  freq := []
  node := []
  cb := []
  ibuf := ⟨[], d⟩
  obuf := ⟨[], d + 1⟩

/-- R39: the state after reset of an HCC with parameters `p`, whose buffers take the draws `d` and `d + 1`. -/
def State.resetWith (p : Params) (d : Nat) : State where
  params := p
  phase := .idle
  cmd := 0
  done := false
  ovr := false
  err := .ok
  ie := false
  inLen := 0
  padIn := 0
  outLen := 0
  padOut := 0
  nbits := 0
  nleaf := 0
  nnode := 0
  root := Config.noRoot
  errPos := 0
  errSym := 0
  mem := Memory.reset d
  rst := false
  resp := none
  inputs := []
  latency := 0
  latencies := []
  draws := d + 2

/-- The state right after reset (R39, R131), RST released, with the reference parameters (DESIGN CHOICE, log entry 1). -/
def State.reset : State := State.resetWith Params.reference 0

end Sys2Proof.Machine
end

