-- ==== Sys2Proof/Machine/Table.lean ====
section
/-! DEFINITION. Sparse memories in one canonical form: indexes strictly rising, no pair equal to what an unlisted index
reads as. The named operations over FREQ, NODE and CB tables and over the byte buffers. -/

namespace Sys2Proof.Machine

/-- The value listed for index `i`, if any. -/
def Table.find? {α : Type} : Table α → Nat → Option α
  | [], _ => none
  | (k, v) :: t, i => if k = i then some v else Table.find? t i

/-- What index `i` reads as; an unlisted index reads `d`. -/
def Table.get {α : Type} (d : α) (t : Table α) (i : Nat) : α := (Table.find? t i).getD d

/-- List `v` for index `i`, in its place. -/
def Table.put {α : Type} : Table α → Nat → α → Table α
  | [], i, v => [(i, v)]
  | (k, w) :: t, i, v =>
    if i < k then (i, v) :: (k, w) :: t
    else if i = k then (i, v) :: t
    else (k, w) :: Table.put t i v

/-- List nothing for index `i`. -/
def Table.erase {α : Type} : Table α → Nat → Table α
  | [], _ => []
  | (k, w) :: t, i => if k = i then t else (k, w) :: Table.erase t i

/-- Write `v` at index `i`: the default is not listed. -/
def Table.set {α : Type} [DecidableEq α] (d : α) (t : Table α) (i : Nat) (v : α) : Table α :=
  if v = d then Table.erase t i else Table.put t i v

/-- The table that holds `xs` at indexes `i`, `i + 1`, … -/
def Table.ofListFrom {α : Type} [DecidableEq α] (d : α) : Nat → List α → Table α
  | _, [] => []
  | i, x :: xs => if x = d then Table.ofListFrom d (i + 1) xs else (i, x) :: Table.ofListFrom d (i + 1) xs

/-- Every listed index is at least `lo`, and the indexes rise strictly. -/
def Table.sortedFrom {α : Type} : Nat → Table α → Bool
  | _, [] => true
  | lo, (k, _) :: t => decide (lo ≤ k) && Table.sortedFrom (k + 1) t

/-- The canonical form over the indexes below `bound`. -/
def Table.canonical {α : Type} [DecidableEq α] (d : α) (bound : Nat) (t : Table α) : Bool :=
  Table.sortedFrom 0 t && t.all (fun c => decide (c.1 < bound) && decide (c.2 ≠ d))

/-- Byte `i` of a buffer: its determined value, else its free draw (R32, R33, R134). -/
def Buffer.byte (b : Buffer) (i : Nat) : Byte := (Table.find? b.cells i).getD (Config.freeByte b.draw i)

/-- Write one byte of a buffer. -/
def Buffer.putByte (b : Buffer) (i : Nat) (v : Byte) : Buffer := { b with cells := Table.put b.cells i v }

/-- Write consecutive bytes of a buffer from index `i` on. -/
def Buffer.store : Buffer → Nat → List Byte → Buffer
  | b, _, [] => b
  | b, i, v :: vs => Buffer.store (b.putByte i v) (i + 1) vs

/-- The first `n` bytes of a buffer. -/
def Buffer.bytes (b : Buffer) (n : Nat) : List Byte := (List.range n).map b.byte

/-- A buffer all of whose bytes are unspecified, taken from draw number `d`. -/
def Buffer.unspecified (d : Nat) : Buffer := ⟨[], d⟩

/-- The canonical form of a buffer of `n` bytes: an unlisted byte has no determined value, so no listed value is
redundant. -/
def Buffer.wf (n : Nat) (b : Buffer) : Bool :=
  Table.sortedFrom 0 b.cells && b.cells.all (fun c => decide (c.1 < n))

/-- The canonical form of the five memories of an HCC with parameters `p`. -/
def Memory.wf (p : Params) (m : Memory) : Bool :=
  Table.canonical 0#32 Config.nSym m.freq && Table.canonical Node.empty Config.nodeMax m.node &&
  Table.canonical CodeEntry.empty Config.nSym m.cb && Buffer.wf p.nIbuf m.ibuf && Buffer.wf p.nObuf m.obuf

/-- FREQ[b] (R34). -/
def Memory.freqAt (m : Memory) (b : Nat) : Word := Table.get 0#32 m.freq b

/-- NODE[h] (R35). -/
def Memory.nodeAt (m : Memory) (h : Nat) : Node := Table.get Node.empty m.node h

/-- CB[b] (R36). -/
def Memory.cbAt (m : Memory) (b : Nat) : CodeEntry := Table.get CodeEntry.empty m.cb b

end Sys2Proof.Machine
end

