-- ==== Sys2Proof/Machine/Flags.lean ====
section
/-! DEFINITION. The flags (10_state.md R37): STATUS.BUSY, DONE, OVR and ERR, what writes each, and the interrupt output
that follows them (60_exceptions.md R126). -/

namespace Sys2Proof.Machine

/-- The 4-bit value of an error code (R115). -/
def ErrCode.code : ErrCode → BitVec 4
  | .ok => 0
  | .badCmd => 1
  | .missingCode => 2
  | .malformed => 3
  | .dupCode => 4
  | .obufOvf => 5
  | .len => 6

/-- STATUS.BUSY: 1 while PHASE = BUSY (R19). -/
def State.busy (s : State) : Bool := s.phase = .busy

/-- What a read of STATUS returns (R19): BUSY [0], DONE [1], OVR [2], 0 [3], ERR [7:4], 0 [31:8]. -/
def State.statusWord (s : State) : Word :=
  0#24 ++ s.err.code ++ 0#1 ++ BitVec.ofBool s.ovr ++ BitVec.ofBool s.done ++ BitVec.ofBool s.busy

/-- DONE and ERR cleared together (R19): a command start (R69) and the host's ACK (R124) do it. -/
def State.clearDone (s : State) : State := { s with done := false, err := .ok }

/-- A host write of `v` to STATUS (R19): first DONE and ERR if v[1] = 1 and PHASE = IDLE, then OVR if v[2] = 1. -/
def State.writeStatus (v : Word) (s : State) : State :=
  let s1 := if v.getLsbD 1 && !s.busy then s.clearDone else s
  if v.getLsbD 2 then { s1 with ovr := false } else s1

/-- A dropped host write sets the sticky OVR and nothing else (R53). -/
def State.setOvr (s : State) : State := { s with ovr := true }

/-- The completion of a command (R72): ERR takes the code, DONE is set, PHASE returns to IDLE. -/
def State.doneWith (e : ErrCode) (s : State) : State := { s with err := e, done := true, phase := .idle }

/-- The interrupt output: IE AND DONE (R126), low while RST is asserted (R131). -/
def State.irq (s : State) : Bool := s.ie && s.done && !s.rst

end Sys2Proof.Machine
end

