-- ==== Sys2Proof/Machine/Ops.lean ====
section
/-! DEFINITION. The operations that the commands share: starting a command (R69), completing it (R72), what an error does
("trap entry", R123) and its return (R124), the failure writes of the output commands (R99, R103), and free draws. -/

namespace Sys2Proof.Machine

/-- `FAIL(E_X, pos, sym)` (R71, R73): the error code and the information for ERR_POS and ERR_SYM (R115). -/
structure Failure where
  code : ErrCode
  pos : Nat
  sym : BitVec 16
deriving DecidableEq, Repr

/-- The outcome of a command's function (R71). -/
inductive Verdict where
  | ok
  | fail (f : Failure)
deriving DecidableEq, Repr

/-- What a command's function gives (R71): the start state with the command's writes applied, and the outcome. -/
structure CmdResult where
  after : State
  verdict : Verdict
deriving DecidableEq, Repr

/-- The start of a command (R69): CMD takes the word, DONE and ERR are cleared, PHASE becomes BUSY. Nothing else
of the HCC changes. The model's latency takes the next planned value, 0 when none is planned (DESIGN CHOICE, log entry 5). -/
def State.startCommand (w : Word) (s : State) : State :=
  { s.clearDone with
    cmd := w
    phase := .busy
    latency := s.latencies.headD 0
    latencies := s.latencies.tail }

/-- The completion of a successful command (R72). -/
def State.completeOk (s : State) : State :=
  { s.doneWith .ok with errPos := 0, errSym := 0 }

/-- TAKING AN ERROR (R123): the completion step records the code in STATUS.ERR and the information in ERR_POS and
ERR_SYM, sets DONE and returns PHASE to IDLE. No state is saved elsewhere and no handler runs. -/
def State.takeError (f : Failure) (s : State) : State :=
  { s.doneWith f.code with errPos := BitVec.ofNat 32 f.pos, errSym := f.sym }

/-- THE RETURN FROM AN ERROR (R124): there is no command for it; the host's ACK (a 1 written to STATUS.DONE while IDLE)
clears DONE and ERR. ERR_POS and ERR_SYM stay until the next completion. -/
def State.acknowledge (s : State) : State := s.writeStatus 0x00000002#32

/-- The completion step (R72) on what the command's function gave. -/
def CmdResult.complete (r : CmdResult) : State :=
  match r.verdict with
  | .ok => r.after.completeOk
  | .fail f => r.after.takeError f

/-- A command that fails and writes nothing. -/
def State.failClean (f : Failure) (s : State) : CmdResult := ⟨s, .fail f⟩

/-- The failure writes of PACK and UNPACK (R99, R103): OUT_LEN, PAD_OUT and NBITS take 0 and every OBUF byte becomes
unspecified, a fresh draw (DESIGN CHOICE, log entry 3). -/
def State.dropOutput (s : State) : State :=
  { s with
    outLen := 0
    padOut := 0
    nbits := 0
    mem := { s.mem with obuf := Buffer.unspecified s.draws }
    draws := s.draws + 1 }

/-- A command that fails with the failure writes of PACK and UNPACK. -/
def State.failOutput (f : Failure) (s : State) : CmdResult := ⟨s.dropOutput, .fail f⟩

/-- The success writes of PACK and UNPACK: OBUF from offset 0, the bytes beyond the result unchanged, and the result
registers (R99, R103). -/
def State.writeOutput (out : List Byte) (pad : BitVec 3) (nbits : Nat) (s : State) : State :=
  { s with
    outLen := BitVec.ofNat 32 out.length
    padOut := pad
    nbits := BitVec.ofNat 32 nbits
    mem := { s.mem with obuf := s.mem.obuf.store 0 out } }

/-- E_LEN (R121): IN_LEN > N_IBUF, checked before anything else the command does. -/
def State.lenFails (s : State) : Bool := decide (s.params.nIbuf < s.inLen.toNat)

/-- The information of E_LEN (R115): ERR_POS = IN_LEN, ERR_SYM = 0. -/
def State.lenFailure (s : State) : Failure := ⟨.len, s.inLen.toNat, 0⟩

/-- RST asserted (R131): a running command is abandoned, none of its writes is applied, and the state is that of
R39. IBUF and OBUF are drawn anew. What the host still has to do, and what it last received, are not the HCC's
(DEDUCED, log entry 9). -/
def State.assertReset (s : State) : State :=
  { State.resetWith s.params s.draws with
    rst := true
    resp := s.resp
    inputs := s.inputs
    latencies := s.latencies }

/-- A level on RST (R131): 1 resets and holds; 0 releases. -/
def State.setRst (level : Bool) (s : State) : State :=
  if level then s.assertReset else { s with rst := false }

end Sys2Proof.Machine
end

