-- ==== Sys2Proof/Machine/Operands.lean ====
section
/-! DEFINITION. The implicit operands of the commands (30_encoding.md R64): the input bytes, the codes of the codebook and
their inverse (43_codebook.md R94, R95), the stream bits (20_memory.md R52), the present symbols (R34, R82). -/

namespace Sys2Proof.Machine

/-- IBUF[0..IN_LEN−1], the bytes FREQ, PACK, UNPACK and COMPRESS read (R64). -/
def State.inputBytes (s : State) : List Byte := s.mem.ibuf.bytes s.inLen.toNat

/-- The bit-string CODE[0] .. CODE[LEN−1] of a codebook entry (R36). -/
def CodeEntry.bits (e : CodeEntry) : Bits := (List.range e.len.toNat).map e.code.getMsbD

/-- The 256 code elements whose first ones are `p` and whose others are 0 (R92, R68). -/
def codeOfBits : Bits → BitVec 256
  | [] => 0
  | b :: p => (codeOfBits p >>> 1) ||| (if b then BitVec.twoPow 256 255 else 0)

/-- The codebook entry for the path `p` (R92): LEN = len(p), CODE[i] = p[i] for i < len(p), 0 beyond. -/
def CodeEntry.ofBits (p : Bits) : CodeEntry := ⟨BitVec.ofNat 8 p.length, codeOfBits p⟩

/-- R94: the code of a codebook entry; LEN = 0 is absence. -/
def CodeEntry.codeOf (e : CodeEntry) : Option Bits := if e.len = 0 then none else some e.bits

/-- R94: `code_of(b)` in the codebook `cb`. -/
def Codebook.codeOf (cb : Table CodeEntry) (b : Nat) : Option Bits := (Table.get CodeEntry.empty cb b).codeOf

/-- R94: `code_of(b)` in CB. -/
def Memory.codeOf (m : Memory) (b : Nat) : Option Bits := Codebook.codeOf m.cb b

/-- R95: the byte values whose code is `s`, ascending. -/
def Codebook.matchesOf (cb : Table CodeEntry) (s : Bits) : List Nat :=
  (List.range Config.nSym).filter (fun b => Codebook.codeOf cb b == some s)

/-- R95: `inverse(s)`, the only element of matches(s). With two or more matches the spec defines none, and UNPACK has
refused the codebook before (R106; DESIGN CHOICE, log entry 11). -/
def Codebook.inverse (cb : Table CodeEntry) (s : Bits) : Option Byte :=
  match Codebook.matchesOf cb s with
  | [b] => some (BitVec.ofNat 8 b)
  | _ => none

/-- R106: the pair b < b′ of byte values with one code, with the least b and for it the least b′. -/
def Codebook.dupPair (cb : Table CodeEntry) : Option (Nat × Nat) :=
  (List.range Config.nSym).findSome? fun b =>
    match Codebook.codeOf cb b with
    | none => none
    | some c =>
      ((List.range Config.nSym).find? fun b' => decide (b < b') && (Codebook.codeOf cb b' == some c)).map
        fun b' => (b, b')

/-- R52: stream bit k of a buffer is bit 7 − (k mod 8) of byte k div 8. -/
def streamBit (byteAt : Nat → Byte) (k : Nat) : Bool := (byteAt (k / 8)).getLsbD (7 - k % 8)

/-- The eight bits of a byte, the most significant first (R52, R103). -/
def bitsOfByte (v : Byte) : Bits := (List.range 8).map v.getMsbD

/-- The bits of a byte sequence in stream order (R52). -/
def bitsOfBytes (bs : List Byte) : Bits := bs.flatMap bitsOfByte

/-- Bit k of a bit-string as a byte, 0 beyond its end. -/
def bitByte (t : Bits) (k : Nat) : Byte := if t.getD k false then 1 else 0

/-- R99: output byte j of the padded stream `t`. -/
def packByte (t : Bits) (j : Nat) : Byte :=
  bitByte t (8 * j) <<< 7 ||| bitByte t (8 * j + 1) <<< 6 ||| bitByte t (8 * j + 2) <<< 5 |||
  bitByte t (8 * j + 3) <<< 4 ||| bitByte t (8 * j + 4) <<< 3 ||| bitByte t (8 * j + 5) <<< 2 |||
  bitByte t (8 * j + 6) <<< 1 ||| bitByte t (8 * j + 7)

/-- R99: the bytes of a padded stream. -/
def packBytes (t : Bits) : List Byte := (List.range (t.length / 8)).map (packByte t)

/-- R99: the pad count of a stream of `n` bits. -/
def padCount (n : Nat) : Nat := (8 - n % 8) % 8

/-- R82: the present byte values of a FREQ table, ascending. -/
def presentSyms (f : Table Word) : List Nat :=
  (List.range Config.nSym).filter (fun b => Table.get 0#32 f b != 0#32)

end Sys2Proof.Machine
end

