-- ==== Sys2Proof/Machine/Bus.lean ====
section
/-! DEFINITION. Host bus accesses (20_memory.md R40 to R54): the window map, which accesses get ERR, what a read returns
and what a write does, IDLE and BUSY. -/

namespace Sys2Proof.Machine

/-- The number of bytes of an access (R42). -/
def Width.bytes : Width → Nat
  | .byte => 1
  | .half => 2
  | .word => 4

/-- What an access that gets OK addresses (R41). -/
inductive Target where
  | reg (r : Reg)
  | freq (b : Nat)          -- FREQ[b]
  | node (h k : Nat)        -- word k of NODE[h]
  | cb (b k : Nat)          -- word k of CB[b]
  | ibuf (i : Nat)          -- IBUF from index i
  | obuf (i : Nat)          -- OBUF from index i
deriving DecidableEq, Repr

/-- The offset of a register (10_state.md section 2). -/
def Reg.offset : Reg → Nat
  | .id => 0x000
  | .ibufSize => 0x004
  | .obufSize => 0x008
  | .cmd => 0x00C
  | .status => 0x010
  | .irqEn => 0x014
  | .inLen => 0x018
  | .padIn => 0x01C
  | .outLen => 0x020
  | .padOut => 0x024
  | .nbits => 0x028
  | .nleaf => 0x02C
  | .nnode => 0x030
  | .root => 0x034
  | .errPos => 0x038
  | .errSym => 0x03C

/-- The registers in the order of the register map. -/
def Reg.all : List Reg :=
  [.id, .ibufSize, .obufSize, .cmd, .status, .irqEn, .inLen, .padIn,
   .outLen, .padOut, .nbits, .nleaf, .nnode, .root, .errPos, .errSym]

/-- The register at an offset, if there is one. -/
def Reg.at? (a : Nat) : Option Reg := Reg.all.find? (fun r => r.offset = a)

/-- What an access of `n` bytes at offset `a` addresses; `none` gets ERR: unmapped (R46), not an aligned 32-bit access
to a register or a table (R43), or a buffer access that is misaligned or not wholly inside (R44). -/
def target (p : Params) (a n : Nat) : Option Target :=
  if a < 0x100000 then
    if n = 4 ∧ a % 4 = 0 then
      if a < 0x40 then (Reg.at? a).map .reg
      else if 0x1000 ≤ a ∧ a < 0x1400 then some (.freq ((a - 0x1000) / 4))
      else if 0x2000 ≤ a ∧ a < 0x3FF0 then some (.node ((a - 0x2000) / 16) ((a - 0x2000) % 16 / 4))
      else if 0x4000 ≤ a ∧ a < 0x8000 then some (.cb ((a - 0x4000) / 64) ((a - 0x4000) % 64 / 4))
      else none
    else none
  else if a < 0x200000 then
    if a % n = 0 ∧ (a - 0x100000) + n ≤ p.nIbuf then some (.ibuf (a - 0x100000)) else none
  else
    if a % n = 0 ∧ (a - 0x200000) + n ≤ p.nObuf then some (.obuf (a - 0x200000)) else none

/-- Whether a target is one of the windows FREQ, NODE, CB, IBUF, OBUF, not a register. -/
def Target.isWindow : Target → Bool
  | .reg _ => false
  | .freq _ | .node _ _ | .cb _ _ | .ibuf _ | .obuf _ => true

/-- R53: the targets whose writes are dropped while BUSY: CMD, IN_LEN, PAD_IN, FREQ, CB, IBUF, OBUF. -/
def Target.dropsWhileBusy : Target → Bool
  | .reg .cmd | .reg .inLen | .reg .padIn => true
  | .reg _ => false
  | .node _ _ => false
  | .freq _ | .cb _ _ | .ibuf _ | .obuf _ => true

/-- Whether the host can write what a target addresses (R31, R50, R51): writes to the others are ignored. -/
def Target.isWritable : Target → Bool
  | .reg .cmd | .reg .status | .reg .irqEn | .reg .inLen | .reg .padIn => true
  | .reg _ => false
  | .node _ _ => false
  | .cb _ k => decide (k ≤ 8)
  | .freq _ | .ibuf _ | .obuf _ => true

/-- KIND as NODE stores it (R35). -/
def NodeKind.code : NodeKind → BitVec 2
  | .unused => 0
  | .leaf => 1
  | .phantom => 2
  | .internal => 3

/-- Word k of a NODE entry (R50). -/
def Node.word (n : Node) : Nat → Word
  | 0 => n.weight.extractLsb' 0 32
  | 1 => (n.weight.extractLsb' 32 8).zeroExtend 32
  | 2 => 0#16 ++ n.sym ++ 0#6 ++ n.kind.code
  | 3 => 0#7 ++ n.right ++ 0#7 ++ n.left
  | _ => 0

/-- The CODE word k, k = 0..7 (R51): its bit 31 − j is CODE[32k + j]. -/
def codeWord (c : BitVec 256) (k : Nat) : Word := c.extractLsb' (224 - 32 * k) 32

/-- Replace the CODE word k, k = 0..7 (R51). -/
def setCodeWord (c : BitVec 256) (k : Nat) (v : Word) : BitVec 256 :=
  (c &&& ~~~((BitVec.allOnes 32).zeroExtend 256 <<< (224 - 32 * k))) ||| (v.zeroExtend 256 <<< (224 - 32 * k))

/-- Word k of a CB entry (R51): LEN, CODE words 0..7, then reserved words that read 0. -/
def CodeEntry.word (e : CodeEntry) (k : Nat) : Word :=
  if k = 0 then e.len.zeroExtend 32
  else if k ≤ 8 then codeWord e.code (k - 1)
  else 0

/-- Write word k of a CB entry (R51): LEN takes bits [7:0]; the reserved words ignore writes. -/
def CodeEntry.setWord (e : CodeEntry) (k : Nat) (v : Word) : CodeEntry :=
  if k = 0 then { e with len := v.extractLsb' 0 8 }
  else if k ≤ 8 then { e with code := setCodeWord e.code (k - 1) v }
  else e

/-- Little-endian lanes (R45): the word whose byte lanes are the bytes, lane 0 first; lanes beyond are 0. -/
def joinLanes : List Byte → Word
  | [] => 0
  | b :: bs => b.zeroExtend 32 ||| joinLanes bs <<< 8

/-- Little-endian lanes (R45): the first n byte lanes of a word. -/
def splitLanes (n : Nat) (v : Word) : List Byte := (List.range n).map fun j => v.extractLsb' (8 * j) 8

/-- What a read of a register returns (R15 to R30). -/
def State.regValue (s : State) : Reg → Word
  | .id => Config.idValue
  | .ibufSize => BitVec.ofNat 32 s.params.nIbuf
  | .obufSize => BitVec.ofNat 32 s.params.nObuf
  | .cmd => s.cmd
  | .status => s.statusWord
  | .irqEn => (BitVec.ofBool s.ie).zeroExtend 32
  | .inLen => s.inLen
  | .padIn => s.padIn.zeroExtend 32
  | .outLen => s.outLen
  | .padOut => s.padOut.zeroExtend 32
  | .nbits => s.nbits
  | .nleaf => s.nleaf.zeroExtend 32
  | .nnode => s.nnode.zeroExtend 32
  | .root => s.root.zeroExtend 32
  | .errPos => s.errPos
  | .errSym => s.errSym.zeroExtend 32

/-- What a target holds, as the data of a read of n bytes (R45, R49, R50, R51). -/
def State.targetValue (s : State) (n : Nat) : Target → Word
  | .reg r => s.regValue r
  | .freq b => s.mem.freqAt b
  | .node h k => (s.mem.nodeAt h).word k
  | .cb b k => (s.mem.cbAt b).word k
  | .ibuf i => joinLanes ((List.range n).map fun j => s.mem.ibuf.byte (i + j))
  | .obuf i => joinLanes ((List.range n).map fun j => s.mem.obuf.byte (i + j))

/-- A write to a register that is not dropped (R18 to R22); a read-only register ignores it (R31). -/
def State.writeReg (v : Word) (s : State) : Reg → State
  | .cmd => s.startCommand v
  | .status => s.writeStatus v
  | .irqEn => { s with ie := v.getLsbD 0 }
  | .inLen => { s with inLen := v }
  | .padIn => { s with padIn := v.extractLsb' 0 3 }
  | .id | .ibufSize | .obufSize | .outLen | .padOut | .nbits | .nleaf | .nnode | .root | .errPos | .errSym => s

/-- A write of n bytes to a target, performed (R45, R49, R51); NODE ignores it (R50). -/
def State.writeTarget (n : Nat) (v : Word) (s : State) : Target → State
  | .reg r => s.writeReg v r
  | .freq b => { s with mem := { s.mem with freq := Table.set 0#32 s.mem.freq b v } }
  | .node _ _ => s
  | .cb b k => { s with mem := { s.mem with cb := Table.set CodeEntry.empty s.mem.cb b ((s.mem.cbAt b).setWord k v) } }
  | .ibuf i => { s with mem := { s.mem with ibuf := s.mem.ibuf.store i (splitLanes n v) } }
  | .obuf i => { s with mem := { s.mem with obuf := s.mem.obuf.store i (splitLanes n v) } }

/-- The data of a read of n bytes drawn freely, with the bits at or above 8n zero (R54). -/
def drawnData (draw n : Nat) : Word := joinLanes (splitLanes n (Config.freeWord draw))

/-- The response of an access that gets ERR (R47): a read returns data 0. -/
def errResponse : Response := ⟨false, 0⟩

/-- A read of a mapped target (R54): while BUSY a window read returns a free draw, all else what the target holds. -/
def State.readAccess (t : Target) (n : Nat) (s : State) : State :=
  if s.busy && t.isWindow then { s with resp := some ⟨true, drawnData s.draws n⟩, draws := s.draws + 1 }
  else { s with resp := some ⟨true, s.targetValue n t⟩ }

/-- A write of a mapped target (R53): dropped with OVR set while BUSY, for the targets R53 names; performed
otherwise. -/
def State.writeAccess (t : Target) (n : Nat) (v : Word) (s : State) : State :=
  if s.busy && t.dropsWhileBusy then { s.setOvr with resp := some ⟨true, 0⟩ }
  else { s.writeTarget n v t with resp := some ⟨true, 0⟩ }

/-- What an access addresses: its offset and width against the window map. -/
def Access.target? (p : Params) : Access → Option Target
  | .read a n => target p a.toNat n.bytes
  | .write a n _ => target p a.toNat n.bytes

/-- Whether an access gets ERR (R43, R44, R46; while RST is asserted every access does, R131). -/
def State.accessErrs (acc : Access) (s : State) : Bool := s.rst || (acc.target? s.params).isNone

/-- One host access (R42): ERR changes no state (R47). -/
def State.access (acc : Access) (s : State) : State :=
  if s.rst then { s with resp := some errResponse }
  else
    match acc.target? s.params with
    | none => { s with resp := some errResponse }
    | some t =>
      match acc with
      | .read _ n => s.readAccess t n.bytes
      | .write _ n v => s.writeAccess t n.bytes v

/-- The model's read of one byte of a memory window: the byte at window offset `a` as FREQ, NODE, CB, IBUF or OBUF now
holds it, whatever the phase (R41, R45); `none` where no memory window has a byte. Registers are not memory. -/
def State.windowByte (s : State) (a : Nat) : Option Byte :=
  if a < 0x1000 then none
  else if a < 0x100000 then
    (target s.params (a - a % 4) 4).map fun t => (s.targetValue 4 t).extractLsb' (8 * (a % 4)) 8
  else (target s.params a 1).map fun t => (s.targetValue 1 t).extractLsb' 0 8

/-- The read of STATUS that WAIT repeats (R68). -/
def statusRead : Access := .read (BitVec.ofNat 22 (Reg.offset .status)) .word

/-- Whether the last response ends a WAIT: bit [1] (DONE) of the value read is 1 (R68). A read that got ERR read the data
0 of R47, so WAIT goes on (DEDUCED, log entry 16). -/
def State.waitEnds (s : State) : Bool :=
  match s.resp with
  | some r => r.data.getLsbD 1
  | none => false

/-- The platform address of a window offset is HCC_BASE + offset (R40): the offset at an address, if the address lies in
the host window. -/
def Params.windowOffset (p : Params) (addr : Nat) : Option Offset :=
  if p.hccBase ≤ addr ∧ addr < p.hccBase + 2 ^ 22 then some (BitVec.ofNat 22 (addr - p.hccBase)) else none

end Sys2Proof.Machine
end

