-- ==== Sys2Proof/Machine/Agents.lean ====
section
/-! DEFINITION. The two agents (00_scope.md R12, 40_command_control.md R71): what the host does in one step, and whose
turn it is. -/

namespace Sys2Proof.Machine

/-- What one operation of the outside does (R42, R68, R131). -/
def State.perform (i : Input) (s : State) : State :=
  match i with
  | .access acc => s.access acc
  | .wait => s.access statusRead
  | .rst level => s.setRst level

/-- WAIT stays pending until the STATUS value it reads has DONE = 1 (R68). -/
def State.keepsWaiting (i : Input) (s : State) : Bool :=
  match i with
  | .wait => !s.waitEnds
  | .access _ | .rst _ => false

/-- One host step: the oldest pending operation takes effect, wholly before or wholly after the completion of a running
command (R125). It uses up one step of the running command's latency (DESIGN CHOICE, log entry 5). -/
def State.hostTurn (s : State) : State :=
  match s.inputs with
  | [] => s
  | i :: rest =>
    let s1 := State.perform i { s with inputs := rest, latency := s.latency - 1 }
    if State.keepsWaiting i s1 then { s1 with inputs := i :: rest } else s1

/-- The engine takes its completion step (R72: "enabled only while PHASE = BUSY") when no further host step is to land
before it, by the latency or because the host has nothing to do; never while RST is asserted (R131). -/
def State.engineTurn (s : State) : Bool :=
  s.busy && !s.rst && (decide (s.latency = 0) || s.inputs.isEmpty)

/-- The running command: CMD, decoded (R61, R71). -/
def State.command (s : State) : Instr := decodeWord s.cmd

end Sys2Proof.Machine
end

