-- ==== Sys2Proof/Machine/Codebook.lean ====
section
/-! DEFINITION. GENCB and CLRCB (43_codebook.md R92, R93). -/

namespace Sys2Proof.Machine

/-- R92: walk(h, p) over the arena `nodes`, writing the codebook `e`. A child's handle is below its parent's
(R87), so a fuel of NNODE is enough for a walk from ROOT. An UNUSED entry, which no tree of BUILD reaches, writes
nothing (DESIGN CHOICE, log entry 14). -/
def walk (nodes : Table Node) : Nat → Nat → Bits → Table CodeEntry → Table CodeEntry
  | 0, _, _, e => e
  | fuel + 1, h, p, e =>
    let n := Table.get Node.empty nodes h
    match n.kind with
    | .leaf => Table.set CodeEntry.empty e n.sym.toNat (CodeEntry.ofBits p)
    | .phantom => e
    | .internal =>
      walk nodes fuel n.right.toNat (p ++ [true]) (walk nodes fuel n.left.toNat (p ++ [false]) e)
    | .unused => e

/-- R92: the codebook of the tree in NODE; empty when NNODE = 0. -/
def State.treeCodebook (s : State) : Table CodeEntry :=
  if s.nnode = 0 then [] else walk s.mem.node s.nnode.toNat s.root.toNat [] []

/-- R92: CB[b] <- E[b] for every b. -/
def gencbCommand (s : State) : CmdResult :=
  ⟨{ s with mem := { s.mem with cb := s.treeCodebook } }, .ok⟩

/-- GENCB: write the codebook of the tree in NODE into CB (R92). -/
def execGencb (s : State) : Host.Outcome State Fault Refusal := .next (gencbCommand s).complete

/-- R93: every CB entry takes LEN 0 and CODE 0. -/
def clrcbCommand (s : State) : CmdResult := ⟨{ s with mem := { s.mem with cb := [] } }, .ok⟩

/-- CLRCB: clear the codebook (R93). -/
def execClrcb (s : State) : Host.Outcome State Fault Refusal := .next (clrcbCommand s).complete

end Sys2Proof.Machine
end

