-- ==== Sys2Proof/Machine/Frequency.lean ====
section
/-! DEFINITION. FREQ (41_frequency.md R78). -/

namespace Sys2Proof.Machine

/-- One pass of R78's counting loop: f[v] <- f[v] + 1. -/
def countOne (f : Table Word) (v : Byte) : Table Word :=
  Table.set 0#32 f v.toNat (Table.get 0#32 f v.toNat + 1#32)

/-- R78: the counts of a byte sequence, every entry starting from 0. -/
def countBytes (bs : List Byte) : Table Word := bs.foldl countOne []

/-- R78: FREQ takes the counts of the input bytes; E_LEN when IN_LEN > N_IBUF, with no failure writes. -/
def freqCommand (s : State) : CmdResult :=
  if s.lenFails then s.failClean s.lenFailure
  else ⟨{ s with mem := { s.mem with freq := countBytes s.inputBytes } }, .ok⟩

/-- FREQ: count the bytes of IBUF[0..IN_LEN−1] into FREQ (R78). -/
def execFreq (s : State) : Host.Outcome State Fault Refusal := .next (freqCommand s).complete

end Sys2Proof.Machine
end

