-- ==== Sys2Proof/Machine/Packer.lean ====
section
/-! DEFINITION. PACK (44_packer.md R99). -/

namespace Sys2Proof.Machine

/-- R99's loop from input index `i` on, with `used` stream bits already laid down and room for `cap`: the codes of the
bytes, concatenated, or the first error. A missing code comes before an overflow (R122). -/
def packScan (cb : Table CodeEntry) (cap : Nat) : Nat → Nat → List Byte → Except Failure Bits
  | _, _, [] => .ok []
  | i, used, v :: vs =>
    match Codebook.codeOf cb v.toNat with
    | none => .error ⟨.missingCode, i, v.zeroExtend 16⟩
    | some c =>
      if cap < used + c.length then .error ⟨.obufOvf, i, v.zeroExtend 16⟩
      else
        match packScan cb cap (i + 1) (used + c.length) vs with
        | .error f => .error f
        | .ok rest => .ok (c ++ rest)

/-- R99: the packed bytes of a stream, zero bits appended to a whole byte. -/
def packStream (bits : Bits) : List Byte := packBytes (bits ++ List.replicate (padCount bits.length) false)

/-- R99: encode the input bytes with CB into OBUF. -/
def packCommand (s : State) : CmdResult :=
  if s.lenFails then s.failOutput s.lenFailure
  else
    match packScan s.mem.cb (8 * s.params.nObuf) 0 0 s.inputBytes with
    | .error f => s.failOutput f
    | .ok bits =>
      ⟨s.writeOutput (packStream bits) (BitVec.ofNat 3 (padCount bits.length)) bits.length, .ok⟩

/-- PACK: encode IBUF[0..IN_LEN−1] with CB into OBUF (R99). -/
def execPack (s : State) : Host.Outcome State Fault Refusal := .next (packCommand s).complete

end Sys2Proof.Machine
end

