-- ==== Sys2Proof/Machine/TreeBuilder.lean ====
section
/-! DEFINITION. BUILD (42_tree_builder.md R81 to R86) and the two-queue realisation of R91. -/

namespace Sys2Proof.Machine

/-- key(h) = (N[h].WEIGHT, h) (R83): the selection key of a node, which also names it. -/
structure Key where
  weight : Weight
  handle : Nat
deriving DecidableEq, Repr

/-- Keys are "ordered lexicographically as unsigned integers" (R81, R83). -/
def Key.lt (a c : Key) : Bool :=
  decide (a.weight < c.weight) || (decide (a.weight = c.weight) && decide (a.handle < c.handle))

/-- The least key of `k :: q`. -/
def Key.least : Key → List Key → Key
  | k, [] => k
  | k, x :: q => Key.least (if x.lt k then x else k) q

/-- Remove the node with the least key from the working collection (R81, R83). -/
def takeLeast : List Key → Option (Key × List Key)
  | [] => none
  | k :: q => let m := Key.least k q; some (m, (k :: q).erase m)

/-- The leaf of a byte value (R81). -/
def leafNode (f : Table Word) (b : Nat) : Node :=
  ⟨.leaf, BitVec.ofNat 8 b, 0, 0, (Table.get 0#32 f b).zeroExtend 40⟩

/-- The phantom leaf of R86. -/
def phantomNode : Node := ⟨.phantom, 0, 0, 0, 0⟩

/-- An internal node over the nodes `a` (LEFT) and `c` (RIGHT) with the sum of their weights (R84). -/
def internalNode (a c : Key) : Node :=
  ⟨.internal, 0, BitVec.ofNat 9 a.handle, BitVec.ofNat 9 c.handle, a.weight + c.weight⟩

/-- The loop of R81: while the working collection `q` holds two nodes, remove the two least, append their parent to the
arena `ns` (its handle is the arena's length, `next`), and insert it. Each pass shrinks `q` by one, so a fuel of |q|
is enough. -/
def mergeLoop : Nat → List Key → List Node → List Node
  | 0, _, ns => ns
  | fuel + 1, q, ns =>
    match takeLeast q with
    | none => ns
    | some (a, q1) =>
      match takeLeast q1 with
      | none => ns
      | some (c, q2) => mergeLoop fuel (⟨a.weight + c.weight, ns.length⟩ :: q2) (ns ++ [internalNode a c])

/-- The keys of nodes that stand at handles `i`, `i + 1`, … -/
def keysFrom : Nat → List Node → List Key
  | _, [] => []
  | i, n :: ns => ⟨n.weight, i⟩ :: keysFrom (i + 1) ns

/-- R81: the arena of the present byte values of a FREQ table, in handle order; K = 0 gives none (R85), K = 1 the leaf, the
phantom and their parent (R86). -/
def buildNodes (f : Table Word) : List Node :=
  match presentSyms f with
  | [] => []
  | [b] => [leafNode f b, phantomNode, ⟨.internal, 0, 0, 1, (leafNode f b).weight⟩]
  | syms =>
    let leaves := syms.map (leafNode f)
    mergeLoop leaves.length (keysFrom 0 leaves) leaves

/-- R81: NODE takes the arena (unused entries all zero), NLEAF ← K, NNODE ← the number of nodes, ROOT ← the last one. -/
def buildCommand (s : State) : CmdResult :=
  let ns := buildNodes s.mem.freq
  ⟨{ s with
      mem := { s.mem with node := Table.ofListFrom Node.empty 0 ns }
      nleaf := BitVec.ofNat 9 (presentSyms s.mem.freq).length
      nnode := BitVec.ofNat 10 ns.length
      root := if ns.length = 0 then Config.noRoot else BitVec.ofNat 9 (ns.length - 1) }, .ok⟩

/-- BUILD: build the Huffman tree of FREQ into NODE (R81). -/
def execBuild (s : State) : Host.Outcome State Fault Refusal := .next (buildCommand s).complete

/-- Insert a key into a list of keys in rising order. -/
def Key.insert (k : Key) : List Key → List Key
  | [] => [k]
  | x :: q => if k.lt x then k :: x :: q else x :: Key.insert k q

/-- The keys in rising order: queue A of R91. -/
def Key.sort : List Key → List Key
  | [] => []
  | k :: q => Key.insert k (Key.sort q)

/-- R91: take the front of queue A or B, whichever has the smaller key, and A on a tie of weight. -/
def takeFront : List Key → List Key → Option (Key × List Key × List Key)
  | [], [] => none
  | a :: qa, [] => some (a, qa, [])
  | [], b :: qb => some (b, [], qb)
  | a :: qa, b :: qb => if b.weight < a.weight then some (b, a :: qa, qb) else some (a, qa, b :: qb)

/-- R91's loop: two fronts are merged and their parent goes to the back of queue B. -/
def twoQueueLoop : Nat → List Key → List Key → List Node → List Node
  | 0, _, _, ns => ns
  | fuel + 1, qa, qb, ns =>
    match takeFront qa qb with
    | none => ns
    | some (a, qa1, qb1) =>
      match takeFront qa1 qb1 with
      | none => ns
      | some (c, qa2, qb2) =>
        twoQueueLoop fuel qa2 (qb2 ++ [⟨a.weight + c.weight, ns.length⟩]) (ns ++ [internalNode a c])

/-- R91: the arena as a two-queue ("two-pass") builder makes it. -/
def twoQueueNodes (f : Table Word) : List Node :=
  match presentSyms f with
  | [] => []
  | [b] => [leafNode f b, phantomNode, ⟨.internal, 0, 0, 1, (leafNode f b).weight⟩]
  | syms =>
    let leaves := syms.map (leafNode f)
    twoQueueLoop leaves.length (Key.sort (keysFrom 0 leaves)) [] leaves

end Sys2Proof.Machine
end

