-- ==== Sys2Proof/Machine/Compress.lean ====
section
/-! DEFINITION. COMPRESS (46_compress.md R110). -/

namespace Sys2Proof.Machine

/-- R110: the state S3 that the FREQ, BUILD and GENCB stages leave. -/
def State.compressTables (s : State) : State :=
  let s1 := (freqCommand s).after
  let s2 := (buildCommand s1).after
  (gencbCommand s2).after

/-- E_LEN in COMPRESS (R110, R121). The spec gives two accounts of what it writes beside STATUS, ERR_POS and ERR_SYM:
the failure writes of a failing COMPRESS (R23, R24, R25, R137), or nothing (R110). The parameter says which (DESIGN
CHOICE, log entry 7). -/
def compressLenCommand (s : State) : CmdResult :=
  if s.params.compressLenDrops then s.failOutput s.lenFailure else s.failClean s.lenFailure

/-- R110: FREQ, BUILD, GENCB, then PACK. E_LEN first; when the PACK stage fails its failure writes apply and the first
three stages' writes stay. -/
def compressCommand (s : State) : CmdResult :=
  if s.lenFails then compressLenCommand s
  else packCommand s.compressTables

/-- COMPRESS: FREQ, then BUILD, then GENCB, then PACK, as one command (R110). -/
def execCompress (s : State) : Host.Outcome State Fault Refusal := .next (compressCommand s).complete

end Sys2Proof.Machine
end

