-- ==== Sys2Proof/Machine/Control.lean ====
section
/-! DEFINITION. NOP and ILLEGAL (40_command_control.md R76, R77). -/

namespace Sys2Proof.Machine

/-- R76: exec(NOP, S) = (OK, no writes). -/
def nopCommand (s : State) : CmdResult := ⟨s, .ok⟩

/-- NOP: completes with no effect (R76). -/
def execNop (s : State) : Host.Outcome State Fault Refusal := .next (nopCommand s).complete

/-- R77: exec(ILLEGAL, S) = raise E_BAD_CMD(pos = 0, sym = 0); no failure writes. -/
def illegalCommand (s : State) : CmdResult := s.failClean ⟨.badCmd, 0, 0⟩

/-- ILLEGAL: completes with E_BAD_CMD and no other effect (R77, R116). -/
def execIllegal (s : State) : Host.Outcome State Fault Refusal := .next (illegalCommand s).complete

end Sys2Proof.Machine
end

