-- ==== Sys2Proof/Machine/Unpacker.lean ====
section
/-! DEFINITION. UNPACK (45_unpacker.md R103). -/

namespace Sys2Proof.Machine

/-- R103's loop from stream bit `k` on: `start` is where the candidate `cand` began, `emitted` how many bytes have been
emitted, `cap` = N_OBUF. The bytes emitted from here on, or the first error. -/
def unpackScan (cb : Table CodeEntry) (cap : Nat) :
    Nat → Nat → Bits → Nat → Bits → Except Failure (List Byte)
  | _, start, cand, _, [] => if cand = [] then .ok [] else .error ⟨.malformed, start, 0⟩
  | k, start, cand, emitted, b :: bits =>
    let start' := if cand = [] then k else start
    match Codebook.inverse cb (cand ++ [b]) with
    | none => unpackScan cb cap (k + 1) start' (cand ++ [b]) emitted bits
    | some v =>
      if emitted = cap then .error ⟨.obufOvf, start', v.zeroExtend 16⟩
      else
        match unpackScan cb cap (k + 1) start' [] (emitted + 1) bits with
        | .error f => .error f
        | .ok out => .ok (v :: out)

/-- R103: the stream of the input bytes, less its last PAD_IN bits. -/
def State.trimmedStream (s : State) : Bits :=
  (bitsOfBytes s.inputBytes).take (8 * s.inLen.toNat - s.padIn.toNat)

/-- R103: decode the stream in IBUF, less PAD_IN bits, with CB into OBUF. The checks come in the order of R122. -/
def unpackCommand (s : State) : CmdResult :=
  if s.lenFails then s.failOutput s.lenFailure
  else if 8 * s.inLen.toNat < s.padIn.toNat then s.failOutput ⟨.malformed, 0, 0⟩
  else
    match Codebook.dupPair s.mem.cb with
    | some (b, b') => s.failOutput ⟨.dupCode, 0, BitVec.ofNat 16 b ||| BitVec.ofNat 16 b' <<< 8⟩
    | none =>
      match unpackScan s.mem.cb s.params.nObuf 0 0 [] 0 s.trimmedStream with
      | .error f => s.failOutput f
      | .ok out => ⟨s.writeOutput out 0 s.trimmedStream.length, .ok⟩

/-- UNPACK: decode the stream in IBUF[0..IN_LEN−1], less PAD_IN bits, with CB into OBUF (R103). -/
def execUnpack (s : State) : Host.Outcome State Fault Refusal := .next (unpackCommand s).complete

end Sys2Proof.Machine
end

