-- ==== Sys2Proof/Machine/Step.lean ====
section
/-! DEFINITION. One step of the HCC and its host: the engine's completion step, or one host step. -/

namespace Sys2Proof.Machine

/-- One step (R71): the completion of the running command, `exec` of the decoded CMD, when it is the engine's turn; else
one host step. With no command running and nothing asked of it the HCC waits (R133). -/
def step (s : State) : Host.Outcome State Fault Refusal :=
  if s.engineTurn then exec s.command s else .next s.hostTurn

/-- The command word whose bits are `w`, started (R69) in an HCC that is not held in reset, with its completion due
next: the very next step runs it (DEDUCED, log entry 6). -/
def State.withFetchWord (s : State) (nbits w : Nat) : State :=
  { s.clearDone with
    cmd := BitVec.ofNat 32 (w % 2 ^ nbits)
    phase := .busy
    rst := false
    latency := 0 }

end Sys2Proof.Machine
end

