-- ==== Sys2Proof/Machine/Driver.lean ====
section
/-! DEFINITION. The host's side: the script notation (30_encoding.md R67, R68), the metadata mapping (R66) and the boundary
procedures compress and decompress (46_compress.md R113, R114). -/

namespace Sys2Proof.Machine

namespace Script

/-- `WR <reg>, <v>` (R67). -/
def wr (r : Reg) (v : Word) : Input := .access (.write (BitVec.ofNat 22 r.offset) .word v)

/-- `RD <reg>` (R67). -/
def rd (r : Reg) : Input := .access (.read (BitVec.ofNat 22 r.offset) .word)

/-- The offset of FREQ[b] (R49). -/
def freqOffset (b : Nat) : Offset := BitVec.ofNat 22 (0x1000 + 4 * b)

/-- The offset of word k of NODE[h] (R50). -/
def nodeOffset (h k : Nat) : Offset := BitVec.ofNat 22 (0x2000 + 16 * h + 4 * k)

/-- The offset of word k of CB[b] (R51): word 0 is LEN, word 1 + k is CODE<k>. -/
def cbOffset (b k : Nat) : Offset := BitVec.ofNat 22 (0x4000 + 64 * b + 4 * k)

/-- `WR FREQ[b], <v>` (R67). -/
def wrFreq (b : Nat) (v : Word) : Input := .access (.write (freqOffset b) .word v)

/-- `RD FREQ[b]` (R67). -/
def rdFreq (b : Nat) : Input := .access (.read (freqOffset b) .word)

/-- `RD NODE[h].W<k>` (R67). -/
def rdNode (h k : Nat) : Input := .access (.read (nodeOffset h k) .word)

/-- `WR CB[b].LEN, <v>` (R67). -/
def wrLen (b : Nat) (v : Word) : Input := .access (.write (cbOffset b 0) .word v)

/-- `RD CB[b].LEN` (R67). -/
def rdLen (b : Nat) : Input := .access (.read (cbOffset b 0) .word)

/-- `WR CB[b].CODE<k>, <v>` (R67). -/
def wrCode (b k : Nat) (v : Word) : Input := .access (.write (cbOffset b (k + 1)) .word v)

/-- `RD CB[b].CODE<k>` (R67). -/
def rdCode (b k : Nat) : Input := .access (.read (cbOffset b (k + 1)) .word)

/-- `WRB`, `WRH`, `WRW` on IBUF (R67). -/
def wrIbuf (n : Width) (i : Nat) (v : Word) : Input := .access (.write (BitVec.ofNat 22 (0x100000 + i)) n v)

/-- `RDB`, `RDH`, `RDW` on IBUF (R67). -/
def rdIbuf (n : Width) (i : Nat) : Input := .access (.read (BitVec.ofNat 22 (0x100000 + i)) n)

/-- `WRB`, `WRH`, `WRW` on OBUF (R67). -/
def wrObuf (n : Width) (i : Nat) (v : Word) : Input := .access (.write (BitVec.ofNat 22 (0x200000 + i)) n v)

/-- `RDB`, `RDH`, `RDW` on OBUF (R67). -/
def rdObuf (n : Width) (i : Nat) : Input := .access (.read (BitVec.ofNat 22 (0x200000 + i)) n)

/-- `CMD <mnemonic>` (R68). -/
def cmd (i : Instr) : Input := wr .cmd (encode i)

/-- `WAIT` (R68). -/
def wait : Input := .wait

/-- `ACK` (R68): clears DONE and ERR. -/
def ack : Input := wr .status 0x00000002#32

/-- The byte writes of `LOAD IBUF` from index i on (R68). -/
def loadBytes : Nat → List Byte → List Input
  | _, [] => []
  | i, b :: bs => wrIbuf .byte i (b.zeroExtend 32) :: loadBytes (i + 1) bs

/-- `LOAD IBUF, [b0, b1, ...]` (R68). -/
def load (bs : List Byte) : List Input := loadBytes 0 bs ++ [wr .inLen (BitVec.ofNat 32 bs.length)]

/-- `CODE b, "s"` (R68): LEN, then the words CODE0 .. CODE((len(s) − 1) div 32). For the empty string, whose range R68 does
not define, it is LEN 0 and CODE0 0 (DESIGN CHOICE, log entry 17). -/
def code (b : Nat) (s : Bits) : List Input :=
  wrLen b (BitVec.ofNat 32 s.length) ::
    (List.range ((s.length - 1) / 32 + 1)).map fun k => wrCode b k (codeWord (codeOfBits s) k)

/-- The claim of `EXPECT <reg>, <v>` (R68), once its read has been answered: the value read equals v. A read that got ERR
read the data 0 of R47, for EXPECT as for WAIT (DEDUCED, log entry 16). -/
def expectHolds (s : State) (v : Word) : Bool :=
  match s.resp with
  | some r => r.data = v
  | none => false

end Script

/-- DCP's CompressionMetadata (R66): keys and codes as characters, `pad` an integer. -/
structure Metadata where
  codebook : List (List Char × List Char)
  pad : Int
deriving DecidableEq, Repr

/-- Why a driver must reject a metadata blob before any command (R66). -/
inductive MetadataError where
  | badKey      -- a key that is no decimal integer in 0..255
  | emptyCode   -- an empty code string
  | longCode    -- a code longer than 255 bits
  | badChar     -- a character other than '0' or '1'
  | badPad      -- a pad outside 0..7
deriving DecidableEq, Repr

/-- `decimal(b)`: digits only, no sign, no leading zeros (R66). -/
def decimal (b : Nat) : List Char := Nat.toDigits 10 b

/-- The value of a digit string read on from `acc`. -/
def parseDigits : Nat → List Char → Option Nat
  | acc, [] => some acc
  | acc, c :: cs => if c.isDigit then parseDigits (10 * acc + (c.toNat - 48)) cs else none

/-- R66: a key is a decimal integer 0..255 (DESIGN CHOICE, log entry 15). -/
def parseKey (k : List Char) : Option Nat :=
  if k = [] then none
  else
    match parseDigits 0 k with
    | some b => if b < Config.nSym then some b else none
    | none => none

/-- R66: a code string as a bit-string, if it holds only '0' and '1'. -/
def parseBits : List Char → Option Bits
  | [] => some []
  | c :: cs =>
    if c = '0' then (parseBits cs).map (false :: ·)
    else if c = '1' then (parseBits cs).map (true :: ·)
    else none

/-- R66: one entry of the metadata's codebook, or why it must be rejected. -/
def parseEntry (e : List Char × List Char) : Except MetadataError (Nat × Bits) :=
  match parseKey e.1 with
  | none => .error .badKey
  | some b =>
    match parseBits e.2 with
    | none => .error .badChar
    | some s =>
      if s = [] then .error .emptyCode
      else if 255 < s.length then .error .longCode
      else .ok (b, s)

/-- The entries in order, or the first one's error. -/
def parseEntries : List (List Char × List Char) → Except MetadataError (List (Nat × Bits))
  | [] => .ok []
  | e :: es =>
    match parseEntry e with
    | .error x => .error x
    | .ok c =>
      match parseEntries es with
      | .error x => .error x
      | .ok cs => .ok (c :: cs)

/-- R66: what the driver loads for a metadata blob the HCC can hold. -/
def Metadata.parse (d : Metadata) : Except MetadataError (List (Nat × Bits) × Word) :=
  match parseEntries d.codebook with
  | .error x => .error x
  | .ok cs => if 0 ≤ d.pad ∧ d.pad ≤ 7 then .ok (cs, BitVec.ofNat 32 d.pad.toNat) else .error .badPad

/-- The characters of a code (R66). -/
def bitChars (s : Bits) : List Char := s.map fun b => if b then '1' else '0'

/-- R66: the metadata the driver emits after a successful COMPRESS, or GENCB and PACK. -/
def State.metadata (s : State) : Metadata where
  codebook := (List.range Config.nSym).filterMap fun b => (s.mem.codeOf b).map fun c => (decimal b, bitChars c)
  pad := s.padOut.toNat

/-- The result bytes OBUF[0..OUT_LEN−1] (R137). -/
def State.result (s : State) : List Byte := s.mem.obuf.bytes s.outLen.toNat

/-- R113: the script of `compress(bytes, "huffman")`; `none` when the bytes do not fit IBUF. -/
def compressScript (p : Params) (bs : List Byte) : Option (List Input) :=
  if bs.length ≤ p.nIbuf then some (Script.load bs ++ [Script.cmd .compress, Script.wait]) else none

/-- R113: the result of the call, once the script has run. -/
def compressResult (s : State) : Except ErrCode (List Byte × Metadata) :=
  if s.err = .ok then .ok (s.result, s.metadata) else .error s.err

/-- R114: the script of `decompress(bytes, "huffman", metadata)`; an error when the metadata is rejected. R114 does not
bound the packed bytes; when they do not fit IBUF there is no script, as R113 has it for `compress` (DESIGN CHOICE, log
entry 18). -/
def decompressScript (p : Params) (bs : List Byte) (d : Metadata) : Except MetadataError (Option (List Input)) :=
  match d.parse with
  | .error x => .error x
  | .ok (cs, pad) =>
    .ok (if bs.length ≤ p.nIbuf then
      some ([Script.cmd .clrcb, Script.wait] ++ cs.flatMap (fun c => Script.code c.1 c.2) ++
        [Script.wr .padIn pad] ++ Script.load bs ++ [Script.cmd .unpack, Script.wait])
    else none)

/-- R114: the result of the call, once the script has run. -/
def decompressResult (s : State) : Except ErrCode (List Byte) :=
  if s.err = .ok then .ok s.result else .error s.err

/-- An access at an address of the platform (R40): outside the host window it is not the HCC's. -/
def platformRead (p : Params) (addr : Nat) (n : Width) : Option Input :=
  (Params.windowOffset p addr).map fun a => .access (.read a n)

/-- A write at an address of the platform (R40). -/
def platformWrite (p : Params) (addr : Nat) (n : Width) (v : Word) : Option Input :=
  (Params.windowOffset p addr).map fun a => .access (.write a n v)

end Sys2Proof.Machine
end

