-- ==== Sys2Proof/Safety.lean ====
section
/-! DEFINITION. The terms in which claims are stated: the invariants of State, the tree as a set of paths (43_codebook.md
R92), what makes a codebook prefix-free (R96) and a stream a greedy parse (R104), and which bytes a command stores to
(30_encoding.md R64). -/

namespace Sys2Proof.Machine

/-- STATUS is consistent: "BUSY = 1 implies DONE = 0 and ERR = 0" (R19), a reset HCC runs nothing (R131), and an error
code stands only beside DONE (R19 "cleared together with DONE"). -/
structure State.StatusInv (s : State) : Prop where
  busy_done : s.phase = .busy → s.done = false
  busy_err : s.phase = .busy → s.err = .ok
  rst_idle : s.rst = true → s.phase = .idle
  err_done : s.err ≠ .ok → s.done = true

/-- The memories are in canonical form inside their ranges, the parameters are legal, and every free draw in use is an
earlier one, IBUF's and OBUF's being different. -/
structure State.MemInv (s : State) : Prop where
  legal : s.params.Legal
  wf : s.mem.wf s.params = true
  ibuf_drawn : s.mem.ibuf.draw < s.draws
  obuf_drawn : s.mem.obuf.draw < s.draws
  draws_differ : s.mem.ibuf.draw ≠ s.mem.obuf.draw

/-- The result registers describe OBUF: the result fits, its bytes are determined (none is a free draw), and a pad count
is the distance from NBITS to whole bytes (R23, R24, R25, R100). -/
structure State.OutputInv (s : State) : Prop where
  fits : s.outLen.toNat ≤ s.params.nObuf
  determined : ∀ j, j < s.outLen.toNat → (Table.find? s.mem.obuf.cells j).isSome = true
  padded : s.padOut.toNat ≠ 0 → s.nbits.toNat + s.padOut.toNat = 8 * s.outLen.toNat

/-- The last host access got OK (R42), with whatever data: the spec gives a write's response none (log entry 8). -/
def State.GotOk (s : State) : Prop := ∃ d, s.resp = some ⟨true, d⟩

/-- The last host access got ERR (R42, R47). -/
def State.GotErr (s : State) : Prop := ∃ d, s.resp = some ⟨false, d⟩

/-- The child of an internal node along edge '0' (false) or '1' (true) (R84). -/
def Node.child (n : Node) (b : Bool) : Nat := if b then n.right.toNat else n.left.toNat

/-- Handle `h` is a child of the internal node `g`. -/
def Memory.IsChild (m : Memory) (g h : Nat) : Prop :=
  (m.nodeAt g).kind = .internal ∧ ((m.nodeAt g).left.toNat = h ∨ (m.nodeAt g).right.toNat = h)

/-- The order of the selection keys (R83), on unsigned integers. -/
def Memory.KeyLess (m : Memory) (a c : Nat) : Prop :=
  (m.nodeAt a).weight.toNat < (m.nodeAt c).weight.toNat ∨
  ((m.nodeAt a).weight.toNat = (m.nodeAt c).weight.toNat ∧ a < c)

/-- Node `x` is in the working collection when node `h` is created (R81): it was created before, and no internal node
created before `h` took it as a child. -/
def Memory.Live (m : Memory) (h x : Nat) : Prop := x < h ∧ ∀ g, g < h → ¬ m.IsChild g x

/-- Node `h` of an arena is a merge of the two nodes with the least keys then in the working collection, the least one to
the LEFT (R83, R84), with the sum of their weights as integers (R88). -/
structure Memory.Merged (m : Memory) (h : Nat) : Prop where
  kind : (m.nodeAt h).kind = .internal
  sym : (m.nodeAt h).sym = 0#8
  weight : (m.nodeAt h).weight =
    (m.nodeAt (m.nodeAt h).left.toNat).weight + (m.nodeAt (m.nodeAt h).right.toNat).weight
  weight_toNat : (m.nodeAt h).weight.toNat =
    (m.nodeAt (m.nodeAt h).left.toNat).weight.toNat + (m.nodeAt (m.nodeAt h).right.toNat).weight.toNat
  left_live : m.Live h (m.nodeAt h).left.toNat
  right_live : m.Live h (m.nodeAt h).right.toNat
  less : m.KeyLess (m.nodeAt h).left.toNat (m.nodeAt h).right.toNat
  least : ∀ x, m.Live h x → x ≠ (m.nodeAt h).left.toNat → x ≠ (m.nodeAt h).right.toNat →
    m.KeyLess (m.nodeAt h).right.toNat x

/-- "The arena always holds a tree BUILD made, or the reset contents" (R35): the shape of R87 with the weights of R88, the
leaves of R82, the phantom tree of R86 for one present byte value, and for two or more the selections of R83 and R84. -/
structure State.TreeInv (s : State) : Prop where
  nleaf_le : s.nleaf.toNat ≤ 256
  nnode_eq : s.nnode.toNat =
    (if s.nleaf.toNat = 0 then 0 else if s.nleaf.toNat = 1 then 3 else 2 * s.nleaf.toNat - 1)
  root_eq : s.root = if s.nnode.toNat = 0 then Config.noRoot else BitVec.ofNat 9 (s.nnode.toNat - 1)
  beyond : ∀ h, s.nnode.toNat ≤ h → s.mem.nodeAt h = Node.empty
  leaf : ∀ h, h < s.nleaf.toNat → (s.mem.nodeAt h).kind = .leaf
  phantom : s.nleaf.toNat = 1 → s.mem.nodeAt 1 = phantomNode
  internal : ∀ h, s.nleaf.toNat ≤ h → h < s.nnode.toNat → (s.nleaf.toNat = 1 → h = 2) →
    (s.mem.nodeAt h).kind = .internal
  child_lt : ∀ h b, (s.mem.nodeAt h).kind = .internal → (s.mem.nodeAt h).child b < h
  children_differ : ∀ h, (s.mem.nodeAt h).kind = .internal → (s.mem.nodeAt h).left ≠ (s.mem.nodeAt h).right
  one_parent : ∀ h, h + 1 < s.nnode.toNat → ∃! g, s.mem.IsChild g h
  syms_rise : ∀ g h, g < h → h < s.nleaf.toNat → (s.mem.nodeAt g).sym < (s.mem.nodeAt h).sym
  weights_add : ∀ h, (s.mem.nodeAt h).kind = .internal → (s.mem.nodeAt h).weight.toNat =
    (s.mem.nodeAt ((s.mem.nodeAt h).child false)).weight.toNat +
    (s.mem.nodeAt ((s.mem.nodeAt h).child true)).weight.toNat
  leaf_fields : ∀ h, h < s.nleaf.toNat → (s.mem.nodeAt h).left = 0#9 ∧ (s.mem.nodeAt h).right = 0#9 ∧
    0 < (s.mem.nodeAt h).weight.toNat ∧ (s.mem.nodeAt h).weight.toNat < 2 ^ 32
  single : s.nleaf.toNat = 1 → s.mem.nodeAt 2 = ⟨.internal, 0#8, 0#9, 1#9, (s.mem.nodeAt 0).weight⟩
  merged : 2 ≤ s.nleaf.toNat → ∀ h, s.nleaf.toNat ≤ h → h < s.nnode.toNat → s.mem.Merged h

/-- The node reached from `h` along a path of edges (R8, R92), if the path stays on internal nodes. -/
def Memory.follow (m : Memory) : Nat → Bits → Option Nat
  | h, [] => some h
  | h, b :: p => if (m.nodeAt h).kind = .internal then Memory.follow m ((m.nodeAt h).child b) p else none

/-- `p` is the path from handle `h` to the leaf of byte value `b` (R92). -/
def Memory.LeafPath (m : Memory) (h b : Nat) (p : Bits) : Prop :=
  ∃ g, m.follow h p = some g ∧ (m.nodeAt g).kind = .leaf ∧ (m.nodeAt g).sym.toNat = b

/-- No code is a prefix of another byte value's code (R96). -/
def Memory.PrefixFree (m : Memory) : Prop :=
  ∀ b b', b < 256 → b' < 256 → b ≠ b' → ∀ c c', m.codeOf b = some c → m.codeOf b' = some c' → ¬ c <+: c'

/-- No two byte values share a code (R106). -/
def Memory.NoSharedCode (m : Memory) : Prop :=
  ∀ b b', b < b' → b' < 256 → ∀ c, m.codeOf b = some c → m.codeOf b' ≠ some c

/-- Byte value `b` is emitted for the bits `c` (R104): they are its code, and no shorter prefix of them is a code. -/
def Memory.Emits (m : Memory) (b : Nat) (c : Bits) : Prop :=
  b < 256 ∧ m.codeOf b = some c ∧ ∀ b', b' < 256 → ∀ c', m.codeOf b' = some c' → c' <+: c → c' = c

/-- The stream bits of a list of (byte value, code) pairs (R99, R104). -/
def segBits (segs : List (Nat × Bits)) : Bits := segs.flatMap Prod.snd

/-- The byte values of a list of (byte value, code) pairs. -/
def segBytes (segs : List (Nat × Bits)) : List Byte := segs.map fun g => BitVec.ofNat 8 g.1

/-- Every pair is a greedy emission (R104). -/
def Memory.GreedySegs (m : Memory) (segs : List (Nat × Bits)) : Prop := ∀ g, g ∈ segs → m.Emits g.1 g.2

/-- No prefix of `rest` is a code: a candidate that begins there never matches (R104, R118). -/
def Memory.NeverMatches (m : Memory) (rest : Bits) : Prop :=
  ∀ b, b < 256 → ∀ c, m.codeOf b = some c → ¬ c <+: rest

/-- The FREQ window (R41). -/
def FreqWindow (a : Nat) : Prop := 0x1000 ≤ a ∧ a < 0x1400

/-- The NODE window (R41). -/
def NodeWindow (a : Nat) : Prop := 0x2000 ≤ a ∧ a < 0x3FF0

/-- The CB window (R41). -/
def CbWindow (a : Nat) : Prop := 0x4000 ≤ a ∧ a < 0x8000

/-- The first `n` bytes of the OBUF window (R41). -/
def ObufBytes (n a : Nat) : Prop := 0x200000 ≤ a ∧ a < 0x200000 + n

/-- The window offsets of the bytes that a command, completed in `t`, has stored to (R64): OBUF[0..OUT_LEN−1] on
success, every OBUF byte on a failure that has failure writes. -/
def StoredBy (i : Instr) (t : State) (a : Nat) : Prop :=
  match i with
  | .nop | .illegal _ => False
  | .freq => t.err = .ok ∧ FreqWindow a
  | .build => NodeWindow a
  | .gencb | .clrcb => CbWindow a
  | .pack | .unpack => ObufBytes (if t.err = .ok then t.outLen.toNat else t.params.nObuf) a
  | .compress =>
    (t.err ≠ .len ∧ (FreqWindow a ∨ NodeWindow a ∨ CbWindow a)) ∨
    ((t.err ≠ .len ∨ t.params.compressLenDrops = true) ∧
      ObufBytes (if t.err = .ok then t.outLen.toNat else t.params.nObuf) a)

end Sys2Proof.Machine
end

