-- ==== Sys2Proof/Certificates/Slice0/Obligations.lean ====
section
/-! DEFINITION. The statements about the HCC, one per obligation of OBLIGATIONS.json. Each follows the rules its docstring
names; where it rests on a choice of the model, the docstring says so. -/

open Sys2Proof Sys2Proof.Machine

/-! ### Encoding -/

/-- Decoding an encoded well-formed command, from the head of any byte sequence, gives it back and leaves the rest;
encoding what any word decodes to gives the word back (R60, R61, R62, R63). The byte order is log entry 12 (DEDUCED). -/
def Obligations.DecodeUndoesEncode : Prop :=
  (∀ (i : Instr) (rest : List Byte), i.wf = true → decodeBytes (encodeBytes i ++ rest) = .ok (i, rest)) ∧
  (∀ w : Word, (decodeWord w).wf = true ∧ encode (decodeWord w) = w)

/-- R61, R62: decode is total: the eight words of the opcode map, and ILLEGAL for every other of the 2^32 words, which
completes with E_BAD_CMD. -/
def Obligations.DecodeFollowsOpcodeMap : Prop :=
  decodeWord 0x00000000#32 = .nop ∧ decodeWord 0x00000001#32 = .freq ∧ decodeWord 0x00000002#32 = .build ∧
  decodeWord 0x00000003#32 = .gencb ∧ decodeWord 0x00000004#32 = .pack ∧ decodeWord 0x00000005#32 = .unpack ∧
  decodeWord 0x00000006#32 = .compress ∧ decodeWord 0x00000007#32 = .clrcb ∧
  ∀ w : Word, 8 ≤ w.toNat → decodeWord w = .illegal w ∧
    ∀ s : State, ∃ t, exec (decodeWord w) s = .next t ∧ t.err = .badCmd ∧ t.phase = .idle

/-! ### The step -/

/-- While a command runs and no host step is to land before its completion, a step is `exec` of the decoded CMD (R71,
R72); so it is right after a command word is placed where the machine runs it from. Who moves next is log entry 5
(DESIGN CHOICE). That the command is computed on the state at its completion, and what withFetchWord stands for, is
log entry 6 (DEDUCED). -/
def Obligations.StepRunsTheDecodedCommand : Prop :=
  (∀ (s : State) (i : Instr), s.phase = .busy → s.rst = false → (s.latency = 0 ∨ s.inputs = []) →
    decodeWord s.cmd = i → step s = exec i s) ∧
  (∀ (s : State) (w : Word),
    step (s.withFetchWord 32 w.toNat) = exec (decodeWord w) (s.withFetchWord 32 w.toNat) ∧
    (s.withFetchWord 32 w.toNat).cmd = w ∧ (s.withFetchWord 32 w.toNat).mem = s.mem)

/-- While no command runs, or host steps are still to land before its completion, a step is the oldest host operation;
a WAIT is a read of STATUS that changes nothing else (R48) and stays pending until the value it reads has DONE = 1
(R55, R68, R71; a read that gets ERR: log entry 16, DEDUCED); with none pending the HCC waits unchanged (R133). Who
moves next is log entry 5 (DESIGN CHOICE). -/
def Obligations.StepTakesTheOldestHostOperation : Prop :=
  ∀ s : State, (s.phase = .idle ∨ (s.phase = .busy ∧ s.latency ≠ 0)) →
    (s.inputs = [] → s.phase = .idle → step s = .next s) ∧
    (∀ acc rest, s.inputs = .access acc :: rest →
      step s = .next (State.access acc { s with inputs := rest, latency := s.latency - 1 })) ∧
    (∀ b rest, s.inputs = .rst b :: rest →
      step s = .next (State.setRst b { s with inputs := rest, latency := s.latency - 1 })) ∧
    (∀ rest, s.inputs = .wait :: rest → step s =
      .next { s with resp := some (if s.rst then ⟨false, 0⟩ else ⟨true, s.statusWord⟩), latency := s.latency - 1,
                     inputs := if s.rst = false ∧ s.done = true then rest else s.inputs })

/-- Every state has a next state: no step ends in a fault or a refusal. This is the model's own deduction (log entry
10, DEDUCED) from R123 (an error is a completed command, which the spec itself derives from R71) and R47 (a bus error
is a response). -/
def Obligations.EveryStepHasANextState : Prop := ∀ s : State, ∃ t, step s = .next t

/-- R75: a running command completes. It does within `latency` + 1 steps, unless RST is asserted before. That the number
of host steps is finite is the model's form of the weak fairness of R75 (DESIGN CHOICE, log entry 5). -/
def Obligations.RunningCommandCompletes : Prop :=
  ∀ s : State, s.phase = .busy → s.rst = false → (∀ i, i ∈ s.inputs.take s.latency → i ≠ .rst true) →
    ∃ k t, k ≤ s.latency + 1 ∧ Host.Core.run Sys2Proof.core k s = .next t ∧ t.phase = .idle ∧ t.done = true

/-! ### NOP and ILLEGAL -/

/-- R76: the word 0 is NOP, and NOP completes with no effect: only PHASE, DONE, ERR, ERR_POS and ERR_SYM are written;
with OVR clear STATUS then reads 2; it asserts the interrupt when IE = 1. -/
def Obligations.NopOnlyCompletes : Prop :=
  decodeWord 0x00000000#32 = .nop ∧ ∀ s : State, ∃ t, exec .nop s = .next t ∧
    t = { s with phase := .idle, done := true, err := .ok, errPos := 0#32, errSym := 0#16 } ∧
    (s.ovr = false → t.statusWord = 0x00000002#32) ∧ (s.rst = false → t.irq = s.ie)

/-- R77, R116: every word with RSVD ≠ 0 or OP in 0x8..0xF completes with E_BAD_CMD and no other effect; the word stays
in CMD, the memories and the result registers keep their values. -/
def Obligations.IllegalCompletesWithBadCmd : Prop :=
  ∀ (w : Word) (s : State), 8 ≤ w.toNat → ∃ t, decodeWord w = .illegal w ∧ exec (.illegal w) s = .next t ∧
    t = { s with phase := .idle, done := true, err := .badCmd, errPos := 0#32, errSym := 0#16 } ∧
    (s.ovr = false → t.statusWord = 0x00000012#32)

/-! ### FREQ -/

/-- R78: the word 1 is FREQ. FREQ completes when IN_LEN ≤ N_IBUF; every one of the 256 entries is the number of times
its byte value occurs in IBUF[0..IN_LEN−1], whatever it was before, and nothing else but the completion is written.
When IN_LEN > N_IBUF it fails with E_LEN, ERR_POS = IN_LEN, ERR_SYM = 0, and FREQ keeps its contents. -/
def Obligations.FreqCountsTheInput : Prop :=
  decodeWord 0x00000001#32 = .freq ∧ ∀ s : State,
    (s.inLen.toNat ≤ s.params.nIbuf → ∃ t, exec .freq s = .next t ∧
      (∀ b, b < 256 → t.mem.freqAt b =
        BitVec.ofNat 32 (((List.range s.inLen.toNat).map s.mem.ibuf.byte).count (BitVec.ofNat 8 b))) ∧
      t = { s with mem := { s.mem with freq := t.mem.freq }, phase := .idle, done := true, err := .ok,
                   errPos := 0#32, errSym := 0#16 }) ∧
    (s.params.nIbuf < s.inLen.toNat → exec .freq s =
      .next { s with phase := .idle, done := true, err := .len, errPos := s.inLen, errSym := 0#16 })

/-- R80, with the arithmetic of R79: after FREQ a byte value is present exactly when it occurs in the input, K is the
number of distinct byte values of the input, no count overflows, and the counts add up to exactly IN_LEN. R79 and R80
are inferences the spec draws from R78. -/
def Obligations.FreqPresentExactlyWhenOccurring : Prop :=
  ∀ s : State, s.params.Legal → s.inLen.toNat ≤ s.params.nIbuf → ∃ t, exec .freq s = .next t ∧
    (∀ v : Byte, t.mem.freqAt v.toNat ≠ 0#32 ↔ ∃ i, i < s.inLen.toNat ∧ s.mem.ibuf.byte i = v) ∧
    ((List.range 256).filter fun b => t.mem.freqAt b != 0#32).length =
      ((List.range s.inLen.toNat).map s.mem.ibuf.byte).toFinset.card ∧
    (∀ b, b < 256 → (t.mem.freqAt b).toNat ≤ s.inLen.toNat) ∧
    ((List.range 256).map fun b => (t.mem.freqAt b).toNat).sum = s.inLen.toNat

/-- R121: IN_LEN > N_IBUF fails FREQ, PACK, UNPACK and COMPRESS with E_LEN before anything else. FREQ writes nothing
but the completion (R78), PACK and UNPACK their failure writes (R99, R103). What COMPRESS writes the spec says twice:
the failure writes (R23, R24, R25, R137), or nothing but the completion (R110); a parameter says which (log entry 7,
DESIGN CHOICE), and both are stated. -/
def Obligations.LengthErrorComesFirst : Prop :=
  ∀ s : State, s.params.nIbuf < s.inLen.toNat →
    (exec .freq s = .next { s with phase := .idle, done := true, err := .len, errPos := s.inLen, errSym := 0#16 }) ∧
    (s.params.compressLenDrops = false →
      exec .compress s = .next { s with phase := .idle, done := true, err := .len, errPos := s.inLen, errSym := 0#16 }) ∧
    (∀ i, i = .pack ∨ i = .unpack ∨ (i = .compress ∧ s.params.compressLenDrops = true) → ∃ ob d, exec i s =
      .next { s with phase := .idle, done := true, err := .len, errPos := s.inLen, errSym := 0#16,
                     outLen := 0#32, padOut := 0#3, nbits := 0#32, mem := { s.mem with obuf := ob }, draws := d })

/-! ### BUILD -/

/-- R85: BUILD of an empty table makes no tree and does not fail: every entry is UNUSED and zero, NLEAF = NNODE = 0,
ROOT = 0x1FF. -/
def Obligations.BuildOfEmptyTableMakesNoTree : Prop :=
  ∀ s : State, (∀ b, b < 256 → s.mem.freqAt b = 0#32) → ∃ t, exec .build s = .next t ∧
    (∀ h, t.mem.nodeAt h = Node.empty) ∧
    t = { s with mem := { s.mem with node := t.mem.node }, nleaf := 0#9, nnode := 0#10, root := 0x1FF#9,
                 phase := .idle, done := true, err := .ok, errPos := 0#32, errSym := 0#16 }

/-- R86: one present byte value gives the real leaf at 0, the phantom leaf at 1 and the root at 2 over both; GENCB then
gives the byte value the code `0` and no other byte value a code. -/
def Obligations.BuildOfOneSymbolAddsPhantom : Prop :=
  ∀ (s : State) (b : Nat), b < 256 → (∀ b', b' < 256 → (s.mem.freqAt b' ≠ 0#32 ↔ b' = b)) →
    ∃ t u, exec .build s = .next t ∧
      t.mem.nodeAt 0 = ⟨.leaf, BitVec.ofNat 8 b, 0#9, 0#9, (s.mem.freqAt b).zeroExtend 40⟩ ∧
      t.mem.nodeAt 1 = ⟨.phantom, 0#8, 0#9, 0#9, 0#40⟩ ∧
      t.mem.nodeAt 2 = ⟨.internal, 0#8, 0#9, 1#9, (s.mem.freqAt b).zeroExtend 40⟩ ∧
      (∀ h, 3 ≤ h → t.mem.nodeAt h = Node.empty) ∧
      t = { s with mem := { s.mem with node := t.mem.node }, nleaf := 1#9, nnode := 3#10, root := 2#9,
                   phase := .idle, done := true, err := .ok, errPos := 0#32, errSym := 0#16 } ∧
      exec .gencb t = .next u ∧ u.mem.codeOf b = some [false] ∧ ∀ b', b' ≠ b → u.mem.codeOf b' = none

/-- R82: the j-th present byte value, in ascending order, is the leaf at handle j, with its count as weight; NLEAF is
the number of present byte values. -/
def Obligations.BuildAllocatesLeavesInByteOrder : Prop :=
  ∀ s : State, ∃ t, exec .build s = .next t ∧
    (let syms := (List.range 256).filter fun b => s.mem.freqAt b != 0#32
     t.nleaf = BitVec.ofNat 9 syms.length ∧
     ∀ j b, syms[j]? = some b →
       t.mem.nodeAt j = ⟨.leaf, BitVec.ofNat 8 b, 0#9, 0#9, (s.mem.freqAt b).zeroExtend 40⟩)

/-- R83, R84: for two or more present byte values, the internal node made at handle h takes, of the nodes then in the
working collection, the one with the least key as LEFT and the next as RIGHT, and its weight is the sum of theirs. -/
def Obligations.BuildMergesTheTwoLeastKeys : Prop :=
  ∀ s : State, 2 ≤ ((List.range 256).filter fun b => s.mem.freqAt b != 0#32).length →
    ∃ t, exec .build s = .next t ∧ ∀ h, t.nleaf.toNat ≤ h → h < t.nnode.toNat →
      (t.mem.nodeAt h).kind = .internal ∧ (t.mem.nodeAt h).sym = 0#8 ∧
      (t.mem.nodeAt h).weight = (t.mem.nodeAt (t.mem.nodeAt h).left.toNat).weight +
        (t.mem.nodeAt (t.mem.nodeAt h).right.toNat).weight ∧
      t.mem.Live h (t.mem.nodeAt h).left.toNat ∧ t.mem.Live h (t.mem.nodeAt h).right.toNat ∧
      t.mem.KeyLess (t.mem.nodeAt h).left.toNat (t.mem.nodeAt h).right.toNat ∧
      ∀ x, t.mem.Live h x → x ≠ (t.mem.nodeAt h).left.toNat → x ≠ (t.mem.nodeAt h).right.toNat →
        t.mem.KeyLess (t.mem.nodeAt h).right.toNat x

/-- R87: whatever FREQ holds, BUILD completes and leaves a tree over its K present byte values: NNODE = 0, 3 or 2K −
1, ROOT = NNODE − 1, every internal node over two different children with smaller handles, every other node with
exactly one parent; made by the selections of R83 and R84; and writes nothing but NODE, NLEAF, NNODE, ROOT and the
completion. R87 is an inference the spec draws from R81. -/
def Obligations.BuildLeavesATree : Prop :=
  ∀ s : State, ∃ t, exec .build s = .next t ∧ t.TreeInv ∧
    t.nleaf.toNat = ((List.range 256).filter fun b => s.mem.freqAt b != 0#32).length ∧
    t = { s with mem := { s.mem with node := t.mem.node }, nleaf := t.nleaf, nnode := t.nnode, root := t.root,
                 phase := .idle, done := true, err := .ok, errPos := 0#32, errSym := 0#16 }

/-- R88: weights never overflow 40 bits: every leaf weight is below 2^32, every internal weight is the sum of its
children's as integers, and the root weight is the sum of all FREQ entries. R88 is an inference the spec draws from
R81. -/
def Obligations.BuildWeightsNeverOverflow : Prop :=
  ∀ s : State, ∃ t, exec .build s = .next t ∧
    (∀ h, (t.mem.nodeAt h).kind = .leaf → (t.mem.nodeAt h).weight.toNat < 2 ^ 32) ∧
    (∀ h, (t.mem.nodeAt h).kind = .internal → (t.mem.nodeAt h).weight.toNat =
      (t.mem.nodeAt (t.mem.nodeAt h).left.toNat).weight.toNat +
      (t.mem.nodeAt (t.mem.nodeAt h).right.toNat).weight.toNat) ∧
    (t.nnode ≠ 0#10 → (t.mem.nodeAt t.root.toNat).weight.toNat =
      ((List.range 256).map fun b => (s.mem.freqAt b).toNat).sum)

/-- R90: BUILD is a function of FREQ alone. R90 is an inference the spec draws from R83. -/
def Obligations.BuildDependsOnlyOnFreq : Prop :=
  ∀ s s' : State, (∀ b, b < 256 → s.mem.freqAt b = s'.mem.freqAt b) →
    ∃ t t', exec .build s = .next t ∧ exec .build s' = .next t' ∧ t.mem.node = t'.mem.node ∧
      t.nleaf = t'.nleaf ∧ t.nnode = t'.nnode ∧ t.root = t'.root

/-- R91: the two-queue realisation gives the arena of R81 exactly, for every FREQ table. R91 is an inference the spec
draws from R83 and R84. -/
def Obligations.TwoQueueBuilderGivesTheSameArena : Prop :=
  ∀ f : Table Word, twoQueueNodes f = buildNodes f

/-! ### GENCB and CLRCB -/

/-- R92: the word 3 is GENCB. On a tree, GENCB gives byte value b the code p exactly when p is the path from ROOT to
the leaf of b; the code elements beyond LEN are 0, a byte value without a leaf is cleared, and nothing but CB and the
completion is written. -/
def Obligations.GencbWritesTheLeafPaths : Prop :=
  decodeWord 0x00000003#32 = .gencb ∧ ∀ s : State, s.TreeInv → ∃ t, exec .gencb s = .next t ∧
    (∀ b, b < 256 → ∀ p, t.mem.codeOf b = some p ↔ s.mem.LeafPath s.root.toNat b p) ∧
    (∀ b, b < 256 → ∀ i, (t.mem.cbAt b).len.toNat ≤ i → (t.mem.cbAt b).code.getMsbD i = false) ∧
    (∀ b, b < 256 → (∀ p, ¬ s.mem.LeafPath s.root.toNat b p) → t.mem.cbAt b = ⟨0#8, 0#256⟩) ∧
    t = { s with mem := { s.mem with cb := t.mem.cb }, phase := .idle, done := true, err := .ok,
                 errPos := 0#32, errSym := 0#16 }

/-- R89: on a tree every leaf's depth is at least 1 and at most max(1, K − 1) ≤ 255, so every code GENCB derives has a
length from 1 to 255. R89 is an inference the spec draws from R87. -/
def Obligations.GencbCodeLengthsAreBounded : Prop :=
  ∀ s : State, s.TreeInv → ∃ t, exec .gencb s = .next t ∧
    (∀ b p, s.mem.LeafPath s.root.toNat b p →
      1 ≤ p.length ∧ p.length ≤ max 1 (s.nleaf.toNat - 1) ∧ p.length ≤ 255) ∧
    (∀ b, b < 256 → ∀ c, t.mem.codeOf b = some c →
      1 ≤ c.length ∧ c.length ≤ max 1 (s.nleaf.toNat - 1) ∧ c.length ≤ 255)

/-- R96: after GENCB no code is a prefix of another, and no two byte values share a code. R96 is an inference the spec
draws from R92 and R87. -/
def Obligations.GeneratedCodebookIsPrefixFree : Prop :=
  ∀ s : State, s.TreeInv → ∃ t, exec .gencb s = .next t ∧ t.mem.PrefixFree ∧ t.mem.NoSharedCode

/-- R97: after BUILD and then GENCB, a byte value has a code exactly when it is present in FREQ, NLEAF byte values
have one, and the code lengths satisfy Σ 2^−LEN = 1 (K ≥ 2) or 1/2 (K = 1), here times 2^255. R97 is an inference the
spec draws from R92 and R87. -/
def Obligations.GeneratedCodebookIsComplete : Prop :=
  ∀ s : State, ∃ t u, exec .build s = .next t ∧ exec .gencb t = .next u ∧
    (∀ b, b < 256 → ((u.mem.cbAt b).len ≠ 0#8 ↔ s.mem.freqAt b ≠ 0#32)) ∧
    ((List.range 256).filter fun b => (u.mem.cbAt b).len != 0#8).length = t.nleaf.toNat ∧
    (2 ≤ t.nleaf.toNat → (((List.range 256).filter fun b => (u.mem.cbAt b).len != 0#8).map
      fun b => 2 ^ (255 - (u.mem.cbAt b).len.toNat)).sum = 2 ^ 255) ∧
    (t.nleaf.toNat = 1 → (((List.range 256).filter fun b => (u.mem.cbAt b).len != 0#8).map
      fun b => 2 ^ (255 - (u.mem.cbAt b).len.toNat)).sum = 2 ^ 254)

/-- R93: the word 7 is CLRCB. CLRCB clears every codebook entry and writes nothing else but the completion, so FREQ
and NODE keep and a GENCB after it gives the codebook that a GENCB without it gives. -/
def Obligations.ClrcbClearsEveryEntry : Prop :=
  decodeWord 0x00000007#32 = .clrcb ∧ ∀ s : State, ∃ t, exec .clrcb s = .next t ∧ (∀ b, t.mem.cbAt b = ⟨0#8, 0#256⟩) ∧
    t = { s with mem := { s.mem with cb := t.mem.cb }, phase := .idle, done := true, err := .ok,
                 errPos := 0#32, errSym := 0#16 } ∧
    exec .gencb t = exec .gencb s

/-! ### PACK -/

/-- R99 (success), R101, R52: when every input byte has a code and the codes fit OBUF, PACK completes: stream bit k of
OBUF is bit k of the codes laid down in input order, the bits up to a whole byte are 0, the bytes at and beyond
OUT_LEN keep their values, OUT_LEN, PAD_OUT and NBITS take the numbers of bytes, pad bits and code bits. R101 is an
inference the spec draws from R99. -/
def Obligations.PackLaysDownTheCodes : Prop :=
  ∀ (s : State) (codes : List Bits), s.params.Legal → s.inLen.toNat ≤ s.params.nIbuf →
    ((List.range s.inLen.toNat).map fun i => s.mem.codeOf (s.mem.ibuf.byte i).toNat) = codes.map some →
    codes.flatten.length ≤ 8 * s.params.nObuf →
    ∃ t, exec .pack s = .next t ∧
      t.nbits.toNat = codes.flatten.length ∧ t.outLen.toNat = (codes.flatten.length + 7) / 8 ∧
      t.padOut.toNat = 8 * t.outLen.toNat - t.nbits.toNat ∧
      (∀ k, k < t.nbits.toNat → streamBit t.mem.obuf.byte k = codes.flatten.getD k false) ∧
      (∀ k, t.nbits.toNat ≤ k → k < 8 * t.outLen.toNat → streamBit t.mem.obuf.byte k = false) ∧
      (∀ j, t.outLen.toNat ≤ j → t.mem.obuf.byte j = s.mem.obuf.byte j) ∧
      t = { s with outLen := t.outLen, padOut := t.padOut, nbits := t.nbits,
                   mem := { s.mem with obuf := t.mem.obuf },
                   phase := .idle, done := true, err := .ok, errPos := 0#32, errSym := 0#16 }

/-- R100: after a successful PACK, PAD_OUT = 8 · OUT_LEN − NBITS in 0..7, OUT_LEN = ceil(NBITS / 8), the last PAD_OUT
bits of the last byte are 0, and PAD_OUT = 0 exactly when NBITS is a multiple of 8. R102: with IN_LEN = 0 and any
codebook it succeeds with all three 0 and writes no OBUF byte. R100 and R102 are inferences the spec draws from R99.
-/
def Obligations.PadCountRoundsUpToBytes : Prop :=
  (∀ s t : State, s.params.Legal → exec .pack s = .next t → t.err = .ok →
    t.nbits.toNat + t.padOut.toNat = 8 * t.outLen.toNat ∧ t.outLen.toNat = (t.nbits.toNat + 7) / 8 ∧
    (∀ k, k < t.padOut.toNat → (t.mem.obuf.byte (t.outLen.toNat - 1)).getLsbD k = false) ∧
    (t.padOut = 0#3 ↔ t.nbits.toNat % 8 = 0)) ∧
  (∀ s : State, s.inLen = 0#32 → exec .pack s =
    .next { s with outLen := 0#32, padOut := 0#3, nbits := 0#32,
                   phase := .idle, done := true, err := .ok, errPos := 0#32, errSym := 0#16 })

/-- R99 (errors), R117, R122: PACK stops at the first input byte that has no code (E_MISSING_CODE) or whose code
would take the stream past 8 · N_OBUF bits (E_OBUF_OVF), with its index and value as ERR_POS and ERR_SYM; OUT_LEN,
PAD_OUT and NBITS take 0, OBUF is a fresh free draw (DESIGN CHOICE, log entry 3), and nothing else
but the completion is written. -/
def Obligations.PackStopsAtTheFirstBadByte : Prop :=
  ∀ (s : State) (codes : List Bits) (e : ErrCode), s.inLen.toNat ≤ s.params.nIbuf → codes.length < s.inLen.toNat →
    ((List.range codes.length).map fun i => s.mem.codeOf (s.mem.ibuf.byte i).toNat) = codes.map some →
    codes.flatten.length ≤ 8 * s.params.nObuf →
    ((s.mem.codeOf (s.mem.ibuf.byte codes.length).toNat = none ∧ e = .missingCode) ∨
     (∃ c, s.mem.codeOf (s.mem.ibuf.byte codes.length).toNat = some c ∧
       8 * s.params.nObuf < codes.flatten.length + c.length ∧ e = .obufOvf)) →
    exec .pack s = .next { s with outLen := 0#32, padOut := 0#3, nbits := 0#32,
                                  mem := { s.mem with obuf := ⟨[], s.draws⟩ }, draws := s.draws + 1,
                                  phase := .idle, done := true, err := e, errPos := BitVec.ofNat 32 codes.length,
                                  errSym := (s.mem.ibuf.byte codes.length).zeroExtend 16 }

/-! ### UNPACK -/

/-- R103 (success), R104: when no two byte values share a code, UNPACK of a trimmed stream that is a concatenation of
greedy emissions fitting OBUF completes: it writes their byte values, OUT_LEN their number, NBITS the trimmed length,
PAD_OUT 0, and keeps the bytes at and beyond OUT_LEN. R104 is an inference the spec draws from R103. -/
def Obligations.UnpackEmitsTheGreedyParse : Prop :=
  ∀ (s : State) (segs : List (Nat × Bits)), s.params.Legal → s.inLen.toNat ≤ s.params.nIbuf →
    s.padIn.toNat ≤ 8 * s.inLen.toNat → s.mem.NoSharedCode → s.mem.GreedySegs segs →
    (segBits segs).length = 8 * s.inLen.toNat - s.padIn.toNat →
    (∀ k, k < (segBits segs).length → streamBit s.mem.ibuf.byte k = (segBits segs).getD k false) →
    segs.length ≤ s.params.nObuf →
    ∃ t, exec .unpack s = .next t ∧
      t.outLen.toNat = segs.length ∧ t.nbits.toNat = 8 * s.inLen.toNat - s.padIn.toNat ∧
      (∀ j, j < segs.length → t.mem.obuf.byte j = (segBytes segs).getD j 0#8) ∧
      (∀ j, segs.length ≤ j → t.mem.obuf.byte j = s.mem.obuf.byte j) ∧
      t = { s with outLen := t.outLen, padOut := 0#3, nbits := t.nbits, mem := { s.mem with obuf := t.mem.obuf },
                   phase := .idle, done := true, err := .ok, errPos := 0#32, errSym := 0#16 }

/-- R103, R118, R120 (errors while scanning): after greedy emissions that fit OBUF, bits that never match give
E_MALFORMED with the index of the first of them, and one emission too many gives E_OBUF_OVF with the index of its
first bit and its byte value; the failure writes apply, OBUF being a fresh free draw (log entry 3, DESIGN CHOICE). -/
def Obligations.UnpackReportsWhereTheStreamBreaks : Prop :=
  ∀ (s : State) (segs : List (Nat × Bits)) (rest : Bits) (e : ErrCode) (sym : BitVec 16),
    s.inLen.toNat ≤ s.params.nIbuf → s.padIn.toNat ≤ 8 * s.inLen.toNat → s.mem.NoSharedCode → s.mem.GreedySegs segs →
    (segBits segs ++ rest).length = 8 * s.inLen.toNat - s.padIn.toNat →
    (∀ k, k < (segBits segs ++ rest).length →
      streamBit s.mem.ibuf.byte k = (segBits segs ++ rest).getD k false) →
    segs.length ≤ s.params.nObuf →
    ((rest ≠ [] ∧ s.mem.NeverMatches rest ∧ e = .malformed ∧ sym = 0#16) ∨
     (segs.length = s.params.nObuf ∧
       ∃ b c, s.mem.Emits b c ∧ c <+: rest ∧ e = .obufOvf ∧ sym = BitVec.ofNat 16 b)) →
    exec .unpack s = .next { s with outLen := 0#32, padOut := 0#3, nbits := 0#32,
                                    mem := { s.mem with obuf := ⟨[], s.draws⟩ }, draws := s.draws + 1,
                                    phase := .idle, done := true, err := e,
                                    errPos := BitVec.ofNat 32 (segBits segs).length, errSym := sym }

/-- R105: a pad count larger than the stream fails with E_MALFORMED at position 0. -/
def Obligations.UnpackRejectsPadBeyondStream : Prop :=
  ∀ s : State, s.inLen.toNat ≤ s.params.nIbuf → 8 * s.inLen.toNat < s.padIn.toNat →
    ∃ ob d, exec .unpack s = .next { s with outLen := 0#32, padOut := 0#3, nbits := 0#32,
                                            mem := { s.mem with obuf := ob }, draws := d,
                                            phase := .idle, done := true, err := .malformed,
                                            errPos := 0#32, errSym := 0#16 }

/-- R106: with two byte values of one code UNPACK fails E_DUP_CODE before scanning, and ERR_SYM = b | b′ << 8 for the
pair with the least b and, for that b, the least b′. -/
def Obligations.UnpackReportsTheLeastDuplicate : Prop :=
  ∀ (s : State) (b b' : Nat) (c : Bits), s.inLen.toNat ≤ s.params.nIbuf → s.padIn.toNat ≤ 8 * s.inLen.toNat →
    b < b' → b' < 256 → s.mem.codeOf b = some c → s.mem.codeOf b' = some c →
    (∀ x x', x < b → x < x' → x' < 256 → ∀ d, s.mem.codeOf x = some d → s.mem.codeOf x' ≠ some d) →
    (∀ x', b < x' → x' < b' → s.mem.codeOf x' ≠ some c) →
    ∃ ob d, exec .unpack s = .next { s with outLen := 0#32, padOut := 0#3, nbits := 0#32,
                                            mem := { s.mem with obuf := ob }, draws := d,
                                            phase := .idle, done := true, err := .dupCode,
                                            errPos := 0#32, errSym := BitVec.ofNat 16 (b + 256 * b') }

/-- R107: the dropped pad bits are not checked: inputs that agree on the trimmed stream give the same result. -/
def Obligations.UnpackIgnoresThePadBits : Prop :=
  ∀ (s : State) (ib : Buffer),
    (∀ k, k < 8 * s.inLen.toNat - s.padIn.toNat → streamBit ib.byte k = streamBit s.mem.ibuf.byte k) →
    ∃ t, exec .unpack s = .next t ∧
      exec .unpack { s with mem := { s.mem with ibuf := ib } } = .next { t with mem := { t.mem with ibuf := ib } }

/-- R108: once the candidate is longer than every LEN in CB nothing is emitted any more and the outcome is E_MALFORMED
at the candidate's start. R108 is an inference the spec draws from R103. -/
def Obligations.UnpackFailsOnceTheCandidateIsTooLong : Prop :=
  ∀ (m : Memory) (cap k start emitted : Nat) (cand bits : Bits), cand ≠ [] →
    (∀ b, b < 256 → (m.cbAt b).len.toNat < cand.length) →
    unpackScan m.cb cap k start cand emitted bits = .error ⟨.malformed, start, 0#16⟩

/-- R109: UNPACK of what PACK wrote with a generated codebook gives the input back. `g` holds the codebook GENCB made
of a tree, `c` packs with it, and `u` holds PACK's bytes, length and pad as its input, and the same codebook. R109 is
an inference the spec draws from R99, R103 and R96. -/
def Obligations.UnpackUndoesPack : Prop :=
  ∀ s g c t u : State, s.TreeInv → exec .gencb s = .next g → c.params.Legal → c.mem.cb = g.mem.cb →
    exec .pack c = .next t → t.err = .ok →
    u.mem.cb = g.mem.cb → u.inLen = t.outLen → u.padIn = t.padOut → t.outLen.toNat ≤ u.params.nIbuf →
    c.inLen.toNat ≤ u.params.nObuf → (∀ j, j < t.outLen.toNat → u.mem.ibuf.byte j = t.mem.obuf.byte j) →
    ∃ v, exec .unpack u = .next v ∧ v.err = .ok ∧ v.outLen = c.inLen ∧ v.nbits = t.nbits ∧
      ∀ j, j < c.inLen.toNat → v.mem.obuf.byte j = c.mem.ibuf.byte j

/-! ### COMPRESS -/

/-- R110: when IN_LEN ≤ N_IBUF, COMPRESS gives what FREQ, then BUILD, then GENCB, then PACK give one after the other,
success or failure. When IN_LEN > N_IBUF it fails with E_LEN: by a parameter (log entry 7, DESIGN CHOICE) it then
gives what PACK gives, failing (R23, R24, R25, R137), or writes nothing but the completion (R110). -/
def Obligations.CompressIsItsFourStages : Prop :=
  ∀ s : State,
    (s.inLen.toNat ≤ s.params.nIbuf → ∃ t u v w, exec .freq s = .next t ∧ exec .build t = .next u ∧
      exec .gencb u = .next v ∧ exec .pack v = .next w ∧ exec .compress s = .next w) ∧
    (s.params.nIbuf < s.inLen.toNat → exec .compress s =
      if s.params.compressLenDrops then exec .pack s
      else .next { s with phase := .idle, done := true, err := .len, errPos := s.inLen, errSym := 0#16 })

/-- R111: inside COMPRESS every input byte has a code, so the only errors are E_LEN and E_OBUF_OVF; it succeeds
whenever OBUF has room for 255 bits a byte, and then OBUF holds the input's codes in order. R111 is an inference the
spec draws from R80, R81 and R97. -/
def Obligations.CompressNeverMissesACode : Prop :=
  ∀ s : State, s.params.Legal → s.inLen.toNat ≤ s.params.nIbuf → ∃ t, exec .compress s = .next t ∧
    (t.err = .ok ∨ t.err = .obufOvf) ∧
    (∀ i, i < s.inLen.toNat → (t.mem.codeOf (s.mem.ibuf.byte i).toNat).isSome = true) ∧
    (255 * s.inLen.toNat ≤ 8 * s.params.nObuf → t.err = .ok ∧
      ∀ k, k < t.nbits.toNat → streamBit t.mem.obuf.byte k =
        ((List.range s.inLen.toNat).flatMap fun i =>
          (t.mem.codeOf (s.mem.ibuf.byte i).toNat).getD []).getD k false)

/-- R112: COMPRESS is a function of IN_LEN and IBUF[0..IN_LEN−1] (and the buffer sizes): whatever else the two states
hold, outcome, result bytes, tables and result registers are the same. R112 is an inference the spec draws from R110
and R90. -/
def Obligations.CompressDependsOnlyOnTheInput : Prop :=
  ∀ s s' : State, s.params.Legal → s.params = s'.params → s.inLen = s'.inLen → s.inLen.toNat ≤ s.params.nIbuf →
    (∀ i, i < s.inLen.toNat → s.mem.ibuf.byte i = s'.mem.ibuf.byte i) →
    ∃ t t', exec .compress s = .next t ∧ exec .compress s' = .next t' ∧ t.err = t'.err ∧
      t.errPos = t'.errPos ∧ t.errSym = t'.errSym ∧ t.outLen = t'.outLen ∧ t.padOut = t'.padOut ∧
      t.nbits = t'.nbits ∧ t.mem.freq = t'.mem.freq ∧ t.mem.node = t'.mem.node ∧ t.mem.cb = t'.mem.cb ∧
      t.nleaf = t'.nleaf ∧ t.nnode = t'.nnode ∧ t.root = t'.root ∧
      ∀ j, j < t.outLen.toNat → t.mem.obuf.byte j = t'.mem.obuf.byte j

/-! ### What the commands leave unchanged -/

/-- R64 (registers): a completed command leaves N_IBUF, N_OBUF, CMD, OVR, IE, IN_LEN, PAD_IN, IBUF and RST unchanged;
only BUILD and COMPRESS write NLEAF, NNODE and ROOT, only PACK, UNPACK and COMPRESS write OUT_LEN, PAD_OUT and NBITS.
-/
def Obligations.CommandsWriteOnlyTheirRegisters : Prop :=
  ∀ (i : Instr) (s t : State), exec i s = .next t →
    t.phase = .idle ∧ t.done = true ∧ t.params = s.params ∧ t.cmd = s.cmd ∧ t.ovr = s.ovr ∧ t.ie = s.ie ∧
    t.inLen = s.inLen ∧ t.padIn = s.padIn ∧ t.mem.ibuf = s.mem.ibuf ∧ t.rst = s.rst ∧ t.resp = s.resp ∧
    t.inputs = s.inputs ∧ t.latency = s.latency ∧ t.latencies = s.latencies ∧
    (i ≠ .build → i ≠ .compress → t.nleaf = s.nleaf ∧ t.nnode = s.nnode ∧ t.root = s.root) ∧
    (i ≠ .pack → i ≠ .unpack → i ≠ .compress →
      t.outLen = s.outLen ∧ t.padOut = s.padOut ∧ t.nbits = s.nbits)

/-- R64 (memories): every byte of the memory windows that a completed command does not store to reads as before. -/
def Obligations.CommandsKeepAllOtherBytes : Prop :=
  ∀ (i : Instr) (s t : State), s.params.Legal → exec i s = .next t → ∀ a, ¬ StoredBy i t a →
    t.windowByte a = s.windowByte a

/-! ### The host bus -/

/-- R41, R43, R44, R46: exactly which accesses get OK, while RST is released. -/
def Obligations.WindowMapDecidesTheResponse : Prop :=
  ∀ (s : State) (a : Offset) (n : Width) (v : Word), s.params.Legal → s.rst = false →
    (s.accessErrs (.read a n) = s.accessErrs (.write a n v)) ∧
    (∀ acc, s.accessErrs acc = false → (s.access acc).GotOk) ∧
    (∀ acc, s.accessErrs acc = true → (s.access acc).GotErr) ∧
    (s.accessErrs (.read a n) = false ↔
      (n = .word ∧ a.toNat % 4 = 0 ∧
        (a.toNat < 0x40 ∨ FreqWindow a.toNat ∨ NodeWindow a.toNat ∨ CbWindow a.toNat)) ∨
      (a.toNat % n.bytes = 0 ∧ 0x100000 ≤ a.toNat ∧ a.toNat + n.bytes ≤ 0x100000 + s.params.nIbuf) ∨
      (a.toNat % n.bytes = 0 ∧ 0x200000 ≤ a.toNat ∧ a.toNat + n.bytes ≤ 0x200000 + s.params.nObuf))

/-- R47: an access that gets ERR changes no state and a read returns data 0; the interrupt output is not affected. The
data of a write's response is left open. -/
def Obligations.ErrAccessChangesNothing : Prop :=
  ∀ (s : State) (acc : Access), s.accessErrs acc = true →
    ∃ d, s.access acc = { s with resp := some ⟨false, d⟩ } ∧ (∀ a n, acc = .read a n → d = 0#32) ∧
      (s.access acc).irq = s.irq

/-- R45: in IDLE, a write of n bytes to IBUF (OBUF) at index i puts data byte j into byte i + j and changes no other
byte and nothing else; an n-byte read there returns the n data bytes, byte 0 in bits [7:0], and changes nothing (R48).
-/
def Obligations.BufferAccessesAreLittleEndian : Prop :=
  ∀ (s : State) (i : Nat) (n : Width) (v : Word), s.params.Legal → s.phase = .idle → s.rst = false →
    i % n.bytes = 0 →
    (i + n.bytes ≤ s.params.nIbuf →
      ∃ t, s.access (.write (BitVec.ofNat 22 (0x100000 + i)) n v) = t ∧
        (∀ j, j < n.bytes → t.mem.ibuf.byte (i + j) = v.extractLsb' (8 * j) 8) ∧
        (∀ x, x < i ∨ i + n.bytes ≤ x → t.mem.ibuf.byte x = s.mem.ibuf.byte x) ∧
        t = { s with mem := { s.mem with ibuf := t.mem.ibuf }, resp := t.resp } ∧ t.GotOk ∧
        ∃ d : Word, s.access (.read (BitVec.ofNat 22 (0x100000 + i)) n) = { s with resp := some ⟨true, d⟩ } ∧
          d.toNat < 2 ^ (8 * n.bytes) ∧ ∀ j, j < n.bytes → d.extractLsb' (8 * j) 8 = s.mem.ibuf.byte (i + j)) ∧
    (i + n.bytes ≤ s.params.nObuf →
      ∃ t, s.access (.write (BitVec.ofNat 22 (0x200000 + i)) n v) = t ∧
        (∀ j, j < n.bytes → t.mem.obuf.byte (i + j) = v.extractLsb' (8 * j) 8) ∧
        (∀ x, x < i ∨ i + n.bytes ≤ x → t.mem.obuf.byte x = s.mem.obuf.byte x) ∧
        t = { s with mem := { s.mem with obuf := t.mem.obuf }, resp := t.resp } ∧ t.GotOk ∧
        ∃ d : Word, s.access (.read (BitVec.ofNat 22 (0x200000 + i)) n) = { s with resp := some ⟨true, d⟩ } ∧
          d.toNat < 2 ^ (8 * n.bytes) ∧ ∀ j, j < n.bytes → d.extractLsb' (8 * j) 8 = s.mem.obuf.byte (i + j))

/-- R49: in IDLE, FREQ[b] is the word at 0x001000 + 4b; a write stores any value as written, and the other entries
keep; a read returns it and changes nothing (R48). -/
def Obligations.FreqWindowIsReadWrite : Prop :=
  ∀ (s : State) (b : Nat) (v : Word), s.MemInv → s.phase = .idle → s.rst = false → b < 256 →
    ∃ t, s.access (.write (BitVec.ofNat 22 (0x1000 + 4 * b)) .word v) = t ∧
      (∀ x, t.mem.freqAt x = if x = b then v else s.mem.freqAt x) ∧
      t = { s with mem := { s.mem with freq := t.mem.freq }, resp := t.resp } ∧ t.GotOk ∧
      t.access (.read (BitVec.ofNat 22 (0x1000 + 4 * b)) .word) = { t with resp := some ⟨true, v⟩ }

/-- R50: the four words of NODE[h], reads only: a write there, IDLE or BUSY, gets OK, changes nothing and does not set
OVR; a read in IDLE changes nothing (R48); the offsets 0x003FF0 .. 0x003FFF are unmapped. -/
def Obligations.NodeWindowIsReadOnly : Prop :=
  ∀ (s : State) (h k : Nat) (v : Word), s.rst = false → h < 511 → k < 4 →
    (∃ d, s.access (.write (BitVec.ofNat 22 (0x2000 + 16 * h + 4 * k)) .word v) = { s with resp := some ⟨true, d⟩ }) ∧
    (s.phase = .idle → ∃ d, s.access (.read (BitVec.ofNat 22 (0x2000 + 16 * h + 4 * k)) .word) =
        { s with resp := some ⟨true, d⟩ } ∧
      (k = 0 → d.toNat = (s.mem.nodeAt h).weight.toNat % 2 ^ 32) ∧
      (k = 1 → d.toNat = (s.mem.nodeAt h).weight.toNat / 2 ^ 32) ∧
      (k = 2 → d.toNat = (s.mem.nodeAt h).kind.code.toNat + 256 * (s.mem.nodeAt h).sym.toNat) ∧
      (k = 3 → d.toNat = (s.mem.nodeAt h).left.toNat + 65536 * (s.mem.nodeAt h).right.toNat)) ∧
    s.access (.read (BitVec.ofNat 22 (0x3FF0 + 4 * k)) .word) = { s with resp := some ⟨false, 0#32⟩ }

/-- R51: in IDLE, the LEN word of CB[b] stores bits [7:0]; bit 31 − j of CODE word k stores CODE[32k + j]; the
reserved words ignore writes; every other code element and every other entry keeps; a read changes nothing (R48). -/
def Obligations.CbWindowLayout : Prop :=
  ∀ (s : State) (b k : Nat) (v : Word), s.MemInv → s.phase = .idle → s.rst = false → b < 256 → k < 16 →
    ∃ t, s.access (.write (BitVec.ofNat 22 (0x4000 + 64 * b + 4 * k)) .word v) = t ∧
      (t.mem.cbAt b).len = (if k = 0 then v.extractLsb' 0 8 else (s.mem.cbAt b).len) ∧
      (∀ i, i < 256 → (t.mem.cbAt b).code.getMsbD i =
        if 1 ≤ k ∧ k ≤ 8 ∧ i / 32 = k - 1 then v.getLsbD (31 - i % 32) else (s.mem.cbAt b).code.getMsbD i) ∧
      (∀ x, x ≠ b → t.mem.cbAt x = s.mem.cbAt x) ∧
      t = { s with mem := { s.mem with cb := t.mem.cb }, resp := t.resp } ∧ t.GotOk ∧
      t.access (.read (BitVec.ofNat 22 (0x4000 + 64 * b + 4 * k)) .word) =
        { t with resp := some ⟨true, if k = 0 then v &&& 0xFF#32 else if k ≤ 8 then v else 0#32⟩ }

/-- R53: while BUSY a mapped write to CMD, IN_LEN, PAD_IN or anywhere in FREQ, CB, IBUF or OBUF gets OK, changes
nothing it addresses and sets OVR; writes to STATUS and IRQ_EN are performed as when IDLE (DONE and ERR, 0 then, stay:
R19); writes to read-only registers and NODE are ignored and do not set OVR. -/
def Obligations.BusyWritesAreDropped : Prop :=
  ∀ (s : State) (a : Offset) (n : Width) (v : Word), s.params.Legal → s.phase = .busy → s.rst = false →
    s.accessErrs (.write a n v) = false →
    ∃ d : Word, s.access (.write a n v) =
      if a.toNat = 0x010 then { s with ovr := s.ovr && !v.getLsbD 2, resp := some ⟨true, d⟩ }
      else if a.toNat = 0x014 then { s with ie := v.getLsbD 0, resp := some ⟨true, d⟩ }
      else if a.toNat = 0x00C ∨ a.toNat = 0x018 ∨ a.toNat = 0x01C ∨
          (0x1000 ≤ a.toNat ∧ a.toNat < 0x1400) ∨ 0x4000 ≤ a.toNat then
        { s with ovr := true, resp := some ⟨true, d⟩ }
      else { s with resp := some ⟨true, d⟩ }

/-- R54: while BUSY, a register read returns its current value (STATUS with BUSY = 1, DONE = 0, ERR = 0 and the
current OVR) and changes nothing; a window read returns a free draw with the bits at or above 8n zero and changes no
state of the HCC (only the model's draw counter, DESIGN CHOICE, log entry 4). -/
def Obligations.BusyReads : Prop :=
  ∀ (s : State) (a : Offset) (n : Width), s.params.Legal → s.StatusInv → s.phase = .busy →
    s.accessErrs (.read a n) = false →
    (a.toNat < 0x40 → ∃ r, Reg.at? a.toNat = some r ∧
      s.access (.read a n) = { s with resp := some ⟨true, s.regValue r⟩ }) ∧
    (s.regValue .status = if s.ovr then 0x00000005#32 else 0x00000001#32) ∧
    (0x1000 ≤ a.toNat → ∃ d : Word,
      s.access (.read a n) = { s with resp := some ⟨true, d⟩, draws := s.draws + 1 } ∧
      d = Config.freeWord s.draws &&& BitVec.ofNat 32 (2 ^ (8 * n.bytes) - 1))

/-- R15 to R31: what a read of each register returns, every reserved bit 0, and that a read in IDLE changes nothing. -/
def Obligations.RegisterReads : Prop :=
  ∀ s : State, s.phase = .idle → s.rst = false → ∀ r : Reg, ∃ d,
    s.access (.read (BitVec.ofNat 22 r.offset) .word) = { s with resp := some ⟨true, d⟩ } ∧
    d.toNat = match r with
      | .id => 0x48434337
      | .ibufSize => s.params.nIbuf % 2 ^ 32
      | .obufSize => s.params.nObuf % 2 ^ 32
      | .cmd => s.cmd.toNat
      | .status => 2 * s.done.toNat + 4 * s.ovr.toNat + 16 * s.err.code.toNat
      | .irqEn => s.ie.toNat
      | .inLen => s.inLen.toNat
      | .padIn => s.padIn.toNat
      | .outLen => s.outLen.toNat
      | .padOut => s.padOut.toNat
      | .nbits => s.nbits.toNat
      | .nleaf => s.nleaf.toNat
      | .nnode => s.nnode.toNat
      | .root => s.root.toNat
      | .errPos => s.errPos.toNat
      | .errSym => s.errSym.toNat

/-- R18, R20, R21, R22, R31, R69: what a write to each register does in IDLE. A CMD write starts a command (the
model's latency aside, DESIGN CHOICE, log entry 5); IRQ_EN, IN_LEN and PAD_IN store their fields; read-only
registers ignore writes. -/
def Obligations.RegisterWrites : Prop :=
  ∀ (s : State) (r : Reg) (v : Word), s.phase = .idle → s.rst = false →
    ∃ t, s.access (.write (BitVec.ofNat 22 r.offset) .word v) = t ∧ t.GotOk ∧
    match r with
      | .cmd => t = { s with cmd := v, done := false, err := .ok, phase := .busy,
                             latency := t.latency, latencies := t.latencies, resp := t.resp }
      | .irqEn => t = { s with ie := v.getLsbD 0, resp := t.resp }
      | .inLen => t = { s with inLen := v, resp := t.resp }
      | .padIn => t = { s with padIn := v.extractLsb' 0 3, resp := t.resp }
      | .status => t = { s with done := s.done && !v.getLsbD 1, err := if v.getLsbD 1 then .ok else s.err,
                                ovr := s.ovr && !v.getLsbD 2, resp := t.resp }
      | .id | .ibufSize | .obufSize | .outLen | .padOut | .nbits | .nleaf | .nnode | .root | .errPos | .errSym =>
        t = { s with resp := t.resp }

/-- R70, R53: while a command runs, no host operation but the assertion of RST changes CMD, what the command reads
(IN_LEN, PAD_IN, the memories, NNODE, ROOT) or any result register, and none ends the command. R70 is an inference the
spec draws from R53. -/
def Obligations.CommandInputsAreFixedWhileBusy : Prop :=
  ∀ s t : State, s.phase = .busy → s.rst = false → s.engineTurn = false → step s = .next t →
    s.inputs.head? ≠ some (.rst true) →
    t.phase = .busy ∧ t.rst = false ∧ t.params = s.params ∧ t.cmd = s.cmd ∧ t.inLen = s.inLen ∧ t.padIn = s.padIn ∧
    t.mem = s.mem ∧ t.nleaf = s.nleaf ∧ t.nnode = s.nnode ∧ t.root = s.root ∧ t.outLen = s.outLen ∧
    t.padOut = s.padOut ∧ t.nbits = s.nbits ∧ t.errPos = s.errPos ∧ t.errSym = s.errSym

/-- R124: STATUS.OVR is cleared only by a host write of 1 to STATUS.OVR (or by reset, R131). -/
def Obligations.OvrIsSticky : Prop :=
  ∀ s t : State, step s = .next t → s.ovr = true → t.ovr = false →
    s.engineTurn = false ∧ ∃ i rest, s.inputs = i :: rest ∧
      (i = .rst true ∨ ∃ v, i = .access (.write 0x000010#22 .word v) ∧ v.getLsbD 2 = true ∧ s.rst = false)

/-- R68: run in IDLE, the script of CODE b, "s" gives byte value b the code s and no other byte value another code. -/
def Obligations.CodeScriptLoadsTheCode : Prop :=
  ∀ (s : State) (b : Nat) (c : Bits), s.MemInv → s.phase = .idle → s.rst = false → b < 256 → 1 ≤ c.length →
    c.length ≤ 255 → s.inputs = Script.code b c →
    ∃ t, Host.Core.run Sys2Proof.core (Script.code b c).length s = .next t ∧ t.inputs = [] ∧ t.phase = .idle ∧
      t.mem.codeOf b = some c ∧ ∀ x, x ≠ b → t.mem.codeOf x = s.mem.codeOf x

/-- R66: the metadata the driver emits for CB and PAD_OUT is one the HCC can hold, and parsing it gives every byte
value's code and the pad count back. -/
def Obligations.MetadataDescribesTheCodebook : Prop :=
  ∀ s : State, s.metadata.parse =
    .ok ((List.range 256).filterMap fun b => (s.mem.codeOf b).map fun c => (b, c), s.padOut.zeroExtend 32)

/-! ### Interrupt and reset -/

/-- R126: IRQ is IE AND DONE; so it is high after every completion while IE = 1, and low after ACK, a command start or a
write of 0 to IE. -/
def Obligations.IrqFollowsIeAndDone : Prop :=
  (∀ s : State, s.rst = false → s.irq = (s.ie && s.done)) ∧
  (∀ (i : Instr) (s t : State), exec i s = .next t → s.rst = false → t.irq = s.ie) ∧
  (∀ (s : State) (v : Word), s.phase = .idle → s.rst = false →
    (s.access (.write 0x00000C#22 .word v)).irq = false ∧
    (v.getLsbD 1 = true → (s.access (.write 0x000010#22 .word v)).irq = false) ∧
    (v.getLsbD 0 = false → (s.access (.write 0x000014#22 .word v)).irq = false))

/-- R131, R39: asserting RST abandons a running command, takes every register and table to its reset value and leaves
IRQ low; while it is asserted every access gets ERR, changes nothing, and no command completes; releasing it changes
nothing else. IBUF and OBUF are fresh free draws (DESIGN CHOICE and DEDUCED, log entries 2 and 9). -/
def Obligations.ResetTakesEveryRegister : Prop :=
  ∀ s : State,
    (∃ t, s.setRst true = t ∧ t.rst = true ∧ t.irq = false ∧ t.phase = .idle ∧ t.params = s.params ∧ t.cmd = 0#32 ∧
      t.statusWord = 0#32 ∧ t.ie = false ∧ t.inLen = 0#32 ∧ t.padIn = 0#3 ∧ t.outLen = 0#32 ∧ t.padOut = 0#3 ∧
      t.nbits = 0#32 ∧ t.nleaf = 0#9 ∧ t.nnode = 0#10 ∧ t.root = 0x1FF#9 ∧ t.errPos = 0#32 ∧ t.errSym = 0#16 ∧
      (∀ b, t.mem.freqAt b = 0#32) ∧ (∀ h, t.mem.nodeAt h = Node.empty) ∧ (∀ b, t.mem.cbAt b = ⟨0#8, 0#256⟩) ∧
      (∀ i, t.mem.ibuf.byte i = Config.freeByte s.draws i ∧ t.mem.obuf.byte i = Config.freeByte (s.draws + 1) i)) ∧
    (s.rst = true → s.irq = false ∧ s.engineTurn = false ∧
      ∀ acc, ∃ d, s.access acc = { s with resp := some ⟨false, d⟩ }) ∧
    s.setRst false = { s with rst := false }

/-! ### Invariants -/

/-- R39: what the sixteen registers, the tables and the interrupt read in the reset state (with the reference
parameters, DESIGN CHOICE, log entry 1); and the reset state meets the invariants below. -/
def Obligations.ResetStateHoldsTheResetValues : Prop :=
  (∀ r : Reg, State.reset.regValue r =
    if r = .id then 0x48434337#32 else if r = .ibufSize ∨ r = .obufSize then 0x00010000#32
    else if r = .root then 0x000001FF#32 else 0x00000000#32) ∧
  State.reset.phase = .idle ∧ State.reset.irq = false ∧ (∀ b, State.reset.mem.freqAt b = 0#32) ∧
  (∀ h, State.reset.mem.nodeAt h = Node.empty) ∧ (∀ b, State.reset.mem.cbAt b = ⟨0#8, 0#256⟩) ∧
  State.reset.StatusInv ∧ State.reset.MemInv ∧ State.reset.OutputInv ∧ State.reset.TreeInv

/-- R19: "BUSY = 1 implies DONE = 0 and ERR = 0" is kept by every step, as is that an error code stands only beside
DONE. The quoted sentence is an inference the spec draws from R69 and R72. -/
def Obligations.StepKeepsStatusConsistent : Prop :=
  ∀ s t : State, s.StatusInv → step s = .next t → t.StatusInv

/-- Every step keeps the five memories in canonical form inside their ranges (R32 to R36, R59). -/
def Obligations.StepKeepsMemoryCanonical : Prop :=
  ∀ s t : State, s.MemInv → step s = .next t → t.MemInv

/-- Every step keeps OUT_LEN, PAD_OUT and NBITS describing OBUF (R23, R24, R25, R100). -/
def Obligations.StepKeepsResultRegistersTrue : Prop :=
  ∀ s t : State, s.MemInv → s.OutputInv → step s = .next t → t.OutputInv

/-- Every step keeps NODE, NLEAF, NNODE and ROOT in the shape of R87, with the leaves of R82, the phantom of R86, the
selections of R83 and R84 and the weights of R88, or empty as after reset. It is how the model says R35: "the arena
always holds a tree BUILD made, or the reset contents". R87 and R88 are inferences the spec draws from R81. -/
def Obligations.StepKeepsTheTree : Prop :=
  ∀ s t : State, s.TreeInv → step s = .next t → t.TreeInv
end

