-- ==== Sys2Proof/Laws/State.lean ====
section
/-! SUPPORT. The fields of State after each named update, true by rfl, so that no proof unfolds a record update. -/

namespace Sys2Proof.Machine

@[simp] theorem State.clearDone_params (s : State) : s.clearDone.params = s.params := rfl
@[simp] theorem State.clearDone_phase (s : State) : s.clearDone.phase = s.phase := rfl
@[simp] theorem State.clearDone_cmd (s : State) : s.clearDone.cmd = s.cmd := rfl
@[simp] theorem State.clearDone_done (s : State) : s.clearDone.done = false := rfl
@[simp] theorem State.clearDone_ovr (s : State) : s.clearDone.ovr = s.ovr := rfl
@[simp] theorem State.clearDone_err (s : State) : s.clearDone.err = .ok := rfl
@[simp] theorem State.clearDone_ie (s : State) : s.clearDone.ie = s.ie := rfl
@[simp] theorem State.clearDone_inLen (s : State) : s.clearDone.inLen = s.inLen := rfl
@[simp] theorem State.clearDone_padIn (s : State) : s.clearDone.padIn = s.padIn := rfl
@[simp] theorem State.clearDone_outLen (s : State) : s.clearDone.outLen = s.outLen := rfl
@[simp] theorem State.clearDone_padOut (s : State) : s.clearDone.padOut = s.padOut := rfl
@[simp] theorem State.clearDone_nbits (s : State) : s.clearDone.nbits = s.nbits := rfl
@[simp] theorem State.clearDone_nleaf (s : State) : s.clearDone.nleaf = s.nleaf := rfl
@[simp] theorem State.clearDone_nnode (s : State) : s.clearDone.nnode = s.nnode := rfl
@[simp] theorem State.clearDone_root (s : State) : s.clearDone.root = s.root := rfl
@[simp] theorem State.clearDone_errPos (s : State) : s.clearDone.errPos = s.errPos := rfl
@[simp] theorem State.clearDone_errSym (s : State) : s.clearDone.errSym = s.errSym := rfl
@[simp] theorem State.clearDone_mem (s : State) : s.clearDone.mem = s.mem := rfl
@[simp] theorem State.clearDone_rst (s : State) : s.clearDone.rst = s.rst := rfl
@[simp] theorem State.clearDone_resp (s : State) : s.clearDone.resp = s.resp := rfl
@[simp] theorem State.clearDone_inputs (s : State) : s.clearDone.inputs = s.inputs := rfl
@[simp] theorem State.clearDone_latency (s : State) : s.clearDone.latency = s.latency := rfl
@[simp] theorem State.clearDone_latencies (s : State) : s.clearDone.latencies = s.latencies := rfl
@[simp] theorem State.clearDone_draws (s : State) : s.clearDone.draws = s.draws := rfl

@[simp] theorem State.setOvr_params (s : State) : s.setOvr.params = s.params := rfl
@[simp] theorem State.setOvr_phase (s : State) : s.setOvr.phase = s.phase := rfl
@[simp] theorem State.setOvr_cmd (s : State) : s.setOvr.cmd = s.cmd := rfl
@[simp] theorem State.setOvr_done (s : State) : s.setOvr.done = s.done := rfl
@[simp] theorem State.setOvr_ovr (s : State) : s.setOvr.ovr = true := rfl
@[simp] theorem State.setOvr_err (s : State) : s.setOvr.err = s.err := rfl
@[simp] theorem State.setOvr_ie (s : State) : s.setOvr.ie = s.ie := rfl
@[simp] theorem State.setOvr_inLen (s : State) : s.setOvr.inLen = s.inLen := rfl
@[simp] theorem State.setOvr_padIn (s : State) : s.setOvr.padIn = s.padIn := rfl
@[simp] theorem State.setOvr_outLen (s : State) : s.setOvr.outLen = s.outLen := rfl
@[simp] theorem State.setOvr_padOut (s : State) : s.setOvr.padOut = s.padOut := rfl
@[simp] theorem State.setOvr_nbits (s : State) : s.setOvr.nbits = s.nbits := rfl
@[simp] theorem State.setOvr_nleaf (s : State) : s.setOvr.nleaf = s.nleaf := rfl
@[simp] theorem State.setOvr_nnode (s : State) : s.setOvr.nnode = s.nnode := rfl
@[simp] theorem State.setOvr_root (s : State) : s.setOvr.root = s.root := rfl
@[simp] theorem State.setOvr_errPos (s : State) : s.setOvr.errPos = s.errPos := rfl
@[simp] theorem State.setOvr_errSym (s : State) : s.setOvr.errSym = s.errSym := rfl
@[simp] theorem State.setOvr_mem (s : State) : s.setOvr.mem = s.mem := rfl
@[simp] theorem State.setOvr_rst (s : State) : s.setOvr.rst = s.rst := rfl
@[simp] theorem State.setOvr_resp (s : State) : s.setOvr.resp = s.resp := rfl
@[simp] theorem State.setOvr_inputs (s : State) : s.setOvr.inputs = s.inputs := rfl
@[simp] theorem State.setOvr_latency (s : State) : s.setOvr.latency = s.latency := rfl
@[simp] theorem State.setOvr_latencies (s : State) : s.setOvr.latencies = s.latencies := rfl
@[simp] theorem State.setOvr_draws (s : State) : s.setOvr.draws = s.draws := rfl

@[simp] theorem State.doneWith_params (e : ErrCode) (s : State) : (s.doneWith e).params = s.params := rfl
@[simp] theorem State.doneWith_phase (e : ErrCode) (s : State) : (s.doneWith e).phase = .idle := rfl
@[simp] theorem State.doneWith_cmd (e : ErrCode) (s : State) : (s.doneWith e).cmd = s.cmd := rfl
@[simp] theorem State.doneWith_done (e : ErrCode) (s : State) : (s.doneWith e).done = true := rfl
@[simp] theorem State.doneWith_ovr (e : ErrCode) (s : State) : (s.doneWith e).ovr = s.ovr := rfl
@[simp] theorem State.doneWith_err (e : ErrCode) (s : State) : (s.doneWith e).err = e := rfl
@[simp] theorem State.doneWith_ie (e : ErrCode) (s : State) : (s.doneWith e).ie = s.ie := rfl
@[simp] theorem State.doneWith_inLen (e : ErrCode) (s : State) : (s.doneWith e).inLen = s.inLen := rfl
@[simp] theorem State.doneWith_padIn (e : ErrCode) (s : State) : (s.doneWith e).padIn = s.padIn := rfl
@[simp] theorem State.doneWith_outLen (e : ErrCode) (s : State) : (s.doneWith e).outLen = s.outLen := rfl
@[simp] theorem State.doneWith_padOut (e : ErrCode) (s : State) : (s.doneWith e).padOut = s.padOut := rfl
@[simp] theorem State.doneWith_nbits (e : ErrCode) (s : State) : (s.doneWith e).nbits = s.nbits := rfl
@[simp] theorem State.doneWith_nleaf (e : ErrCode) (s : State) : (s.doneWith e).nleaf = s.nleaf := rfl
@[simp] theorem State.doneWith_nnode (e : ErrCode) (s : State) : (s.doneWith e).nnode = s.nnode := rfl
@[simp] theorem State.doneWith_root (e : ErrCode) (s : State) : (s.doneWith e).root = s.root := rfl
@[simp] theorem State.doneWith_errPos (e : ErrCode) (s : State) : (s.doneWith e).errPos = s.errPos := rfl
@[simp] theorem State.doneWith_errSym (e : ErrCode) (s : State) : (s.doneWith e).errSym = s.errSym := rfl
@[simp] theorem State.doneWith_mem (e : ErrCode) (s : State) : (s.doneWith e).mem = s.mem := rfl
@[simp] theorem State.doneWith_rst (e : ErrCode) (s : State) : (s.doneWith e).rst = s.rst := rfl
@[simp] theorem State.doneWith_resp (e : ErrCode) (s : State) : (s.doneWith e).resp = s.resp := rfl
@[simp] theorem State.doneWith_inputs (e : ErrCode) (s : State) : (s.doneWith e).inputs = s.inputs := rfl
@[simp] theorem State.doneWith_latency (e : ErrCode) (s : State) : (s.doneWith e).latency = s.latency := rfl
@[simp] theorem State.doneWith_latencies (e : ErrCode) (s : State) : (s.doneWith e).latencies = s.latencies := rfl
@[simp] theorem State.doneWith_draws (e : ErrCode) (s : State) : (s.doneWith e).draws = s.draws := rfl

@[simp] theorem State.completeOk_params (s : State) : s.completeOk.params = s.params := rfl
@[simp] theorem State.completeOk_phase (s : State) : s.completeOk.phase = .idle := rfl
@[simp] theorem State.completeOk_cmd (s : State) : s.completeOk.cmd = s.cmd := rfl
@[simp] theorem State.completeOk_done (s : State) : s.completeOk.done = true := rfl
@[simp] theorem State.completeOk_ovr (s : State) : s.completeOk.ovr = s.ovr := rfl
@[simp] theorem State.completeOk_err (s : State) : s.completeOk.err = .ok := rfl
@[simp] theorem State.completeOk_ie (s : State) : s.completeOk.ie = s.ie := rfl
@[simp] theorem State.completeOk_inLen (s : State) : s.completeOk.inLen = s.inLen := rfl
@[simp] theorem State.completeOk_padIn (s : State) : s.completeOk.padIn = s.padIn := rfl
@[simp] theorem State.completeOk_outLen (s : State) : s.completeOk.outLen = s.outLen := rfl
@[simp] theorem State.completeOk_padOut (s : State) : s.completeOk.padOut = s.padOut := rfl
@[simp] theorem State.completeOk_nbits (s : State) : s.completeOk.nbits = s.nbits := rfl
@[simp] theorem State.completeOk_nleaf (s : State) : s.completeOk.nleaf = s.nleaf := rfl
@[simp] theorem State.completeOk_nnode (s : State) : s.completeOk.nnode = s.nnode := rfl
@[simp] theorem State.completeOk_root (s : State) : s.completeOk.root = s.root := rfl
@[simp] theorem State.completeOk_errPos (s : State) : s.completeOk.errPos = 0 := rfl
@[simp] theorem State.completeOk_errSym (s : State) : s.completeOk.errSym = 0 := rfl
@[simp] theorem State.completeOk_mem (s : State) : s.completeOk.mem = s.mem := rfl
@[simp] theorem State.completeOk_rst (s : State) : s.completeOk.rst = s.rst := rfl
@[simp] theorem State.completeOk_resp (s : State) : s.completeOk.resp = s.resp := rfl
@[simp] theorem State.completeOk_inputs (s : State) : s.completeOk.inputs = s.inputs := rfl
@[simp] theorem State.completeOk_latency (s : State) : s.completeOk.latency = s.latency := rfl
@[simp] theorem State.completeOk_latencies (s : State) : s.completeOk.latencies = s.latencies := rfl
@[simp] theorem State.completeOk_draws (s : State) : s.completeOk.draws = s.draws := rfl

@[simp] theorem State.takeError_params (f : Failure) (s : State) : (s.takeError f).params = s.params := rfl
@[simp] theorem State.takeError_phase (f : Failure) (s : State) : (s.takeError f).phase = .idle := rfl
@[simp] theorem State.takeError_cmd (f : Failure) (s : State) : (s.takeError f).cmd = s.cmd := rfl
@[simp] theorem State.takeError_done (f : Failure) (s : State) : (s.takeError f).done = true := rfl
@[simp] theorem State.takeError_ovr (f : Failure) (s : State) : (s.takeError f).ovr = s.ovr := rfl
@[simp] theorem State.takeError_err (f : Failure) (s : State) : (s.takeError f).err = f.code := rfl
@[simp] theorem State.takeError_ie (f : Failure) (s : State) : (s.takeError f).ie = s.ie := rfl
@[simp] theorem State.takeError_inLen (f : Failure) (s : State) : (s.takeError f).inLen = s.inLen := rfl
@[simp] theorem State.takeError_padIn (f : Failure) (s : State) : (s.takeError f).padIn = s.padIn := rfl
@[simp] theorem State.takeError_outLen (f : Failure) (s : State) : (s.takeError f).outLen = s.outLen := rfl
@[simp] theorem State.takeError_padOut (f : Failure) (s : State) : (s.takeError f).padOut = s.padOut := rfl
@[simp] theorem State.takeError_nbits (f : Failure) (s : State) : (s.takeError f).nbits = s.nbits := rfl
@[simp] theorem State.takeError_nleaf (f : Failure) (s : State) : (s.takeError f).nleaf = s.nleaf := rfl
@[simp] theorem State.takeError_nnode (f : Failure) (s : State) : (s.takeError f).nnode = s.nnode := rfl
@[simp] theorem State.takeError_root (f : Failure) (s : State) : (s.takeError f).root = s.root := rfl
@[simp] theorem State.takeError_errPos (f : Failure) (s : State) : (s.takeError f).errPos = BitVec.ofNat 32 f.pos :=
    rfl
@[simp] theorem State.takeError_errSym (f : Failure) (s : State) : (s.takeError f).errSym = f.sym := rfl
@[simp] theorem State.takeError_mem (f : Failure) (s : State) : (s.takeError f).mem = s.mem := rfl
@[simp] theorem State.takeError_rst (f : Failure) (s : State) : (s.takeError f).rst = s.rst := rfl
@[simp] theorem State.takeError_resp (f : Failure) (s : State) : (s.takeError f).resp = s.resp := rfl
@[simp] theorem State.takeError_inputs (f : Failure) (s : State) : (s.takeError f).inputs = s.inputs := rfl
@[simp] theorem State.takeError_latency (f : Failure) (s : State) : (s.takeError f).latency = s.latency := rfl
@[simp] theorem State.takeError_latencies (f : Failure) (s : State) : (s.takeError f).latencies = s.latencies := rfl
@[simp] theorem State.takeError_draws (f : Failure) (s : State) : (s.takeError f).draws = s.draws := rfl

@[simp] theorem State.dropOutput_params (s : State) : s.dropOutput.params = s.params := rfl
@[simp] theorem State.dropOutput_phase (s : State) : s.dropOutput.phase = s.phase := rfl
@[simp] theorem State.dropOutput_cmd (s : State) : s.dropOutput.cmd = s.cmd := rfl
@[simp] theorem State.dropOutput_done (s : State) : s.dropOutput.done = s.done := rfl
@[simp] theorem State.dropOutput_ovr (s : State) : s.dropOutput.ovr = s.ovr := rfl
@[simp] theorem State.dropOutput_err (s : State) : s.dropOutput.err = s.err := rfl
@[simp] theorem State.dropOutput_ie (s : State) : s.dropOutput.ie = s.ie := rfl
@[simp] theorem State.dropOutput_inLen (s : State) : s.dropOutput.inLen = s.inLen := rfl
@[simp] theorem State.dropOutput_padIn (s : State) : s.dropOutput.padIn = s.padIn := rfl
@[simp] theorem State.dropOutput_outLen (s : State) : s.dropOutput.outLen = 0 := rfl
@[simp] theorem State.dropOutput_padOut (s : State) : s.dropOutput.padOut = 0 := rfl
@[simp] theorem State.dropOutput_nbits (s : State) : s.dropOutput.nbits = 0 := rfl
@[simp] theorem State.dropOutput_nleaf (s : State) : s.dropOutput.nleaf = s.nleaf := rfl
@[simp] theorem State.dropOutput_nnode (s : State) : s.dropOutput.nnode = s.nnode := rfl
@[simp] theorem State.dropOutput_root (s : State) : s.dropOutput.root = s.root := rfl
@[simp] theorem State.dropOutput_errPos (s : State) : s.dropOutput.errPos = s.errPos := rfl
@[simp] theorem State.dropOutput_errSym (s : State) : s.dropOutput.errSym = s.errSym := rfl
@[simp] theorem State.dropOutput_mem (s : State) : s.dropOutput.mem = { s.mem with obuf := Buffer.unspecified s.draws } :=
    rfl
@[simp] theorem State.dropOutput_rst (s : State) : s.dropOutput.rst = s.rst := rfl
@[simp] theorem State.dropOutput_resp (s : State) : s.dropOutput.resp = s.resp := rfl
@[simp] theorem State.dropOutput_inputs (s : State) : s.dropOutput.inputs = s.inputs := rfl
@[simp] theorem State.dropOutput_latency (s : State) : s.dropOutput.latency = s.latency := rfl
@[simp] theorem State.dropOutput_latencies (s : State) : s.dropOutput.latencies = s.latencies := rfl
@[simp] theorem State.dropOutput_draws (s : State) : s.dropOutput.draws = s.draws + 1 := rfl

@[simp] theorem State.writeOutput_params (out : List Byte) (pad : BitVec 3) (n : Nat) (s : State) : (s.writeOutput out pad n).params = s.params :=
    rfl
@[simp] theorem State.writeOutput_phase (out : List Byte) (pad : BitVec 3) (n : Nat) (s : State) : (s.writeOutput out pad n).phase = s.phase :=
    rfl
@[simp] theorem State.writeOutput_cmd (out : List Byte) (pad : BitVec 3) (n : Nat) (s : State) : (s.writeOutput out pad n).cmd = s.cmd :=
    rfl
@[simp] theorem State.writeOutput_done (out : List Byte) (pad : BitVec 3) (n : Nat) (s : State) : (s.writeOutput out pad n).done = s.done :=
    rfl
@[simp] theorem State.writeOutput_ovr (out : List Byte) (pad : BitVec 3) (n : Nat) (s : State) : (s.writeOutput out pad n).ovr = s.ovr :=
    rfl
@[simp] theorem State.writeOutput_err (out : List Byte) (pad : BitVec 3) (n : Nat) (s : State) : (s.writeOutput out pad n).err = s.err :=
    rfl
@[simp] theorem State.writeOutput_ie (out : List Byte) (pad : BitVec 3) (n : Nat) (s : State) : (s.writeOutput out pad n).ie = s.ie :=
    rfl
@[simp] theorem State.writeOutput_inLen (out : List Byte) (pad : BitVec 3) (n : Nat) (s : State) : (s.writeOutput out pad n).inLen = s.inLen :=
    rfl
@[simp] theorem State.writeOutput_padIn (out : List Byte) (pad : BitVec 3) (n : Nat) (s : State) : (s.writeOutput out pad n).padIn = s.padIn :=
    rfl
@[simp] theorem State.writeOutput_outLen (out : List Byte) (pad : BitVec 3) (n : Nat) (s : State) : (s.writeOutput out pad n).outLen = BitVec.ofNat 32 out.length :=
    rfl
@[simp] theorem State.writeOutput_padOut (out : List Byte) (pad : BitVec 3) (n : Nat) (s : State) : (s.writeOutput out pad n).padOut = pad :=
    rfl
@[simp] theorem State.writeOutput_nbits (out : List Byte) (pad : BitVec 3) (n : Nat) (s : State) : (s.writeOutput out pad n).nbits = BitVec.ofNat 32 n :=
    rfl
@[simp] theorem State.writeOutput_nleaf (out : List Byte) (pad : BitVec 3) (n : Nat) (s : State) : (s.writeOutput out pad n).nleaf = s.nleaf :=
    rfl
@[simp] theorem State.writeOutput_nnode (out : List Byte) (pad : BitVec 3) (n : Nat) (s : State) : (s.writeOutput out pad n).nnode = s.nnode :=
    rfl
@[simp] theorem State.writeOutput_root (out : List Byte) (pad : BitVec 3) (n : Nat) (s : State) : (s.writeOutput out pad n).root = s.root :=
    rfl
@[simp] theorem State.writeOutput_errPos (out : List Byte) (pad : BitVec 3) (n : Nat) (s : State) : (s.writeOutput out pad n).errPos = s.errPos :=
    rfl
@[simp] theorem State.writeOutput_errSym (out : List Byte) (pad : BitVec 3) (n : Nat) (s : State) : (s.writeOutput out pad n).errSym = s.errSym :=
    rfl
@[simp] theorem State.writeOutput_mem (out : List Byte) (pad : BitVec 3) (n : Nat) (s : State) : (s.writeOutput out pad n).mem = { s.mem with obuf := s.mem.obuf.store 0 out } :=
    rfl
@[simp] theorem State.writeOutput_rst (out : List Byte) (pad : BitVec 3) (n : Nat) (s : State) : (s.writeOutput out pad n).rst = s.rst :=
    rfl
@[simp] theorem State.writeOutput_resp (out : List Byte) (pad : BitVec 3) (n : Nat) (s : State) : (s.writeOutput out pad n).resp = s.resp :=
    rfl
@[simp] theorem State.writeOutput_inputs (out : List Byte) (pad : BitVec 3) (n : Nat) (s : State) : (s.writeOutput out pad n).inputs = s.inputs :=
    rfl
@[simp] theorem State.writeOutput_latency (out : List Byte) (pad : BitVec 3) (n : Nat) (s : State) : (s.writeOutput out pad n).latency = s.latency :=
    rfl
@[simp] theorem State.writeOutput_latencies (out : List Byte) (pad : BitVec 3) (n : Nat) (s : State) : (s.writeOutput out pad n).latencies = s.latencies :=
    rfl
@[simp] theorem State.writeOutput_draws (out : List Byte) (pad : BitVec 3) (n : Nat) (s : State) : (s.writeOutput out pad n).draws = s.draws :=
    rfl

@[simp] theorem State.startCommand_params (w : Word) (s : State) : (s.startCommand w).params = s.params := rfl
@[simp] theorem State.startCommand_phase (w : Word) (s : State) : (s.startCommand w).phase = .busy := rfl
@[simp] theorem State.startCommand_cmd (w : Word) (s : State) : (s.startCommand w).cmd = w := rfl
@[simp] theorem State.startCommand_done (w : Word) (s : State) : (s.startCommand w).done = false := rfl
@[simp] theorem State.startCommand_ovr (w : Word) (s : State) : (s.startCommand w).ovr = s.ovr := rfl
@[simp] theorem State.startCommand_err (w : Word) (s : State) : (s.startCommand w).err = .ok := rfl
@[simp] theorem State.startCommand_ie (w : Word) (s : State) : (s.startCommand w).ie = s.ie := rfl
@[simp] theorem State.startCommand_inLen (w : Word) (s : State) : (s.startCommand w).inLen = s.inLen := rfl
@[simp] theorem State.startCommand_padIn (w : Word) (s : State) : (s.startCommand w).padIn = s.padIn := rfl
@[simp] theorem State.startCommand_outLen (w : Word) (s : State) : (s.startCommand w).outLen = s.outLen := rfl
@[simp] theorem State.startCommand_padOut (w : Word) (s : State) : (s.startCommand w).padOut = s.padOut := rfl
@[simp] theorem State.startCommand_nbits (w : Word) (s : State) : (s.startCommand w).nbits = s.nbits := rfl
@[simp] theorem State.startCommand_nleaf (w : Word) (s : State) : (s.startCommand w).nleaf = s.nleaf := rfl
@[simp] theorem State.startCommand_nnode (w : Word) (s : State) : (s.startCommand w).nnode = s.nnode := rfl
@[simp] theorem State.startCommand_root (w : Word) (s : State) : (s.startCommand w).root = s.root := rfl
@[simp] theorem State.startCommand_errPos (w : Word) (s : State) : (s.startCommand w).errPos = s.errPos := rfl
@[simp] theorem State.startCommand_errSym (w : Word) (s : State) : (s.startCommand w).errSym = s.errSym := rfl
@[simp] theorem State.startCommand_mem (w : Word) (s : State) : (s.startCommand w).mem = s.mem := rfl
@[simp] theorem State.startCommand_rst (w : Word) (s : State) : (s.startCommand w).rst = s.rst := rfl
@[simp] theorem State.startCommand_resp (w : Word) (s : State) : (s.startCommand w).resp = s.resp := rfl
@[simp] theorem State.startCommand_inputs (w : Word) (s : State) : (s.startCommand w).inputs = s.inputs := rfl
@[simp] theorem State.startCommand_latency (w : Word) (s : State) : (s.startCommand w).latency = s.latencies.headD 0 :=
    rfl
@[simp] theorem State.startCommand_latencies (w : Word) (s : State) : (s.startCommand w).latencies = s.latencies.tail :=
    rfl
@[simp] theorem State.startCommand_draws (w : Word) (s : State) : (s.startCommand w).draws = s.draws := rfl

@[simp] theorem State.withFetchWord_params (s : State) (nbits w : Nat) : (s.withFetchWord nbits w).params = s.params :=
    rfl
@[simp] theorem State.withFetchWord_phase (s : State) (nbits w : Nat) : (s.withFetchWord nbits w).phase = .busy := rfl
@[simp] theorem State.withFetchWord_cmd (s : State) (nbits w : Nat) : (s.withFetchWord nbits w).cmd = BitVec.ofNat 32 (w % 2 ^ nbits) :=
    rfl
@[simp] theorem State.withFetchWord_done (s : State) (nbits w : Nat) : (s.withFetchWord nbits w).done = false := rfl
@[simp] theorem State.withFetchWord_ovr (s : State) (nbits w : Nat) : (s.withFetchWord nbits w).ovr = s.ovr := rfl
@[simp] theorem State.withFetchWord_err (s : State) (nbits w : Nat) : (s.withFetchWord nbits w).err = .ok := rfl
@[simp] theorem State.withFetchWord_ie (s : State) (nbits w : Nat) : (s.withFetchWord nbits w).ie = s.ie := rfl
@[simp] theorem State.withFetchWord_inLen (s : State) (nbits w : Nat) : (s.withFetchWord nbits w).inLen = s.inLen :=
    rfl
@[simp] theorem State.withFetchWord_padIn (s : State) (nbits w : Nat) : (s.withFetchWord nbits w).padIn = s.padIn :=
    rfl
@[simp] theorem State.withFetchWord_outLen (s : State) (nbits w : Nat) : (s.withFetchWord nbits w).outLen = s.outLen :=
    rfl
@[simp] theorem State.withFetchWord_padOut (s : State) (nbits w : Nat) : (s.withFetchWord nbits w).padOut = s.padOut :=
    rfl
@[simp] theorem State.withFetchWord_nbits (s : State) (nbits w : Nat) : (s.withFetchWord nbits w).nbits = s.nbits :=
    rfl
@[simp] theorem State.withFetchWord_nleaf (s : State) (nbits w : Nat) : (s.withFetchWord nbits w).nleaf = s.nleaf :=
    rfl
@[simp] theorem State.withFetchWord_nnode (s : State) (nbits w : Nat) : (s.withFetchWord nbits w).nnode = s.nnode :=
    rfl
@[simp] theorem State.withFetchWord_root (s : State) (nbits w : Nat) : (s.withFetchWord nbits w).root = s.root := rfl
@[simp] theorem State.withFetchWord_errPos (s : State) (nbits w : Nat) : (s.withFetchWord nbits w).errPos = s.errPos :=
    rfl
@[simp] theorem State.withFetchWord_errSym (s : State) (nbits w : Nat) : (s.withFetchWord nbits w).errSym = s.errSym :=
    rfl
@[simp] theorem State.withFetchWord_mem (s : State) (nbits w : Nat) : (s.withFetchWord nbits w).mem = s.mem := rfl
@[simp] theorem State.withFetchWord_rst (s : State) (nbits w : Nat) : (s.withFetchWord nbits w).rst = false := rfl
@[simp] theorem State.withFetchWord_resp (s : State) (nbits w : Nat) : (s.withFetchWord nbits w).resp = s.resp := rfl
@[simp] theorem State.withFetchWord_inputs (s : State) (nbits w : Nat) : (s.withFetchWord nbits w).inputs = s.inputs :=
    rfl
@[simp] theorem State.withFetchWord_latency (s : State) (nbits w : Nat) : (s.withFetchWord nbits w).latency = 0 := rfl
@[simp] theorem State.withFetchWord_latencies (s : State) (nbits w : Nat) : (s.withFetchWord nbits w).latencies = s.latencies :=
    rfl
@[simp] theorem State.withFetchWord_draws (s : State) (nbits w : Nat) : (s.withFetchWord nbits w).draws = s.draws :=
    rfl

end Sys2Proof.Machine
end

