-- ==== Sys2Proof/Laws/Table.lean ====
section
/-! SUPPORT. The laws of the sparse memories: read after write, the canonical form is kept, canonical tables that read
alike are equal. -/

namespace Sys2Proof.Machine

variable {α : Type}

@[simp] theorem Table.find?_nil (i : Nat) : Table.find? ([] : Table α) i = none := rfl

theorem Table.find?_cons (k : Nat) (v : α) (t : Table α) (i : Nat) :
    Table.find? ((k, v) :: t) i = if k = i then some v else Table.find? t i := rfl

theorem Table.find?_put_self (t : Table α) (i : Nat) (v : α) : Table.find? (Table.put t i v) i = some v := by
  induction t with
  | nil => simp [Table.put, Table.find?]
  | cons c t ih =>
    obtain ⟨k, w⟩ := c
    simp only [Table.put]
    split
    · simp [Table.find?]
    · split
      · simp [Table.find?]
      · rename_i h1 h2
        have : ¬ k = i := fun h => h2 h.symm
        simp [Table.find?, this, ih]

theorem Table.find?_put_ne (t : Table α) {i j : Nat} (v : α) (h : j ≠ i) :
    Table.find? (Table.put t i v) j = Table.find? t j := by
  have h' : ¬ i = j := fun e => h e.symm
  induction t with
  | nil => simp [Table.put, Table.find?, h']
  | cons c t ih =>
    obtain ⟨k, w⟩ := c
    simp only [Table.put]
    split
    · simp [Table.find?, h']
    · split
      · rename_i h2
        subst h2
        simp [Table.find?, h']
      · simp only [Table.find?, ih]

theorem Table.find?_put (t : Table α) (i j : Nat) (v : α) :
    Table.find? (Table.put t i v) j = if j = i then some v else Table.find? t j := by
  split
  · next h => subst h; exact Table.find?_put_self t j v
  · next h => exact Table.find?_put_ne t v h

theorem Table.find?_erase_ne (t : Table α) {i j : Nat} (h : j ≠ i) :
    Table.find? (Table.erase t i) j = Table.find? t j := by
  induction t with
  | nil => rfl
  | cons c t ih =>
    obtain ⟨k, w⟩ := c
    simp only [Table.erase]
    split
    · next e =>
      have : ¬ k = j := fun e' => h (by omega)
      simp [Table.find?, this]
    · simp only [Table.find?, ih]

/-- Below its first index a rising table lists nothing. -/
theorem Table.find?_below (t : Table α) {lo i : Nat} (hs : Table.sortedFrom lo t = true) (h : i < lo) :
    Table.find? t i = none := by
  induction t generalizing lo with
  | nil => rfl
  | cons c t ih =>
    obtain ⟨k, w⟩ := c
    simp only [Table.sortedFrom, Bool.and_eq_true, decide_eq_true_eq] at hs
    have : ¬ k = i := by omega
    simp only [Table.find?, this, if_false]
    exact ih hs.2 (by omega)

theorem Table.find?_erase_self (t : Table α) {lo i : Nat} (hs : Table.sortedFrom lo t = true) :
    Table.find? (Table.erase t i) i = none := by
  induction t generalizing lo with
  | nil => rfl
  | cons c t ih =>
    obtain ⟨k, w⟩ := c
    simp only [Table.sortedFrom, Bool.and_eq_true, decide_eq_true_eq] at hs
    simp only [Table.erase]
    split
    · next e => exact Table.find?_below t hs.2 (by omega)
    · next e => simp only [Table.find?, e, if_false]; exact ih hs.2

/-- A lower bound may be weakened. -/
theorem Table.sortedFrom_mono (t : Table α) {lo lo' : Nat} (h : lo' ≤ lo) (hs : Table.sortedFrom lo t = true) :
    Table.sortedFrom lo' t = true := by
  cases t with
  | nil => rfl
  | cons c t =>
    simp only [Table.sortedFrom, Bool.and_eq_true, decide_eq_true_eq] at hs ⊢
    exact ⟨by omega, hs.2⟩

theorem Table.sortedFrom_put (t : Table α) {lo i : Nat} (v : α) (hi : lo ≤ i) (hs : Table.sortedFrom lo t = true) :
    Table.sortedFrom lo (Table.put t i v) = true := by
  induction t generalizing lo with
  | nil => simp [Table.put, Table.sortedFrom, hi]
  | cons c t ih =>
    obtain ⟨k, w⟩ := c
    simp only [Table.sortedFrom, Bool.and_eq_true, decide_eq_true_eq] at hs
    simp only [Table.put]
    split
    · next h =>
      simp only [Table.sortedFrom, Bool.and_eq_true, decide_eq_true_eq]
      exact ⟨hi, by omega, hs.2⟩
    · split
      · next h =>
        subst h
        simp only [Table.sortedFrom, Bool.and_eq_true, decide_eq_true_eq]
        exact ⟨hi, hs.2⟩
      · simp only [Table.sortedFrom, Bool.and_eq_true, decide_eq_true_eq]
        exact ⟨hs.1, ih (by omega) hs.2⟩

theorem Table.sortedFrom_erase (t : Table α) {lo : Nat} (i : Nat) (hs : Table.sortedFrom lo t = true) :
    Table.sortedFrom lo (Table.erase t i) = true := by
  induction t generalizing lo with
  | nil => rfl
  | cons c t ih =>
    obtain ⟨k, w⟩ := c
    simp only [Table.sortedFrom, Bool.and_eq_true, decide_eq_true_eq] at hs
    simp only [Table.erase]
    split
    · exact Table.sortedFrom_mono t (by omega) hs.2
    · simp only [Table.sortedFrom, Bool.and_eq_true, decide_eq_true_eq]
      exact ⟨hs.1, ih hs.2⟩

theorem Table.all_put (t : Table α) (i : Nat) (v : α) (p : Nat × α → Bool) (hp : p (i, v) = true)
    (ht : t.all p = true) : List.all (Table.put t i v) p = true := by
  induction t with
  | nil => simpa [Table.put] using hp
  | cons c t ih =>
    obtain ⟨k, w⟩ := c
    simp only [List.all_cons, Bool.and_eq_true] at ht
    simp only [Table.put]
    split
    · simp [hp, ht.1, ht.2]
    · split
      · simp [hp, ht.2]
      · simp [ht.1, ih ht.2]

theorem Table.all_erase (t : Table α) (i : Nat) (p : Nat × α → Bool) (ht : t.all p = true) :
    List.all (Table.erase t i) p = true := by
  induction t with
  | nil => rfl
  | cons c t ih =>
    obtain ⟨k, w⟩ := c
    simp only [List.all_cons, Bool.and_eq_true] at ht
    simp only [Table.erase]
    split
    · exact ht.2
    · simp [ht.1, ih ht.2]

@[simp] theorem Table.get_nil (d : α) (i : Nat) : Table.get d [] i = d := rfl

section Default

variable [DecidableEq α]

theorem Table.get_set_ne (d : α) (t : Table α) {i j : Nat} (v : α) (h : j ≠ i) :
    Table.get d (Table.set d t i v) j = Table.get d t j := by
  unfold Table.get Table.set
  split
  · rw [Table.find?_erase_ne t h]
  · rw [Table.find?_put_ne t v h]

theorem Table.get_set_self (d : α) (t : Table α) (i : Nat) (v : α) {lo : Nat} (hs : Table.sortedFrom lo t = true) :
    Table.get d (Table.set d t i v) i = v := by
  unfold Table.get Table.set
  split
  · next h => rw [Table.find?_erase_self t hs, h]; rfl
  · rw [Table.find?_put_self]; rfl

/-- Read after write, for a table in rising order. -/
theorem Table.get_set (d : α) (t : Table α) (i j : Nat) (v : α) {lo : Nat} (hs : Table.sortedFrom lo t = true) :
    Table.get d (Table.set d t i v) j = if j = i then v else Table.get d t j := by
  split
  · next h => subst h; exact Table.get_set_self d t j v hs
  · next h => exact Table.get_set_ne d t v h

theorem Table.sortedFrom_set (d : α) (t : Table α) {lo i : Nat} (v : α) (hi : lo ≤ i)
    (hs : Table.sortedFrom lo t = true) : Table.sortedFrom lo (Table.set d t i v) = true := by
  unfold Table.set
  split
  · exact Table.sortedFrom_erase t i hs
  · exact Table.sortedFrom_put t v hi hs

/-- A write inside the table's range keeps the canonical form. -/
theorem Table.canonical_set (d : α) {bound : Nat} (t : Table α) {i : Nat} (v : α) (hi : i < bound)
    (h : Table.canonical d bound t = true) : Table.canonical d bound (Table.set d t i v) = true := by
  simp only [Table.canonical, Bool.and_eq_true] at h ⊢
  refine ⟨Table.sortedFrom_set d t v (Nat.zero_le i) h.1, ?_⟩
  unfold Table.set
  split
  · exact Table.all_erase t i _ h.2
  · next hv => exact Table.all_put t i v _ (by simp [hi, hv]) h.2

@[simp] theorem Table.canonical_nil (d : α) (bound : Nat) : Table.canonical d bound [] = true := rfl

theorem Table.canonical_sorted {d : α} {bound : Nat} {t : Table α} (h : Table.canonical d bound t = true) :
    Table.sortedFrom 0 t = true := by
  simp only [Table.canonical, Bool.and_eq_true] at h
  exact h.1

/-- Outside its range a canonical table reads as the default. -/
theorem Table.get_beyond {d : α} {bound : Nat} {t : Table α} (h : Table.canonical d bound t = true) {i : Nat}
    (hi : bound ≤ i) : Table.get d t i = d := by
  simp only [Table.canonical, Bool.and_eq_true] at h
  have h2 := h.2
  clear h
  unfold Table.get
  induction t with
  | nil => rfl
  | cons c t ih =>
    obtain ⟨k, w⟩ := c
    simp only [List.all_cons, Bool.and_eq_true, decide_eq_true_eq] at h2
    have : ¬ k = i := by omega
    simp only [Table.find?, this, if_false]
    exact ih h2.2

/-- Equal memories are equal data: rising tables with no listed default that read alike are equal. -/
theorem Table.ext_of_sorted {d : α} {lo : Nat} {t u : Table α} (ht : Table.sortedFrom lo t = true)
    (hu : Table.sortedFrom lo u = true) (dt : t.all (fun c => decide (c.2 ≠ d)) = true)
    (du : u.all (fun c => decide (c.2 ≠ d)) = true) (h : ∀ i, Table.get d t i = Table.get d u i) : t = u := by
  induction t generalizing lo u with
  | nil =>
    cases u with
    | nil => rfl
    | cons c u =>
      obtain ⟨k, w⟩ := c
      have hk := h k
      simp only [List.all_cons, Bool.and_eq_true, decide_eq_true_eq] at du
      simp only [Table.get, Table.find?, if_true, Option.getD_some, Option.getD_none] at hk
      exact absurd hk.symm du.1
  | cons c t ih =>
    obtain ⟨k, w⟩ := c
    simp only [List.all_cons, Bool.and_eq_true, decide_eq_true_eq] at dt
    simp only [Table.sortedFrom, Bool.and_eq_true, decide_eq_true_eq] at ht
    cases u with
    | nil =>
      have hk := h k
      simp only [Table.get, Table.find?, if_true, Option.getD_some, Option.getD_none] at hk
      exact absurd hk dt.1
    | cons c' u =>
      obtain ⟨k', w'⟩ := c'
      simp only [List.all_cons, Bool.and_eq_true, decide_eq_true_eq] at du
      simp only [Table.sortedFrom, Bool.and_eq_true, decide_eq_true_eq] at hu
      have hkk : k = k' := by
        by_contra hne
        rcases Nat.lt_or_gt_of_ne hne with hlt | hlt
        · have hk := h k
          have hb : Table.find? u k = none := Table.find?_below u hu.2 (by omega)
          simp only [Table.get, Table.find?, if_true, Option.getD_some, hb] at hk
          rw [if_neg (by omega)] at hk
          exact dt.1 hk
        · have hk := h k'
          have hb : Table.find? t k' = none := Table.find?_below t ht.2 (by omega)
          simp only [Table.get, Table.find?, if_true, Option.getD_some, hb] at hk
          rw [if_neg (by omega)] at hk
          exact du.1 hk.symm
      subst hkk
      have hw : w = w' := by simpa [Table.get, Table.find?] using h k
      subst hw
      congr 1
      refine ih ht.2 hu.2 dt.2 du.2 fun i => ?_
      by_cases hi : i = k
      · subst hi
        simp only [Table.get, Table.find?_below t ht.2 (Nat.lt_succ_self i),
          Table.find?_below u hu.2 (Nat.lt_succ_self i)]
      · have hi' : ¬ k = i := fun e => hi e.symm
        simpa [Table.get, Table.find?, hi'] using h i

theorem Table.find?_ofListFrom (d : α) (xs : List α) (n i : Nat) :
    Table.find? (Table.ofListFrom d n xs) i =
      if n ≤ i ∧ i < n + xs.length ∧ xs.getD (i - n) d ≠ d then some (xs.getD (i - n) d) else none := by
  induction xs generalizing n with
  | nil =>
    have : ¬ (n ≤ i ∧ i < n + ([] : List α).length ∧ ([] : List α).getD (i - n) d ≠ d) := by
      rintro ⟨h1, h2, -⟩
      simp at h2
      omega
    simp only [Table.ofListFrom, Table.find?, this, if_false]
  | cons x xs ih =>
    simp only [Table.ofListFrom]
    by_cases hin : i = n
    · subst hin
      have hrec : Table.find? (Table.ofListFrom d (i + 1) xs) i = none := by
        rw [ih]
        rw [if_neg (by omega)]
      by_cases hx : x = d <;> simp [hx, Table.find?, hrec]
    · have hne : ¬ n = i := fun e => hin e.symm
      have key : Table.find? (Table.ofListFrom d (n + 1) xs) i =
          if n ≤ i ∧ i < n + (x :: xs).length ∧ (x :: xs).getD (i - n) d ≠ d then some ((x :: xs).getD (i - n) d)
          else none := by
        rw [ih]
        by_cases hle : n ≤ i
        · have e : i - n = (i - (n + 1)) + 1 := by omega
          rw [e]
          simp only [List.getD_cons_succ, List.length_cons]
          congr 1
          apply propext
          constructor <;> rintro ⟨a, b, c⟩ <;> exact ⟨by omega, by omega, c⟩
        · rw [if_neg (by omega), if_neg (by omega)]
      by_cases hx : x = d
      · simp only [hx, if_true] at key ⊢
        exact key
      · simp only [hx, if_false, Table.find?, hne] at key ⊢
        exact key

/-- The table made from a list reads as the list, the default beyond it. -/
theorem Table.get_ofListFrom (d : α) (xs : List α) (i : Nat) :
    Table.get d (Table.ofListFrom d 0 xs) i = xs.getD i d := by
  unfold Table.get
  rw [Table.find?_ofListFrom]
  simp only [Nat.sub_zero]
  by_cases h : xs.getD i d = d
  · rw [if_neg (fun hc => hc.2.2 h), h]
    rfl
  · have hlt : i < xs.length := by
      by_contra hge
      exact h (List.getD_eq_default _ _ (Nat.not_lt.mp hge))
    rw [if_pos ⟨Nat.zero_le i, by omega, h⟩]
    rfl

theorem Table.sortedFrom_ofListFrom (d : α) (xs : List α) (n lo : Nat) (h : lo ≤ n) :
    Table.sortedFrom lo (Table.ofListFrom d n xs) = true := by
  induction xs generalizing n lo with
  | nil => rfl
  | cons x xs ih =>
    simp only [Table.ofListFrom]
    split
    · exact ih (n + 1) lo (by omega)
    · simp only [Table.sortedFrom, Bool.and_eq_true, decide_eq_true_eq]
      exact ⟨h, ih (n + 1) (n + 1) (Nat.le_refl _)⟩

theorem Table.all_ofListFrom (d : α) (xs : List α) (n bound : Nat) (h : n + xs.length ≤ bound) :
    List.all (Table.ofListFrom d n xs) (fun c => decide (c.1 < bound) && decide (c.2 ≠ d)) = true := by
  induction xs generalizing n with
  | nil => rfl
  | cons x xs ih =>
    simp only [List.length_cons] at h
    simp only [Table.ofListFrom]
    split
    · exact ih (n + 1) (by omega)
    · next hx =>
      simp only [List.all_cons, Bool.and_eq_true, decide_eq_true_eq]
      exact ⟨⟨by omega, hx⟩, ih (n + 1) (by omega)⟩

/-- The table made from a list is canonical. -/
theorem Table.canonical_ofListFrom (d : α) (xs : List α) {bound : Nat} (h : xs.length ≤ bound) :
    Table.canonical d bound (Table.ofListFrom d 0 xs) = true := by
  simp only [Table.canonical, Bool.and_eq_true]
  exact ⟨Table.sortedFrom_ofListFrom d xs 0 0 (Nat.le_refl _), Table.all_ofListFrom d xs 0 bound (by omega)⟩

end Default

@[simp] theorem Buffer.putByte_draw (b : Buffer) (i : Nat) (v : Byte) : (b.putByte i v).draw = b.draw := rfl

/-- Read after write of one byte. -/
theorem Buffer.byte_putByte (b : Buffer) (i j : Nat) (v : Byte) :
    (b.putByte i v).byte j = if j = i then v else b.byte j := by
  unfold Buffer.byte Buffer.putByte
  simp only [Table.find?_put]
  split <;> rfl

@[simp] theorem Buffer.store_draw (vs : List Byte) (b : Buffer) (i : Nat) : (b.store i vs).draw = b.draw := by
  induction vs generalizing b i with
  | nil => rfl
  | cons v vs ih => simp only [Buffer.store, ih, Buffer.putByte_draw]

/-- Read after a write of consecutive bytes: the written bytes inside, the old bytes outside. -/
theorem Buffer.byte_store (vs : List Byte) (b : Buffer) (i j : Nat) :
    (b.store i vs).byte j = if i ≤ j ∧ j < i + vs.length then vs.getD (j - i) 0 else b.byte j := by
  induction vs generalizing b i with
  | nil => simp only [Buffer.store, List.length_nil]; rw [if_neg (by omega)]
  | cons v vs ih =>
    simp only [Buffer.store, ih, Buffer.byte_putByte, List.length_cons]
    by_cases h1 : j = i
    · subst h1
      rw [if_neg (by omega), if_pos rfl, if_pos ⟨Nat.le_refl _, by omega⟩]
      simp
    · rw [if_neg h1]
      by_cases h2 : i + 1 ≤ j ∧ j < i + 1 + vs.length
      · rw [if_pos h2, if_pos ⟨by omega, by omega⟩]
        have : j - i = (j - (i + 1)) + 1 := by omega
        rw [this, List.getD_cons_succ]
      · rw [if_neg h2, if_neg (by omega)]

/-- A byte written is determined. -/
theorem Buffer.find?_store (vs : List Byte) (b : Buffer) (i j : Nat) :
    (Table.find? (b.store i vs).cells j).isSome =
      (decide (i ≤ j ∧ j < i + vs.length) || (Table.find? b.cells j).isSome) := by
  induction vs generalizing b i with
  | nil =>
    have : ¬ (i ≤ j ∧ j < i) := by omega
    simp [Buffer.store, this]
  | cons v vs ih =>
    simp only [Buffer.store, ih, Buffer.putByte, Table.find?_put, List.length_cons]
    by_cases h1 : j = i
    · subst h1
      simp
    · rw [if_neg h1]
      congr 1
      apply decide_eq_decide.mpr
      omega

theorem Buffer.wf_putByte {n : Nat} {b : Buffer} {i : Nat} (v : Byte) (hi : i < n) (h : b.wf n = true) :
    (b.putByte i v).wf n = true := by
  simp only [Buffer.wf, Bool.and_eq_true] at h ⊢
  exact ⟨Table.sortedFrom_put b.cells v (Nat.zero_le i) h.1, Table.all_put b.cells i v _ (by simpa using hi) h.2⟩

/-- A write that lies inside the buffer keeps its canonical form. -/
theorem Buffer.wf_store {n : Nat} (vs : List Byte) {b : Buffer} {i : Nat} (hi : i + vs.length ≤ n) (h : b.wf n = true) :
    (b.store i vs).wf n = true := by
  induction vs generalizing b i with
  | nil => exact h
  | cons v vs ih =>
    simp only [List.length_cons] at hi
    exact ih (by omega) (Buffer.wf_putByte v (by omega) h)

@[simp] theorem Buffer.wf_unspecified (n d : Nat) : (Buffer.unspecified d).wf n = true := rfl

/-- The memories of the reset state are in canonical form. -/
theorem Memory.wf_reset (p : Params) (d : Nat) : (Memory.reset d).wf p = true := rfl

/-- State.reset's memory is in canonical form. -/
theorem State.reset_mem_wf : State.reset.mem.wf State.reset.params = true := rfl

@[simp] theorem Buffer.length_bytes (b : Buffer) (n : Nat) : (b.bytes n).length = n := by simp [Buffer.bytes]

theorem Buffer.getD_bytes (b : Buffer) {n i : Nat} (h : i < n) (d : Byte) : (b.bytes n).getD i d = b.byte i := by
  simp [Buffer.bytes, List.getD, h]

end Sys2Proof.Machine
end

