-- ==== Sys2Proof/Laws/Ops.lean ====
section
/-! SUPPORT. What the shared operations do: completing a command (R72), the failing results (R99, R103, R121), the check of
IN_LEN, and `exec` as the completion of each command's function. -/

namespace Sys2Proof.Machine

/-- The completion of a successful result (R72). -/
theorem CmdResult.complete_ok {r : CmdResult} (h : r.verdict = .ok) : r.complete = r.after.completeOk := by
  simp [CmdResult.complete, h]

/-- The completion of a failed result (R72, R123). -/
theorem CmdResult.complete_fail {r : CmdResult} {f : Failure} (h : r.verdict = .fail f) :
    r.complete = r.after.takeError f := by
  simp [CmdResult.complete, h]

/-- Everything a completion can be: a success or one error. -/
theorem CmdResult.complete_cases (r : CmdResult) :
    (r.verdict = .ok ∧ r.complete = r.after.completeOk) ∨
    ∃ f, r.verdict = .fail f ∧ r.complete = r.after.takeError f := by
  cases h : r.verdict with
  | ok => exact .inl ⟨rfl, CmdResult.complete_ok h⟩
  | fail f => exact .inr ⟨f, rfl, CmdResult.complete_fail h⟩

/-- A completion writes PHASE, DONE, ERR, ERR_POS and ERR_SYM, and nothing else of what the command left. -/
theorem CmdResult.complete_frame (r : CmdResult) :
    r.complete = { r.after with phase := r.complete.phase, done := r.complete.done, err := r.complete.err,
                                errPos := r.complete.errPos, errSym := r.complete.errSym } := by
  rcases r.complete_cases with ⟨-, h⟩ | ⟨f, -, h⟩ <;> rw [h] <;> rfl

@[simp] theorem CmdResult.complete_phase (r : CmdResult) : r.complete.phase = .idle := by
  rcases r.complete_cases with ⟨-, h⟩ | ⟨f, -, h⟩ <;> rw [h] <;> rfl

@[simp] theorem CmdResult.complete_done (r : CmdResult) : r.complete.done = true := by
  rcases r.complete_cases with ⟨-, h⟩ | ⟨f, -, h⟩ <;> rw [h] <;> rfl

@[simp] theorem CmdResult.complete_mem (r : CmdResult) : r.complete.mem = r.after.mem := by
  rw [r.complete_frame]

@[simp] theorem CmdResult.complete_params (r : CmdResult) : r.complete.params = r.after.params := by
  rw [r.complete_frame]

@[simp] theorem CmdResult.complete_draws (r : CmdResult) : r.complete.draws = r.after.draws := by
  rw [r.complete_frame]

@[simp] theorem CmdResult.complete_outLen (r : CmdResult) : r.complete.outLen = r.after.outLen := by
  rw [r.complete_frame]

@[simp] theorem CmdResult.complete_padOut (r : CmdResult) : r.complete.padOut = r.after.padOut := by
  rw [r.complete_frame]

@[simp] theorem CmdResult.complete_nbits (r : CmdResult) : r.complete.nbits = r.after.nbits := by
  rw [r.complete_frame]

@[simp] theorem CmdResult.complete_nleaf (r : CmdResult) : r.complete.nleaf = r.after.nleaf := by
  rw [r.complete_frame]

@[simp] theorem CmdResult.complete_nnode (r : CmdResult) : r.complete.nnode = r.after.nnode := by
  rw [r.complete_frame]

@[simp] theorem CmdResult.complete_root (r : CmdResult) : r.complete.root = r.after.root := by
  rw [r.complete_frame]

theorem State.lenFails_iff (s : State) : s.lenFails = true ↔ s.params.nIbuf < s.inLen.toNat := by
  simp [State.lenFails]

theorem State.lenFails_eq_false_iff (s : State) : s.lenFails = false ↔ s.inLen.toNat ≤ s.params.nIbuf := by
  simp [State.lenFails]

@[simp] theorem State.failOutput_after (f : Failure) (s : State) : (s.failOutput f).after = s.dropOutput := rfl

@[simp] theorem State.failOutput_verdict (f : Failure) (s : State) : (s.failOutput f).verdict = .fail f := rfl

@[simp] theorem State.failClean_after (f : Failure) (s : State) : (s.failClean f).after = s := rfl

@[simp] theorem State.failClean_verdict (f : Failure) (s : State) : (s.failClean f).verdict = .fail f := rfl

/-- The function of each command (R71). -/
def commandResult : Instr → State → CmdResult
  | .nop => nopCommand
  | .freq => freqCommand
  | .build => buildCommand
  | .gencb => gencbCommand
  | .pack => packCommand
  | .unpack => unpackCommand
  | .compress => compressCommand
  | .clrcb => clrcbCommand
  | .illegal _ => illegalCommand

/-- `exec` is the completion of the command's function: it never stops. -/
theorem exec_eq (i : Instr) (s : State) : exec i s = .next (commandResult i s).complete := by
  cases i <;> rfl

/-- Everything FREQ can do (R78). -/
theorem freqCommand_cases (s : State) :
    (s.lenFails = true ∧ freqCommand s = s.failClean s.lenFailure) ∨
    (s.lenFails = false ∧
      freqCommand s = ⟨{ s with mem := { s.mem with freq := countBytes s.inputBytes } }, .ok⟩) := by
  unfold freqCommand
  cases h : s.lenFails <;> simp

/-- Everything PACK can do (R99): the failure writes, or the packed stream of the bytes' codes. -/
theorem packCommand_cases (s : State) :
    (s.lenFails = true ∧ packCommand s = s.failOutput s.lenFailure) ∨
    (∃ f, s.lenFails = false ∧ packScan s.mem.cb (8 * s.params.nObuf) 0 0 s.inputBytes = .error f ∧
      packCommand s = s.failOutput f) ∨
    (∃ bits, s.lenFails = false ∧ packScan s.mem.cb (8 * s.params.nObuf) 0 0 s.inputBytes = .ok bits ∧
      packCommand s =
        ⟨s.writeOutput (packStream bits) (BitVec.ofNat 3 (padCount bits.length)) bits.length, .ok⟩) := by
  unfold packCommand
  cases h : s.lenFails
  · cases hp : packScan s.mem.cb (8 * s.params.nObuf) 0 0 s.inputBytes with
    | error f => exact .inr (.inl ⟨f, rfl, rfl, by simp⟩)
    | ok bits => exact .inr (.inr ⟨bits, rfl, rfl, by simp⟩)
  · exact .inl ⟨rfl, by simp⟩

/-- Everything UNPACK can do (R103): one of the failures, or the bytes the scan emits. -/
theorem unpackCommand_cases (s : State) :
    (∃ f, unpackCommand s = s.failOutput f) ∨
    (∃ out, s.lenFails = false ∧ s.padIn.toNat ≤ 8 * s.inLen.toNat ∧ Codebook.dupPair s.mem.cb = none ∧
      unpackScan s.mem.cb s.params.nObuf 0 0 [] 0 s.trimmedStream = .ok out ∧
      unpackCommand s = ⟨s.writeOutput out 0 s.trimmedStream.length, .ok⟩) := by
  unfold unpackCommand
  cases h : s.lenFails
  · by_cases hp : 8 * s.inLen.toNat < s.padIn.toNat
    · exact .inl ⟨⟨.malformed, 0, 0⟩, by simp only [Bool.false_eq_true, if_false, if_pos hp]⟩
    · cases hd : Codebook.dupPair s.mem.cb with
      | some bb =>
        exact .inl ⟨⟨.dupCode, 0, BitVec.ofNat 16 bb.1 ||| BitVec.ofNat 16 bb.2 <<< 8⟩,
          by simp only [Bool.false_eq_true, if_false, if_neg hp]⟩
      | none =>
        cases hs : unpackScan s.mem.cb s.params.nObuf 0 0 [] 0 s.trimmedStream with
        | error f => exact .inl ⟨f, by simp only [Bool.false_eq_true, if_false, if_neg hp]⟩
        | ok out => exact .inr ⟨out, rfl, by omega, rfl, rfl, by simp only [Bool.false_eq_true, if_false, if_neg hp]⟩
  · exact .inl ⟨s.lenFailure, by simp only [if_true]⟩

/-- Everything COMPRESS can do (R110): E_LEN with the failure writes or without, by the parameter, or what PACK does on
the tables of its first three stages. -/
theorem compressCommand_cases (s : State) :
    (s.lenFails = true ∧ s.params.compressLenDrops = true ∧ compressCommand s = s.failOutput s.lenFailure) ∨
    (s.lenFails = true ∧ s.params.compressLenDrops = false ∧ compressCommand s = s.failClean s.lenFailure) ∨
    (s.lenFails = false ∧ compressCommand s = packCommand s.compressTables) := by
  unfold compressCommand compressLenCommand
  cases h : s.lenFails <;> cases hd : s.params.compressLenDrops <;> simp

/-- The tables a COMPRESS computes (R110), when IN_LEN fits. -/
theorem State.compressTables_eq {s : State} (h : s.lenFails = false) :
    s.compressTables =
      (gencbCommand (buildCommand { s with mem := { s.mem with freq := countBytes s.inputBytes } }).after).after := by
  simp [State.compressTables, freqCommand, h]

end Sys2Proof.Machine
end

