-- ==== Sys2Proof/Laws/Step.lean ====
section
/-! SUPPORT. Everything a step can do: the completion of the running command, one host operation, or waiting; and
everything a host access can do. Later proofs cite these and do not unfold the step. -/

namespace Sys2Proof.Machine

/-- Whose turn it is (R71, R72). -/
theorem State.engineTurn_iff (s : State) :
    s.engineTurn = true ↔ s.phase = .busy ∧ s.rst = false ∧ (s.latency = 0 ∨ s.inputs = []) := by
  simp [State.engineTurn, State.busy, and_assoc]

@[simp] theorem State.busy_iff (s : State) : s.busy = true ↔ s.phase = .busy := by simp [State.busy]

theorem State.busy_eq_false_iff (s : State) : s.busy = false ↔ s.phase = .idle := by
  cases h : s.phase <;> simp [State.busy, h]

theorem step_engine {s : State} (h : s.engineTurn = true) : step s = exec s.command s := by
  simp [step, h]

theorem step_host {s : State} (h : s.engineTurn = false) : step s = .next s.hostTurn := by
  simp [step, h]

/-- Everything a step can do. -/
theorem step_cases {s t : State} (h : step s = .next t) :
    (s.engineTurn = true ∧ t = (commandResult s.command s).complete) ∨
    (s.engineTurn = false ∧ t = s.hostTurn) := by
  cases he : s.engineTurn
  · rw [step_host he] at h
    exact .inr ⟨rfl, (Host.Outcome.next.inj h).symm⟩
  · rw [step_engine he, exec_eq] at h
    exact .inl ⟨rfl, (Host.Outcome.next.inj h).symm⟩

/-- Everything a host step can do: nothing to do, or the oldest operation, kept when it is a WAIT that goes on. -/
theorem State.hostTurn_cases (s : State) :
    (s.inputs = [] ∧ s.hostTurn = s) ∨
    ∃ i rest, s.inputs = i :: rest ∧
      s.hostTurn = { State.perform i { s with inputs := rest, latency := s.latency - 1 } with
        inputs := s.hostTurn.inputs } ∧
      (s.hostTurn.inputs = (State.perform i { s with inputs := rest, latency := s.latency - 1 }).inputs ∨
        s.hostTurn.inputs = i :: rest) := by
  unfold State.hostTurn
  cases h : s.inputs with
  | nil => exact .inl ⟨rfl, rfl⟩
  | cons i rest =>
    refine .inr ⟨i, rest, rfl, ?_⟩
    dsimp only
    split
    · exact ⟨rfl, .inr rfl⟩
    · exact ⟨rfl, .inl rfl⟩

/-- Everything a host access can do: ERR; a read; a dropped write; a performed write. -/
theorem State.access_cases (acc : Access) (s : State) :
    (s.accessErrs acc = true ∧ s.access acc = { s with resp := some errResponse }) ∨
    ∃ t, s.rst = false ∧ acc.target? s.params = some t ∧
      ((∃ a n, acc = .read a n ∧ s.access acc = s.readAccess t n.bytes) ∨
       (∃ a n v, acc = .write a n v ∧ s.busy = true ∧ t.dropsWhileBusy = true ∧
          s.access acc = { s with ovr := true, resp := some ⟨true, 0⟩ }) ∨
       (∃ a n v, acc = .write a n v ∧ (s.busy = false ∨ t.dropsWhileBusy = false) ∧
          s.access acc = { s.writeTarget n.bytes v t with resp := some ⟨true, 0⟩ })) := by
  unfold State.access State.accessErrs
  cases hr : s.rst
  · cases ht : acc.target? s.params with
    | none => exact .inl ⟨rfl, rfl⟩
    | some t =>
      refine .inr ⟨t, rfl, rfl, ?_⟩
      cases acc with
      | read a n => exact .inl ⟨a, n, rfl, rfl⟩
      | write a n v =>
        cases hb : s.busy <;> cases hd : t.dropsWhileBusy
        · exact .inr (.inr ⟨a, n, v, rfl, .inl rfl, by simp [State.writeAccess, hb]⟩)
        · exact .inr (.inr ⟨a, n, v, rfl, .inl rfl, by simp [State.writeAccess, hb]⟩)
        · exact .inr (.inr ⟨a, n, v, rfl, .inr rfl, by simp [State.writeAccess, hd]⟩)
        · exact .inr (.inl ⟨a, n, v, rfl, rfl, rfl, by simp [State.writeAccess, State.setOvr, hb, hd, hr]⟩)
  · exact .inl ⟨rfl, by simp⟩

/-- A read changes only the response and the draw counter. -/
theorem State.readAccess_frame (t : Target) (n : Nat) (s : State) :
    s.readAccess t n = { s with resp := (s.readAccess t n).resp, draws := (s.readAccess t n).draws } ∧
    s.draws ≤ (s.readAccess t n).draws := by
  unfold State.readAccess
  split
  · exact ⟨rfl, Nat.le_succ _⟩
  · exact ⟨rfl, Nat.le_refl _⟩

/-- A target that the window map gives lies inside its window (R41, R44). -/
theorem target_inRange {p : Params} {a n : Nat} {t : Target} (h : target p a n = some t) :
    match t with
    | .reg r => r.offset = a ∧ n = 4
    | .freq b => b < 256 ∧ a = 0x1000 + 4 * b ∧ n = 4
    | .node h k => h < 511 ∧ k < 4 ∧ a = 0x2000 + 16 * h + 4 * k ∧ n = 4
    | .cb b k => b < 256 ∧ k < 16 ∧ a = 0x4000 + 64 * b + 4 * k ∧ n = 4
    | .ibuf i => i + n ≤ p.nIbuf ∧ a = 0x100000 + i ∧ a % n = 0 ∧ a < 0x200000
    | .obuf i => i + n ≤ p.nObuf ∧ a = 0x200000 + i ∧ a % n = 0 := by
  unfold target at h
  split at h
  · split at h
    · split at h
      · rw [Option.map_eq_some_iff] at h
        obtain ⟨r, hr, rfl⟩ := h
        have := List.find?_some hr
        simp only [decide_eq_true_eq] at this
        exact ⟨this, by omega⟩
      · split at h
        · obtain rfl := Option.some.inj h
          dsimp only
          omega
        · split at h
          · obtain rfl := Option.some.inj h
            dsimp only
            omega
          · split at h
            · obtain rfl := Option.some.inj h
              dsimp only
              omega
            · exact absurd h (by simp)
    · exact absurd h (by simp)
  · split at h
    · split at h
      · next hc =>
        obtain rfl := Option.some.inj h
        dsimp only
        refine ⟨hc.2, by omega, hc.1, by omega⟩
      · exact absurd h (by simp)
    · split at h
      · next hc =>
        obtain rfl := Option.some.inj h
        dsimp only
        exact ⟨hc.2, by omega, hc.1⟩
      · exact absurd h (by simp)

end Sys2Proof.Machine
end

