-- ==== Sys2Proof/Laws/Flags.lean ====
section
/-! SUPPORT. STATUS, bit by bit (R19), and the accesses to it. -/

namespace Sys2Proof.Machine

/-- STATUS as a number (R19). -/
theorem State.statusWord_toNat (s : State) :
    s.statusWord.toNat = s.busy.toNat + 2 * s.done.toNat + 4 * s.ovr.toNat + 16 * s.err.code.toNat := by
  unfold State.statusWord
  cases s.err <;> cases s.ovr <;> cases s.done <;> cases s.busy <;> rfl

/-- STATUS bit [1] is DONE (R19). -/
@[simp] theorem State.statusWord_bit1 (s : State) : s.statusWord.getLsbD 1 = s.done := by
  unfold State.statusWord
  cases s.err <;> cases s.ovr <;> cases s.done <;> cases s.busy <;> rfl

/-- An aligned 32-bit access at a register's offset addresses the register (R41, R43). -/
theorem target_reg (p : Params) (r : Reg) : target p r.offset 4 = some (.reg r) := by
  cases r <;> rfl

@[simp] theorem Reg.offset_toNat (r : Reg) : (BitVec.ofNat 22 r.offset).toNat = r.offset := by
  cases r <;> rfl

/-- A register read, while RST is released (R54). -/
theorem State.access_read_reg (r : Reg) (s : State) (h : s.rst = false) :
    s.access (.read (BitVec.ofNat 22 r.offset) .word) = { s with resp := some ⟨true, s.regValue r⟩ } := by
  have ht : Access.target? s.params (.read (BitVec.ofNat 22 r.offset) .word) = some (.reg r) := by
    simp only [Access.target?, Width.bytes, Reg.offset_toNat, target_reg]
  simp only [State.access, h, ht, Bool.false_eq_true, if_false, State.readAccess, Target.isWindow, Bool.and_false,
    State.targetValue]

/-- A register write, while RST is released (R53). -/
theorem State.access_write_reg (r : Reg) (v : Word) (s : State) (h : s.rst = false) :
    s.access (.write (BitVec.ofNat 22 r.offset) .word v) = s.writeAccess (.reg r) 4 v := by
  have ht : Access.target? s.params (.write (BitVec.ofNat 22 r.offset) .word v) = some (.reg r) := by
    simp only [Access.target?, Width.bytes, Reg.offset_toNat, target_reg]
  simp only [State.access, h, ht, Bool.false_eq_true, if_false, Width.bytes]

/-- The read of STATUS that WAIT repeats (R68). -/
theorem State.access_statusRead (s : State) : s.access statusRead =
    { s with resp := some (if s.rst then ⟨false, 0⟩ else ⟨true, s.statusWord⟩) } := by
  cases h : s.rst
  · rw [statusRead, State.access_read_reg .status s h]
    simp only [State.regValue, Bool.false_eq_true, if_false, h]
  · simp [State.access, h, errResponse]

/-- Everything a STATUS write can do (R19): DONE and ERR, only in IDLE, and OVR. -/
theorem State.writeStatus_eq (v : Word) (s : State) :
    s.writeStatus v =
      { s with done := s.done && !(v.getLsbD 1 && !s.busy)
               err := if v.getLsbD 1 && !s.busy then .ok else s.err
               ovr := s.ovr && !v.getLsbD 2 } := by
  unfold State.writeStatus
  cases h1 : v.getLsbD 1 <;> cases h2 : v.getLsbD 2 <;> cases hb : s.busy <;> simp [State.clearDone]

/-- ACK in IDLE clears DONE and ERR and nothing else (R124). -/
theorem State.acknowledge_eq (s : State) (h : s.phase = .idle) : s.acknowledge = s.clearDone := by
  have hb := (s.busy_eq_false_iff).mpr h
  simp [State.acknowledge, State.writeStatus, hb]

end Sys2Proof.Machine
end

