-- ==== Sys2Proof/Laws/Bus.lean ====
section
/-! SUPPORT. The host bus: byte lanes (R45), the words of NODE and CB entries (R50, R51), and an access to a mapped target
in IDLE (R41, R53, R54). -/

namespace Sys2Proof.Machine

/-! ### Bits of concatenations -/

/-- A concatenation as a number. -/
theorem toNat_append_add {m n : Nat} (x : BitVec m) (y : BitVec n) :
    (x ++ y).toNat = x.toNat * 2 ^ n + y.toNat := by
  rw [BitVec.toNat_append, ← Nat.shiftLeft_add_eq_or_of_lt y.isLt, Nat.shiftLeft_eq]

/-! ### Byte lanes -/

/-- Bit i of joined lanes is bit i mod 8 of lane i div 8 (R45). -/
theorem joinLanes_bit (l : List Byte) {i : Nat} (hi : i < 32) :
    (joinLanes l).getLsbD i = (l.getD (i / 8) 0).getLsbD (i % 8) := by
  induction l generalizing i with
  | nil => simp [joinLanes]
  | cons b l ih =>
    unfold joinLanes
    rw [BitVec.getLsbD_or, BitVec.getLsbD_shiftLeft]
    by_cases h : i < 8
    · have h1 : i / 8 = 0 := by omega
      have h2 : i % 8 = i := by omega
      simp [h, h1, h2, hi]
    · have h1 : i / 8 = (i - 8) / 8 + 1 := by omega
      have h2 : (i - 8) % 8 = i % 8 := by omega
      have h3 : (BitVec.zeroExtend 32 b).getLsbD i = false := by
        rw [BitVec.getLsbD_setWidth, BitVec.getLsbD_of_ge b i (by omega), Bool.and_false]
      rw [ih (by omega), h1, List.getD_cons_succ, h2, h3]
      simp [h, hi]

/-- Lane j of joined lanes is the j-th byte, 0 beyond (R45). -/
theorem joinLanes_lane (l : List Byte) {j : Nat} (hj : j < 4) :
    (joinLanes l).extractLsb' (8 * j) 8 = l.getD j 0 := by
  apply BitVec.eq_of_getLsbD_eq
  intro i hi
  have h1 : (8 * j + i) / 8 = j := by omega
  have h2 : (8 * j + i) % 8 = i := by omega
  rw [BitVec.getLsbD_extractLsb', joinLanes_bit _ (by omega), h1, h2]
  simp [hi]

/-- The lanes beyond the joined ones are 0 (R45). -/
theorem joinLanes_lt (l : List Byte) : (joinLanes l).toNat < 2 ^ (8 * l.length) := by
  induction l with
  | nil => simp [joinLanes]
  | cons b l ih =>
    unfold joinLanes
    rw [BitVec.toNat_or, BitVec.toNat_shiftLeft, List.length_cons]
    apply Nat.or_lt_two_pow
    · have hb : (BitVec.zeroExtend 32 b).toNat < 2 ^ 8 := by
        rw [BitVec.zeroExtend, BitVec.toNat_setWidth]
        exact Nat.lt_of_le_of_lt (Nat.mod_le _ _) b.isLt
      exact Nat.lt_of_lt_of_le hb (Nat.pow_le_pow_right (by omega) (by omega))
    · refine Nat.lt_of_le_of_lt (Nat.mod_le _ _) ?_
      rw [Nat.shiftLeft_eq, Nat.mul_add, Nat.pow_add]
      exact Nat.mul_lt_mul_of_pos_right ih (by omega)

@[simp] theorem length_splitLanes (n : Nat) (v : Word) : (splitLanes n v).length = n := by simp [splitLanes]

/-- The split lanes of a word, 0 beyond (R45). -/
theorem splitLanes_getD (n : Nat) (v : Word) (j : Nat) :
    (splitLanes n v).getD j 0 = if j < n then v.extractLsb' (8 * j) 8 else 0#8 := by
  unfold splitLanes
  split <;> simp [List.getD, *]

/-- A window read while BUSY: the free word with the bits at or above 8n zero (R54). -/
theorem drawnData_eq (d : Nat) (n : Width) :
    drawnData d n.bytes = Config.freeWord d &&& BitVec.ofNat 32 (2 ^ (8 * n.bytes) - 1) := by
  unfold drawnData
  apply BitVec.eq_of_getLsbD_eq
  intro i hi
  have hm : (BitVec.ofNat 32 (2 ^ (8 * n.bytes) - 1)).getLsbD i = decide (i < 8 * n.bytes) := by
    simp only [BitVec.getLsbD_ofNat, Nat.testBit_two_pow_sub_one, hi, decide_true, Bool.true_and]
  rw [joinLanes_bit _ hi, splitLanes_getD, BitVec.getLsbD_and, hm]
  split
  · have e : 8 * (i / 8) + i % 8 = i := by omega
    have h' : i < 8 * n.bytes := by omega
    simp [h', e, Nat.mod_lt]
  · have h' : ¬ i < 8 * n.bytes := by omega
    simp [h']

/-- A buffer store of the lanes of a word, inside the stored bytes (R45). -/
theorem Buffer.byte_store_lanes (b : Buffer) (i n j : Nat) (v : Word) (hj : j < n) :
    (b.store i (splitLanes n v)).byte (i + j) = v.extractLsb' (8 * j) 8 := by
  have h := splitLanes_getD n v j
  rw [if_pos hj] at h
  rw [Buffer.byte_store, if_pos ⟨by omega, by rw [length_splitLanes]; omega⟩]
  have e : i + j - i = j := by omega
  rw [e, ← h]

/-- A buffer store of the lanes of a word, outside the stored bytes (R45). -/
theorem Buffer.byte_store_lanes_ne (b : Buffer) (i n x : Nat) (v : Word) (hx : x < i ∨ i + n ≤ x) :
    (b.store i (splitLanes n v)).byte x = b.byte x := by
  rw [Buffer.byte_store, length_splitLanes, if_neg (by omega)]

/-- Lane j of what a buffer read returns (R45). -/
theorem joinLanes_bytes (f : Nat → Byte) {n j : Nat} (hj : j < n) (hn : n ≤ 4) :
    (joinLanes ((List.range n).map f)).extractLsb' (8 * j) 8 = f j := by
  rw [joinLanes_lane _ (by omega)]
  simp [List.getD, hj]

/-! ### NODE words (R50) -/

theorem Node.word0_toNat (n : Node) : (n.word 0).toNat = n.weight.toNat % 2 ^ 32 := by simp [Node.word]

theorem Node.word1_toNat (n : Node) : (n.word 1).toNat = n.weight.toNat / 2 ^ 32 := by
  have h := n.weight.isLt
  simp only [Node.word, BitVec.zeroExtend, BitVec.toNat_setWidth, BitVec.extractLsb'_toNat, Nat.shiftRight_eq_div_pow]
  omega

theorem Node.word2_toNat (n : Node) : (n.word 2).toNat = n.kind.code.toNat + 256 * n.sym.toNat := by
  simp only [Node.word, toNat_append_add]
  simp
  omega

theorem Node.word3_toNat (n : Node) : (n.word 3).toNat = n.left.toNat + 65536 * n.right.toNat := by
  simp only [Node.word, toNat_append_add]
  simp
  omega

/-! ### CODE words (R51) -/

/-- Bit 31 − j of CODE word k is CODE[32k + j] (R51). -/
theorem codeWord_bit (c : BitVec 256) {k j : Nat} (hk : k < 8) (hj : j < 32) :
    (codeWord c k).getLsbD (31 - j) = c.getMsbD (32 * k + j) := by
  have h1 : 31 - j < 32 := by omega
  have h2 : 32 * k + j < 256 := by omega
  have h3 : 224 - 32 * k + (31 - j) = 256 - 1 - (32 * k + j) := by omega
  simp [codeWord, BitVec.getMsbD, h1, h2, h3]

/-- What replacing CODE word k does to code element i (R51). -/
theorem setCodeWord_bit (c : BitVec 256) {k i : Nat} (v : Word) (hk : k < 8) (hi : i < 256) :
    (setCodeWord c k v).getMsbD i = if i / 32 = k then v.getLsbD (31 - i % 32) else c.getMsbD i := by
  have h255 : 255 - i < 256 := by omega
  simp only [BitVec.getMsbD, hi, decide_true, Bool.true_and, setCodeWord, BitVec.getLsbD_or, BitVec.getLsbD_and,
    BitVec.getLsbD_not, BitVec.getLsbD_shiftLeft, h255, BitVec.zeroExtend, BitVec.getLsbD_setWidth,
    BitVec.getLsbD_allOnes, show 256 - 1 - i = 255 - i from rfl]
  by_cases h : i / 32 = k
  · have h1 : ¬ 255 - i < 224 - 32 * k := by omega
    have h2 : 255 - i - (224 - 32 * k) < 32 := by omega
    have h3 : 255 - i - (224 - 32 * k) = 31 - i % 32 := by omega
    have h4 : 255 - i - (224 - 32 * k) < 256 := by omega
    rw [if_pos h]
    simp only [h1, h2, h4, decide_true, decide_false, Bool.not_false, Bool.true_and, Bool.not_true, Bool.and_false,
      Bool.false_or]
    rw [h3]
  · rw [if_neg h]
    by_cases h1 : 255 - i < 224 - 32 * k
    · simp [h1]
    · have h2 : ¬ 255 - i - (224 - 32 * k) < 32 := by omega
      have h3 : v.getLsbD (255 - i - (224 - 32 * k)) = false := BitVec.getLsbD_of_ge _ _ (by omega)
      simp [h1, h2, h3]

/-- Reading a CODE word that was just written (R51). -/
theorem codeWord_setCodeWord (c : BitVec 256) {k : Nat} (v : Word) (hk : k < 8) :
    codeWord (setCodeWord c k v) k = v := by
  apply BitVec.eq_of_getLsbD_eq
  intro i hi
  have h := codeWord_bit (setCodeWord c k v) hk (show 31 - i < 32 by omega)
  have e : 31 - (31 - i) = i := by omega
  have e2 : (32 * k + (31 - i)) / 32 = k := by omega
  have e3 : 31 - (32 * k + (31 - i)) % 32 = i := by omega
  rw [e, setCodeWord_bit c v hk (by omega), if_pos e2, e3] at h
  exact h

/-! ### Accesses -/

/-- The register at its offset. -/
theorem Reg.at?_offset (r : Reg) : Reg.at? r.offset = some r := by cases r <;> rfl

/-- Every aligned offset below 0x40 has a register (R41). -/
theorem Reg.at?_isSome {a : Nat} (h : a % 4 = 0) (h2 : a < 0x40) : (Reg.at? a).isSome = true := by
  have hk : ∀ k, k < 16 → (Reg.at? (4 * k)).isSome = true := by decide
  have h3 := hk (a / 4) (by omega)
  rwa [show 4 * (a / 4) = a by omega] at h3

/-- A word access at word k of FREQ[b] (R49). -/
theorem target_freq (p : Params) {b : Nat} (hb : b < 256) :
    target p (BitVec.ofNat 22 (0x1000 + 4 * b)).toNat 4 = some (.freq b) := by
  have e : (BitVec.ofNat 22 (0x1000 + 4 * b)).toNat = 0x1000 + 4 * b := by simp; omega
  rw [e, target, if_pos (by omega), if_pos ⟨rfl, by omega⟩, if_neg (by omega), if_pos (by omega)]
  congr 2
  omega

/-- A word access at word k of NODE[h] (R50). -/
theorem target_node (p : Params) {h k : Nat} (hh : h < 511) (hk : k < 4) :
    target p (BitVec.ofNat 22 (0x2000 + 16 * h + 4 * k)).toNat 4 = some (.node h k) := by
  have e : (BitVec.ofNat 22 (0x2000 + 16 * h + 4 * k)).toNat = 0x2000 + 16 * h + 4 * k := by simp; omega
  rw [e, target, if_pos (by omega), if_pos ⟨rfl, by omega⟩, if_neg (by omega), if_neg (by omega), if_pos (by omega)]
  congr 2 <;> omega

/-- A word access at word k of CB[b] (R51). -/
theorem target_cb (p : Params) {b k : Nat} (hb : b < 256) (hk : k < 16) :
    target p (BitVec.ofNat 22 (0x4000 + 64 * b + 4 * k)).toNat 4 = some (.cb b k) := by
  have e : (BitVec.ofNat 22 (0x4000 + 64 * b + 4 * k)).toNat = 0x4000 + 64 * b + 4 * k := by simp; omega
  rw [e, target, if_pos (by omega), if_pos ⟨rfl, by omega⟩, if_neg (by omega), if_neg (by omega), if_neg (by omega),
    if_pos (by omega)]
  congr 2 <;> omega

/-- A read of a mapped target in IDLE (R54). -/
theorem State.access_read_idle {s : State} {a : Offset} {n : Width} {t : Target} (hr : s.rst = false)
    (hp : s.phase = .idle) (ht : target s.params a.toNat n.bytes = some t) :
    s.access (.read a n) = { s with resp := some ⟨true, s.targetValue n.bytes t⟩ } := by
  have hb := (s.busy_eq_false_iff).mpr hp
  simp [State.access, hr, Access.target?, ht, State.readAccess, hb]

/-- A write of a mapped target in IDLE (R53). -/
theorem State.access_write_idle {s : State} {a : Offset} {n : Width} {t : Target} {v : Word} (hr : s.rst = false)
    (hp : s.phase = .idle) (ht : target s.params a.toNat n.bytes = some t) :
    s.access (.write a n v) = { s.writeTarget n.bytes v t with resp := some ⟨true, 0⟩ } := by
  have hb := (s.busy_eq_false_iff).mpr hp
  simp [State.access, hr, Access.target?, ht, State.writeAccess, hb]

end Sys2Proof.Machine
end

