-- ==== Sys2Proof/Laws/Operands.lean ====
section
/-! SUPPORT. The implicit operands: code entries and their bit-strings (R36, R92, R94), stream bits (R52), packed bytes and
pad counts (R99, R100), matches and the least duplicate pair (R95, R106). -/

namespace Sys2Proof.Machine

/-! ### Code entries (R36, R92) -/

/-- Code element i of the entry made from the path `p` is p[i], 0 beyond (R92). -/
theorem codeOfBits_bit (p : Bits) {i : Nat} (hi : i < 256) : (codeOfBits p).getMsbD i = p.getD i false := by
  induction p generalizing i with
  | nil => simp [codeOfBits]
  | cons b p ih =>
    have hb : (if b then BitVec.twoPow 256 255 else 0).getMsbD i = (decide (i = 0) && b) := by
      cases b
      · simp
      · simp only [if_true, BitVec.getMsbD, BitVec.getLsbD_twoPow, hi, decide_true, Bool.true_and, Bool.and_true]
        rw [show decide (255 < 256) = true from rfl, Bool.true_and, decide_eq_decide]
        omega
    unfold codeOfBits
    rw [BitVec.getMsbD_or, hb, BitVec.getMsbD_ushiftRight]
    cases i with
    | zero => simp
    | succ i =>
      rw [List.getD_cons_succ, ← ih (by omega)]
      have h1 : i + 1 < 256 := hi
      simp [h1]

/-- The entry made from a path of up to 255 edges holds the path (R92). -/
theorem bits_ofBits {p : Bits} (h : p.length ≤ 255) : (CodeEntry.ofBits p).bits = p := by
  have hl : (BitVec.ofNat 8 p.length).toNat = p.length := by
    rw [BitVec.toNat_ofNat, Nat.mod_eq_of_lt (by omega)]
  apply List.ext_getElem
  · simp [CodeEntry.bits, CodeEntry.ofBits, hl]
  · intro i h1 h2
    simp only [CodeEntry.bits, CodeEntry.ofBits, List.getElem_map, List.getElem_range]
    rw [codeOfBits_bit p (by omega), List.getD_eq_getElem _ _ h2]

/-- R94 on the entry made from a path of 1 to 255 edges. -/
theorem codeOf_ofBits {p : Bits} (h1 : 1 ≤ p.length) (h2 : p.length ≤ 255) : (CodeEntry.ofBits p).codeOf = some p := by
  have hl : ¬ BitVec.ofNat 8 p.length = 0#8 := by
    intro e
    have := congrArg BitVec.toNat e
    rw [BitVec.toNat_ofNat, Nat.mod_eq_of_lt (by omega)] at this
    simp at this
    rw [this] at h1
    simp at h1
  rw [CodeEntry.codeOf, if_neg (by exact hl), bits_ofBits h2]

theorem CodeEntry.length_bits (e : CodeEntry) : e.bits.length = e.len.toNat := by simp [CodeEntry.bits]

/-- A code has 1 to 255 bits, LEN of them (R94). -/
theorem CodeEntry.codeOf_length {e : CodeEntry} {c : Bits} (h : e.codeOf = some c) :
    c.length = e.len.toNat ∧ 1 ≤ c.length ∧ c.length ≤ 255 := by
  unfold CodeEntry.codeOf at h
  split at h
  · cases h
  · next hl =>
    obtain rfl := Option.some.inj h
    rw [CodeEntry.length_bits]
    have := e.len.isLt
    have hne : e.len.toNat ≠ 0 := fun c => hl (BitVec.eq_of_toNat_eq c)
    omega

/-- LEN = 0 is absence (R94). -/
theorem CodeEntry.codeOf_eq_none {e : CodeEntry} : e.codeOf = none ↔ e.len = 0#8 := by
  unfold CodeEntry.codeOf
  split <;> simp_all

theorem Memory.codeOf_length {m : Memory} {b : Nat} {c : Bits} (h : m.codeOf b = some c) :
    c.length = (m.cbAt b).len.toNat ∧ 1 ≤ c.length ∧ c.length ≤ 255 := CodeEntry.codeOf_length h

/-- A code is never empty (R94). -/
theorem Memory.codeOf_ne_nil {m : Memory} {b : Nat} {c : Bits} (h : m.codeOf b = some c) : c ≠ [] := by
  have := (Memory.codeOf_length h).2.1
  rintro rfl
  simp at this

/-! ### Matches and the inverse (R95, R106) -/

theorem mem_matchesOf {cb : Table CodeEntry} {s : Bits} {b : Nat} :
    b ∈ Codebook.matchesOf cb s ↔ b < 256 ∧ Codebook.codeOf cb b = some s := by
  simp [Codebook.matchesOf, Config.nSym]

/-- R95: no byte value has the code: no inverse. -/
theorem inverse_none {cb : Table CodeEntry} {s : Bits} (h : ∀ b, b < 256 → Codebook.codeOf cb b ≠ some s) :
    Codebook.inverse cb s = none := by
  have : Codebook.matchesOf cb s = [] := by
    rw [List.eq_nil_iff_forall_not_mem]
    exact fun b hb => h b (mem_matchesOf.mp hb).1 (mem_matchesOf.mp hb).2
  rw [Codebook.inverse, this]

/-- R95: the only byte value with the code is the inverse. -/
theorem inverse_some {cb : Table CodeEntry} {s : Bits} {b : Nat} (hb : b < 256) (h : Codebook.codeOf cb b = some s)
    (hu : ∀ b', b' < 256 → Codebook.codeOf cb b' = some s → b' = b) :
    Codebook.inverse cb s = some (BitVec.ofNat 8 b) := by
  have hm : Codebook.matchesOf cb s = [b] := by
    have hnd : (Codebook.matchesOf cb s).Nodup := List.Nodup.filter _ List.nodup_range
    have hall : ∀ x, x ∈ Codebook.matchesOf cb s ↔ x = b := by
      intro x
      rw [mem_matchesOf]
      exact ⟨fun hx => hu x hx.1 hx.2, by rintro rfl; exact ⟨hb, h⟩⟩
    match hl : Codebook.matchesOf cb s with
    | [] =>
      have := (hall b).mpr rfl
      rw [hl] at this
      cases this
    | [x] =>
      have := (hall x).mp (by rw [hl]; simp)
      rw [this]
    | x :: y :: l =>
      have hx := (hall x).mp (by rw [hl]; simp)
      have hy := (hall y).mp (by rw [hl]; simp)
      rw [hl, hx, hy] at hnd
      simp at hnd
  rw [Codebook.inverse, hm]

/-- Everything an inverse can be (R95). -/
theorem inverse_eq_some {cb : Table CodeEntry} {s : Bits} {v : Byte} (h : Codebook.inverse cb s = some v) :
    Codebook.codeOf cb v.toNat = some s := by
  unfold Codebook.inverse at h
  split at h
  · next b hm =>
    obtain rfl := Option.some.inj h
    have hb := mem_matchesOf.mp (by rw [hm]; exact List.mem_singleton_self b)
    rw [BitVec.toNat_ofNat, Nat.mod_eq_of_lt hb.1]
    exact hb.2
  · cases h

/-- R106: no duplicate pair when no two byte values share a code. -/
theorem dupPair_none {cb : Table CodeEntry}
    (h : ∀ b b', b < b' → b' < 256 → ∀ c, Codebook.codeOf cb b = some c → Codebook.codeOf cb b' ≠ some c) :
    Codebook.dupPair cb = none := by
  rw [Codebook.dupPair, List.findSome?_eq_none_iff]
  intro b hb
  cases hc : Codebook.codeOf cb b with
  | none => rfl
  | some c =>
    simp only [Option.map_eq_none_iff, List.find?_eq_none, List.mem_range, Bool.and_eq_true, decide_eq_true_eq,
      beq_iff_eq, not_and]
    intro b' hb' hlt
    exact h b b' hlt hb' c hc

/-- R106: without a duplicate pair no two byte values share a code. -/
theorem dupPair_eq_none {cb : Table CodeEntry} (h : Codebook.dupPair cb = none) {b b' : Nat} (hlt : b < b')
    (hb' : b' < 256) {c : Bits} (hc : Codebook.codeOf cb b = some c) : Codebook.codeOf cb b' ≠ some c := by
  rw [Codebook.dupPair, List.findSome?_eq_none_iff] at h
  have h1 := h b (by simp [Config.nSym]; omega)
  rw [hc] at h1
  simp only [Option.map_eq_none_iff, List.find?_eq_none, List.mem_range, Bool.and_eq_true, decide_eq_true_eq,
    beq_iff_eq, not_and] at h1
  exact h1 b' hb' hlt

/-- R106: the pair with the least b and, for it, the least b′. -/
theorem dupPair_some {cb : Table CodeEntry} {b b' : Nat} {c : Bits} (hlt : b < b') (hb' : b' < 256)
    (hc : Codebook.codeOf cb b = some c) (hc' : Codebook.codeOf cb b' = some c)
    (hmin : ∀ x x', x < b → x < x' → x' < 256 → ∀ d, Codebook.codeOf cb x = some d → Codebook.codeOf cb x' ≠ some d)
    (hmin' : ∀ x', b < x' → x' < b' → Codebook.codeOf cb x' ≠ some c) : Codebook.dupPair cb = some (b, b') := by
  have hfind : (List.range Config.nSym).find?
      (fun x => decide (b < x) && (Codebook.codeOf cb x == some c)) = some b' := by
    rw [List.find?_range_eq_some]
    refine ⟨by simp [hlt, hc'], by simpa [Config.nSym] using hb', fun j hj => ?_⟩
    by_cases h : b < j
    · simp [hmin' j h hj]
    · simp [h]
  have hsplit : List.range Config.nSym = List.range b ++ (b :: List.range' (b + 1) (255 - b)) := by
    rw [List.range_eq_range', List.range_eq_range', ← List.range'_succ]
    have e : Config.nSym = b + (255 - b + 1) := by simp [Config.nSym]; omega
    rw [e, ← List.range'_append]
    simp
  unfold Codebook.dupPair
  rw [hsplit, List.findSome?_append, Option.or_eq_some_iff]
  refine .inr ⟨?_, ?_⟩
  · rw [List.findSome?_eq_none_iff]
    intro x hx
    rw [List.mem_range] at hx
    cases hd : Codebook.codeOf cb x with
    | none => rfl
    | some d =>
      simp only [← hsplit, Option.map_eq_none_iff, List.find?_eq_none, List.mem_range, Bool.and_eq_true,
        decide_eq_true_eq, beq_iff_eq, not_and]
      intro x' hx' hlt'
      exact hmin x x' hx hlt' hx' d hd
  · rw [List.findSome?_cons, hc]
    dsimp only
    rw [← hsplit, hfind]
    rfl

/-! ### Stream bits and packed bytes (R52, R99, R100) -/

theorem bitByte_toNat_lt (t : Bits) (k : Nat) : (bitByte t k).toNat < 2 := by
  unfold bitByte
  split <;> decide

/-- Bit 7 − i of packed byte j is bit 8j + i of the padded stream, 0 beyond its end (R99, R52). -/
theorem packByte_bit (t : Bits) (j : Nat) {i : Nat} (hi : i < 8) :
    (packByte t j).getLsbD (7 - i) = t.getD (8 * j + i) false := by
  have key : ∀ k n, n < 8 → (bitByte t k <<< n).getLsbD (7 - i) = (decide (7 - i = n) && t.getD k false) := by
    intro k n hn
    have h7 : 7 - i < 8 := by omega
    rw [BitVec.getLsbD_shiftLeft]
    unfold bitByte
    split
    · next h =>
      rw [h, Bool.and_true]
      simp only [h7, decide_true, Bool.true_and, BitVec.getLsbD_one]
      by_cases e : 7 - i = n
      · simp [e]
      · by_cases l : 7 - i < n
        · simp [l, e]
        · have : ¬ 7 - i - n = 0 := by omega
          simp [l, e, this]
    · next h =>
      have : t.getD k false = false := by simpa using h
      rw [this]
      simp
  have k0 := key (8 * j + 7) 0 (by decide)
  rw [BitVec.shiftLeft_zero] at k0
  unfold packByte
  simp only [BitVec.getLsbD_or]
  rw [key _ 7 (by decide), key _ 6 (by decide), key _ 5 (by decide), key _ 4 (by decide), key _ 3 (by decide),
    key _ 2 (by decide), key _ 1 (by decide), k0]
  have : i = 0 ∨ i = 1 ∨ i = 2 ∨ i = 3 ∨ i = 4 ∨ i = 5 ∨ i = 6 ∨ i = 7 := by omega
  rcases this with rfl | rfl | rfl | rfl | rfl | rfl | rfl | rfl <;> simp

@[simp] theorem length_packBytes (t : Bits) : (packBytes t).length = t.length / 8 := by simp [packBytes]

/-- R100: the pad count brings a bit count to whole bytes. -/
theorem padCount_spec (n : Nat) : padCount n < 8 ∧ (n + padCount n) % 8 = 0 ∧ n + padCount n = 8 * ((n + 7) / 8) := by
  unfold padCount
  omega

/-- The bits of a byte sequence, one by one (R52). -/
theorem bitsOfBytes_length (bs : List Byte) : (bitsOfBytes bs).length = 8 * bs.length := by
  induction bs with
  | nil => rfl
  | cons b bs ih =>
    simp only [bitsOfBytes, List.flatMap_cons, List.length_append] at ih ⊢
    rw [ih]
    simp [bitsOfByte]
    omega

/-- Stream bit k of a byte sequence (R52). -/
theorem bitsOfBytes_getD (bs : List Byte) (k : Nat) (hk : k < 8 * bs.length) :
    (bitsOfBytes bs).getD k false = (bs.getD (k / 8) 0).getLsbD (7 - k % 8) := by
  induction bs generalizing k with
  | nil => simp at hk
  | cons b bs ih =>
    have e : bitsOfBytes (b :: bs) = bitsOfByte b ++ bitsOfBytes bs := rfl
    have l8 : (bitsOfByte b).length = 8 := by simp [bitsOfByte]
    rw [e]
    by_cases h : k < 8
    · have h1 : k / 8 = 0 := by omega
      have h2 : k % 8 = k := by omega
      rw [List.getD_append _ _ _ _ (by omega), h1, h2, List.getD_cons_zero, List.getD_eq_getElem _ _ (by omega)]
      simp [bitsOfByte, BitVec.getMsbD, h]
    · have h1 : k / 8 = (k - 8) / 8 + 1 := by omega
      have h2 : k % 8 = (k - 8) % 8 := by omega
      rw [List.getD_append_right _ _ _ _ (by omega), l8, ih (k - 8) (by simp at hk; omega), h1, h2,
        List.getD_cons_succ]

/-- Stream bit k of a buffer, as a bit of its first n bytes (R52). -/
theorem bitsOfBytes_bytes (b : Buffer) (n k : Nat) (hk : k < 8 * n) :
    (bitsOfBytes (b.bytes n)).getD k false = streamBit b.byte k := by
  rw [bitsOfBytes_getD _ _ (by simpa using hk), Buffer.getD_bytes b (by omega)]
  rfl

end Sys2Proof.Machine
end

