-- ==== Sys2Proof/Laws/Codebook.lean ====
section
/-! SUPPORT. What GENCB's walk does (43_codebook.md R92), and what the shape of R87 says about paths in the tree (R87, R89,
R92, R96). -/

namespace Sys2Proof.Machine

/-! ### Following paths -/

@[simp] theorem Memory.follow_nil (m : Memory) (h : Nat) : m.follow h [] = some h := rfl

theorem Memory.follow_cons (m : Memory) (h : Nat) (b : Bool) (p : Bits) :
    m.follow h (b :: p) = if (m.nodeAt h).kind = .internal then m.follow ((m.nodeAt h).child b) p else none := rfl

theorem Memory.follow_append (m : Memory) (h : Nat) (p q : Bits) :
    m.follow h (p ++ q) = (m.follow h p).bind fun g => m.follow g q := by
  induction p generalizing h with
  | nil => rfl
  | cons b p ih =>
    rw [List.cons_append, Memory.follow_cons, Memory.follow_cons]
    split
    · exact ih _
    · rfl

/-- The last edge of a path. -/
theorem Memory.follow_snoc {m : Memory} {h g : Nat} {p : Bits} {b : Bool} (e : m.follow h (p ++ [b]) = some g) :
    ∃ g', m.follow h p = some g' ∧ (m.nodeAt g').kind = .internal ∧ (m.nodeAt g').child b = g := by
  rw [Memory.follow_append] at e
  cases hg : m.follow h p with
  | none =>
    rw [hg] at e
    cases e
  | some g' =>
    rw [hg, Option.bind_some, Memory.follow_cons] at e
    split at e
    · next hk => exact ⟨g', rfl, hk, Option.some.inj e⟩
    · cases e

/-- A path from a node that is not internal is empty. -/
theorem Memory.follow_stop {m : Memory} {h g : Nat} {p : Bits} (hk : (m.nodeAt h).kind ≠ .internal)
    (e : m.follow h p = some g) : p = [] ∧ g = h := by
  cases p with
  | nil => exact ⟨rfl, (Option.some.inj e).symm⟩
  | cons b p =>
    rw [Memory.follow_cons, if_neg hk] at e
    cases e

/-- The paths below an internal node are those below its children (R92). -/
theorem Memory.leafPath_internal {m : Memory} {h b : Nat} (hk : (m.nodeAt h).kind = .internal) (q : Bits) :
    m.LeafPath h b q ↔ ∃ e p, q = e :: p ∧ m.LeafPath ((m.nodeAt h).child e) b p := by
  constructor
  · rintro ⟨g, hf, hl, hs⟩
    cases q with
    | nil =>
      obtain rfl := Option.some.inj hf
      rw [hk] at hl
      cases hl
    | cons e p =>
      rw [Memory.follow_cons, if_pos hk] at hf
      exact ⟨e, p, rfl, g, hf, hl, hs⟩
  · rintro ⟨e, p, rfl, g, hf, hl, hs⟩
    exact ⟨g, by rw [Memory.follow_cons, if_pos hk]; exact hf, hl, hs⟩

/-- The only path from a leaf is the empty one (R92). -/
theorem Memory.leafPath_leaf {m : Memory} {h b : Nat} (hk : (m.nodeAt h).kind = .leaf) (q : Bits) :
    m.LeafPath h b q ↔ q = [] ∧ (m.nodeAt h).sym.toNat = b := by
  constructor
  · rintro ⟨g, hf, -, hs⟩
    obtain ⟨rfl, rfl⟩ := Memory.follow_stop (by rw [hk]; decide) hf
    exact ⟨rfl, hs⟩
  · rintro ⟨rfl, hs⟩
    exact ⟨h, rfl, hk, hs⟩

/-- No path leads from an unused or a phantom node to a leaf. -/
theorem Memory.leafPath_none {m : Memory} {h b : Nat} (h1 : (m.nodeAt h).kind ≠ .internal)
    (h2 : (m.nodeAt h).kind ≠ .leaf) (q : Bits) : ¬ m.LeafPath h b q := by
  rintro ⟨g, hf, hl, -⟩
  obtain ⟨rfl, rfl⟩ := Memory.follow_stop h1 hf
  exact h2 hl

/-! ### The walk (R92) -/

/-- The walk keeps the codebook canonical. -/
theorem walk_canonical (nodes : Table Node) (fuel h : Nat) (p : Bits) (e : Table CodeEntry)
    (he : Table.canonical CodeEntry.empty Config.nSym e = true) :
    Table.canonical CodeEntry.empty Config.nSym (walk nodes fuel h p e) = true := by
  induction fuel generalizing h p e with
  | zero => exact he
  | succ fuel ih =>
    unfold walk
    dsimp only
    split
    · exact Table.canonical_set _ _ _ (BitVec.isLt _) he
    · exact he
    · exact ih _ _ _ (ih _ _ _ he)
    · exact he

/-- Everything the walk from h with path p does to the entry of byte value b (R92): when paths lead from h to its leaf it
takes the entry of one of them, behind p; otherwise it keeps its value. -/
theorem walk_spec (m : Memory) (hlt : ∀ h b, (m.nodeAt h).kind = .internal → (m.nodeAt h).child b < h)
    (fuel h : Nat) (p : Bits) (e : Table CodeEntry) (he : Table.canonical CodeEntry.empty Config.nSym e = true)
    (hf : h < fuel) (b : Nat) :
    (∃ q, m.LeafPath h b q ∧
      Table.get CodeEntry.empty (walk m.node fuel h p e) b = CodeEntry.ofBits (p ++ q)) ∨
    ((∀ q, ¬ m.LeafPath h b q) ∧
      Table.get CodeEntry.empty (walk m.node fuel h p e) b = Table.get CodeEntry.empty e b) := by
  induction fuel generalizing h p e with
  | zero => omega
  | succ fuel ih =>
    have hn : Table.get Node.empty m.node h = m.nodeAt h := rfl
    unfold walk
    dsimp only
    rw [hn]
    cases hk : (m.nodeAt h).kind with
    | unused =>
      dsimp only
      exact .inr ⟨Memory.leafPath_none (by rw [hk]; decide) (by rw [hk]; decide), rfl⟩
    | phantom =>
      dsimp only
      exact .inr ⟨Memory.leafPath_none (by rw [hk]; decide) (by rw [hk]; decide), rfl⟩
    | leaf =>
      dsimp only
      rw [Table.get_set _ _ _ _ _ (Table.canonical_sorted he)]
      by_cases hb : b = (m.nodeAt h).sym.toNat
      · rw [if_pos hb]
        exact .inl ⟨[], (Memory.leafPath_leaf hk []).mpr ⟨rfl, hb.symm⟩, by rw [List.append_nil]⟩
      · rw [if_neg hb]
        exact .inr ⟨fun q hq => hb ((Memory.leafPath_leaf hk q).mp hq).2.symm, rfl⟩
    | internal =>
      dsimp only
      have hl : (m.nodeAt h).left.toNat < fuel := by
        have := hlt h false hk
        simp only [Node.child, Bool.false_eq_true, if_false] at this
        omega
      have hr : (m.nodeAt h).right.toNat < fuel := by
        have := hlt h true hk
        simp only [Node.child, if_true] at this
        omega
      have hleft := ih (m.nodeAt h).left.toNat (p ++ [false]) e he hl
      have hright := ih (m.nodeAt h).right.toNat (p ++ [true])
        (walk m.node fuel (m.nodeAt h).left.toNat (p ++ [false]) e) (walk_canonical _ _ _ _ _ he) hr
      rcases hright with ⟨q, hq, h1⟩ | ⟨hno, h1⟩
      · refine .inl ⟨true :: q, (Memory.leafPath_internal hk _).mpr ⟨true, q, rfl, hq⟩, ?_⟩
        rw [h1, List.append_assoc]
        rfl
      · rcases hleft with ⟨q, hq, h2⟩ | ⟨hno2, h2⟩
        · refine .inl ⟨false :: q, (Memory.leafPath_internal hk _).mpr ⟨false, q, rfl, hq⟩, ?_⟩
          rw [h1, h2, List.append_assoc]
          rfl
        · refine .inr ⟨fun q hq => ?_, by rw [h1, h2]⟩
          obtain ⟨e', p', -, hp'⟩ := (Memory.leafPath_internal hk _).mp hq
          cases e'
          · exact hno2 p' hp'
          · exact hno p' hp'

/-! ### Paths in the tree of R87 -/

/-- Every path from h goes down: it has at most as many edges as there are handles below h. -/
theorem State.TreeInv.follow_lt {s : State} (ht : s.TreeInv) {h g : Nat} {p : Bits} (e : s.mem.follow h p = some g) :
    g + p.length ≤ h := by
  induction p generalizing h with
  | nil =>
    obtain rfl := Option.some.inj e
    simp
  | cons b p ih =>
    rw [Memory.follow_cons] at e
    split at e
    · next hk =>
      have h1 := ih e
      have h2 := ht.child_lt h b hk
      rw [List.length_cons]
      omega
    · cases e

/-- An internal node lies among the handles NLEAF .. NNODE − 1 (R87). -/
theorem State.TreeInv.internal_range {s : State} (ht : s.TreeInv) {h : Nat}
    (hk : (s.mem.nodeAt h).kind = .internal) : s.nleaf.toNat ≤ h ∧ h < s.nnode.toNat := by
  constructor
  · by_contra hc
    rw [ht.leaf h (by omega)] at hk
    cases hk
  · by_contra hc
    rw [ht.beyond h (by omega)] at hk
    cases hk

/-- ROOT is the last handle (R87). -/
theorem State.TreeInv.root_toNat {s : State} (ht : s.TreeInv) (hn : s.nnode.toNat ≠ 0) :
    s.root.toNat = s.nnode.toNat - 1 := by
  have h1 := ht.nnode_eq
  have h2 := ht.nleaf_le
  rw [ht.root_eq, if_neg hn, BitVec.toNat_ofNat, Nat.mod_eq_of_lt]
  split at h1 <;> [skip; split at h1] <;> omega

/-- A leaf lies among the handles below NLEAF (R87). -/
theorem State.TreeInv.leaf_range {s : State} (ht : s.TreeInv) {h : Nat} (hk : (s.mem.nodeAt h).kind = .leaf) :
    h < s.nleaf.toNat := by
  by_contra hc
  by_cases hb : s.nnode.toNat ≤ h
  · rw [ht.beyond h hb] at hk
    cases hk
  · have h1 := ht.nnode_eq
    by_cases h2 : s.nleaf.toNat = 1 ∧ h ≠ 2
    · have h3 : h = 1 := by
        rw [if_neg (by omega), if_pos h2.1] at h1
        omega
      rw [h3, ht.phantom h2.1] at hk
      cases hk
    · rw [ht.internal h (by omega) (by omega) (fun c => by omega)] at hk
      cases hk

/-- R92: two paths from one node to one node are the same. -/
theorem State.TreeInv.path_unique {s : State} (ht : s.TreeInv) {h g : Nat} {p q : Bits}
    (hp : s.mem.follow h p = some g) (hq : s.mem.follow h q = some g) : p = q := by
  induction p using List.reverseRecOn generalizing g q with
  | nil =>
    obtain rfl := Option.some.inj hp
    have := ht.follow_lt hq
    exact (List.length_eq_zero_iff.mp (by omega)).symm
  | append_singleton p b ih =>
    have hpl := ht.follow_lt hp
    rw [List.length_append, List.length_singleton] at hpl
    obtain ⟨g1, hp1, hk1, hc1⟩ := Memory.follow_snoc hp
    have hne : q ≠ [] := by
      rintro rfl
      have := Option.some.inj hq
      omega
    obtain ⟨q', b', rfl⟩ : ∃ q' b', q = q' ++ [b'] :=
      ⟨q.dropLast, q.getLast hne, (List.dropLast_append_getLast hne).symm⟩
    obtain ⟨g2, hq1, hk2, hc2⟩ := Memory.follow_snoc hq
    have hchild : ∀ x e, (s.mem.nodeAt x).kind = .internal → (s.mem.nodeAt x).child e = g → s.mem.IsChild x g := by
      intro x e hk hc
      cases e
      · exact ⟨hk, .inl hc⟩
      · exact ⟨hk, .inr hc⟩
    have hlt := ht.child_lt g1 b hk1
    have hr1 := ht.internal_range hk1
    obtain ⟨x, -, hx⟩ := ht.one_parent g (by omega)
    have e1 := hx g1 (hchild g1 b hk1 hc1)
    have e2 := hx g2 (hchild g2 b' hk2 hc2)
    have e3 : g2 = g1 := e2.trans e1.symm
    rw [e3] at hq1 hc2
    have hpq := ih hp1 hq1
    have hd := ht.children_differ g1 hk1
    have hbb : b = b' := by
      cases b <;> cases b' <;> simp only [Node.child, Bool.false_eq_true, if_false, if_true] at hc1 hc2
      · rfl
      · exact absurd (BitVec.eq_of_toNat_eq (hc1.trans hc2.symm)) hd
      · exact absurd (BitVec.eq_of_toNat_eq (hc2.trans hc1.symm)) hd
      · rfl
    rw [hpq, hbb]

/-- R87: two leaves of one byte value are one leaf. -/
theorem State.TreeInv.leaf_unique {s : State} (ht : s.TreeInv) {g h : Nat} (hg : (s.mem.nodeAt g).kind = .leaf)
    (hh : (s.mem.nodeAt h).kind = .leaf) (e : (s.mem.nodeAt g).sym.toNat = (s.mem.nodeAt h).sym.toNat) : g = h := by
  have lg := ht.leaf_range hg
  have lh := ht.leaf_range hh
  rcases Nat.lt_trichotomy g h with c | c | c
  · have := ht.syms_rise g h c lh
    rw [BitVec.lt_def] at this
    omega
  · exact c
  · have := ht.syms_rise h g c lg
    rw [BitVec.lt_def] at this
    omega

/-- R92: at most one path leads from ROOT to the leaf of a byte value. -/
theorem State.TreeInv.leafPath_unique {s : State} (ht : s.TreeInv) {h b : Nat} {p q : Bits}
    (hp : s.mem.LeafPath h b p) (hq : s.mem.LeafPath h b q) : p = q := by
  obtain ⟨g, f1, k1, s1⟩ := hp
  obtain ⟨g', f2, k2, s2⟩ := hq
  have := ht.leaf_unique k1 k2 (s1.trans s2.symm)
  rw [← this] at f2
  exact ht.path_unique f1 f2

/-- R87: every node below ROOT is reached from it. -/
theorem State.TreeInv.reached {s : State} (ht : s.TreeInv) {h : Nat} (hh : h < s.nnode.toNat) :
    ∃ p, s.mem.follow s.root.toNat p = some h := by
  have hr := ht.root_toNat (by omega)
  have key : ∀ n h, h + n + 1 = s.nnode.toNat → ∃ p, s.mem.follow s.root.toNat p = some h := by
    intro n
    induction n using Nat.strong_induction_on with
    | _ n ih =>
      intro h e
      by_cases hn : n = 0
      · exact ⟨[], by rw [hr, Memory.follow_nil]; congr 1; omega⟩
      · obtain ⟨g, ⟨hk, hc⟩, -⟩ := ht.one_parent h (by omega)
        have hg := (ht.internal_range hk).2
        have hlt : h < g := by
          have h1 := ht.child_lt g false hk
          have h2 := ht.child_lt g true hk
          simp only [Node.child, Bool.false_eq_true, if_false, if_true] at h1 h2
          rcases hc with c | c <;> omega
        obtain ⟨p, hp⟩ := ih (s.nnode.toNat - g - 1) (by omega) g (by omega)
        rcases hc with c | c
        · refine ⟨p ++ [false], ?_⟩
          rw [Memory.follow_append, hp, Option.bind_some, Memory.follow_cons, if_pos hk]
          simp [Node.child, c]
        · refine ⟨p ++ [true], ?_⟩
          rw [Memory.follow_append, hp, Option.bind_some, Memory.follow_cons, if_pos hk]
          simp [Node.child, c]
  exact key (s.nnode.toNat - h - 1) h (by omega)

/-- A path to a leaf passes internal nodes with falling handles, all of them at least NLEAF (R87, R89). -/
theorem State.TreeInv.leafPath_length {s : State} (ht : s.TreeInv) {h b : Nat} {p : Bits}
    (hp : s.mem.LeafPath h b p) (hk : (s.mem.nodeAt h).kind = .internal) :
    1 ≤ p.length ∧ s.nleaf.toNat + p.length ≤ h + 1 := by
  induction p generalizing h with
  | nil =>
    obtain ⟨g, hf, hl, -⟩ := hp
    obtain rfl := Option.some.inj hf
    rw [hk] at hl
    cases hl
  | cons e p ih =>
    obtain ⟨e', p', heq, hp'⟩ := (Memory.leafPath_internal hk _).mp hp
    obtain ⟨rfl, rfl⟩ := List.cons.inj heq
    have hlt := ht.child_lt h e hk
    rw [List.length_cons]
    by_cases hki : (s.mem.nodeAt ((s.mem.nodeAt h).child e)).kind = .internal
    · have := ih hp' hki
      omega
    · obtain ⟨g, hf, hl, -⟩ := hp'
      obtain ⟨rfl, rfl⟩ := Memory.follow_stop hki hf
      have := (ht.internal_range hk).1
      simp
      omega

/-! ### The codebook of a tree (R92) -/

/-- GENCB never fails and writes CB only (R92). -/
theorem gencbCommand_frame (s : State) :
    (gencbCommand s).verdict = .ok ∧
    (gencbCommand s).after = { s with mem := { s.mem with cb := s.treeCodebook } } := ⟨rfl, rfl⟩

/-- The codebook of a tree is canonical. -/
theorem State.treeCodebook_canonical (s : State) :
    Table.canonical CodeEntry.empty Config.nSym s.treeCodebook = true := by
  unfold State.treeCodebook
  split
  · rfl
  · exact walk_canonical _ _ _ _ _ rfl

/-- Everything GENCB does with a byte value of a tree (R92): the entry of its path, or the cleared entry. -/
theorem State.TreeInv.treeCodebook_spec {s : State} (ht : s.TreeInv) (b : Nat) :
    (∃ q, s.mem.LeafPath s.root.toNat b q ∧ Table.get CodeEntry.empty s.treeCodebook b = CodeEntry.ofBits q) ∨
    ((∀ q, ¬ s.mem.LeafPath s.root.toNat b q) ∧ Table.get CodeEntry.empty s.treeCodebook b = CodeEntry.empty) := by
  unfold State.treeCodebook
  by_cases hn : s.nnode = 0
  · rw [if_pos hn]
    refine .inr ⟨fun q => Memory.leafPath_none ?_ ?_ q, rfl⟩ <;>
      rw [ht.beyond _ (by rw [hn]; exact Nat.zero_le _)] <;> decide
  · rw [if_neg hn]
    have hn' : s.nnode.toNat ≠ 0 := fun c => hn (BitVec.eq_of_toNat_eq c)
    have h := walk_spec s.mem ht.child_lt s.nnode.toNat s.root.toNat [] [] rfl
      (by rw [ht.root_toNat hn']; omega) b
    simpa using h

/-- R87: with a tree, ROOT is an internal node. -/
theorem State.TreeInv.root_internal {s : State} (ht : s.TreeInv) (hn : s.nnode.toNat ≠ 0) :
    (s.mem.nodeAt s.root.toNat).kind = .internal := by
  have h1 := ht.nnode_eq
  have hr := ht.root_toNat hn
  refine ht.internal _ ?_ (by omega) (fun c => ?_)
  · split at h1 <;> [skip; split at h1] <;> omega
  · rw [if_neg (by omega), if_pos c] at h1
    omega

/-- R89: a path from ROOT to a leaf has 1 to max(1, NLEAF − 1) ≤ 255 edges. -/
theorem State.TreeInv.depth {s : State} (ht : s.TreeInv) {b : Nat} {p : Bits}
    (hp : s.mem.LeafPath s.root.toNat b p) :
    1 ≤ p.length ∧ p.length ≤ max 1 (s.nleaf.toNat - 1) ∧ p.length ≤ 255 := by
  have hn : s.nnode.toNat ≠ 0 := by
    intro c
    refine Memory.leafPath_none ?_ ?_ p hp <;> rw [ht.beyond _ (by omega)] <;> decide
  have h1 := ht.leafPath_length hp (ht.root_internal hn)
  have h2 := ht.nnode_eq
  have h3 := ht.root_toNat hn
  have h4 := ht.nleaf_le
  have h5 : s.nleaf.toNat = 1 → p.length ≤ 1 := by
    intro c
    have hr2 : s.root.toNat = 2 := by
      rw [if_neg (by omega), if_pos c] at h2
      omega
    obtain ⟨e, p', rfl, hp'⟩ := (Memory.leafPath_internal (ht.root_internal hn) p).mp hp
    have hlt := ht.child_lt _ e (ht.root_internal hn)
    have hki : (s.mem.nodeAt ((s.mem.nodeAt s.root.toNat).child e)).kind ≠ .internal := by
      intro hk
      have := (ht.internal_range hk).1
      have h1' : (s.mem.nodeAt s.root.toNat).child e = 1 := by omega
      rw [h1', ht.phantom c] at hk
      cases hk
    obtain ⟨g, hf, -, -⟩ := hp'
    obtain ⟨rfl, -⟩ := Memory.follow_stop hki hf
    simp
  split at h2
  · omega
  · split at h2
    · next c =>
      have := h5 c
      omega
    · omega

/-- The code GENCB gives a byte value of a tree is the path to its leaf (R92, R94). -/
theorem State.TreeInv.codeOf_treeCodebook {s : State} (ht : s.TreeInv) (b : Nat) (p : Bits) :
    Codebook.codeOf s.treeCodebook b = some p ↔ s.mem.LeafPath s.root.toNat b p := by
  unfold Codebook.codeOf
  rcases ht.treeCodebook_spec b with ⟨q, hq, h⟩ | ⟨hno, h⟩
  · have hd := ht.depth hq
    rw [h, codeOf_ofBits hd.1 hd.2.2]
    constructor
    · intro e
      rw [← Option.some.inj e]
      exact hq
    · intro hp
      rw [ht.leafPath_unique hp hq]
  · rw [h]
    constructor
    · intro e
      cases e
    · intro hp
      exact absurd hp (hno p)

end Sys2Proof.Machine
end

