-- ==== Sys2Proof/Laws/Frequency.lean ====
section
/-! SUPPORT. What counting does (41_frequency.md R78, R79). -/

namespace Sys2Proof.Machine

/-- One count keeps the canonical form. -/
theorem countOne_canonical {f : Table Word} (v : Byte) (h : Table.canonical 0#32 Config.nSym f = true) :
    Table.canonical 0#32 Config.nSym (countOne f v) = true :=
  Table.canonical_set _ f _ v.isLt h

/-- One count adds one to its own entry and keeps the others (R78). -/
theorem get_countOne {f : Table Word} (v : Byte) (b : Nat) (h : Table.canonical 0#32 Config.nSym f = true) :
    Table.get 0#32 (countOne f v) b = if b = v.toNat then Table.get 0#32 f b + 1#32 else Table.get 0#32 f b := by
  rw [countOne, Table.get_set _ _ _ _ _ (Table.canonical_sorted h)]
  split
  · next e => rw [e]
  · rfl

/-- A byte value as the 8 bits that have it. -/
theorem byte_eq_ofNat_iff {b : Nat} (hb : b < 256) (v : Byte) : v = BitVec.ofNat 8 b ↔ v.toNat = b := by
  constructor
  · rintro rfl
    simp [Nat.mod_eq_of_lt hb]
  · rintro rfl
    simp

/-- Counting from `f` on adds to each entry the number of times its byte value occurs, modulo 2^32 (R78). -/
theorem get_foldl_countOne (bs : List Byte) (f : Table Word) (h : Table.canonical 0#32 Config.nSym f = true) :
    Table.canonical 0#32 Config.nSym (bs.foldl countOne f) = true ∧
    ∀ b, b < 256 → Table.get 0#32 (bs.foldl countOne f) b =
      Table.get 0#32 f b + BitVec.ofNat 32 (bs.count (BitVec.ofNat 8 b)) := by
  induction bs generalizing f with
  | nil => exact ⟨h, by simp⟩
  | cons v bs ih =>
    obtain ⟨h1, h2⟩ := ih (countOne f v) (countOne_canonical v h)
    refine ⟨h1, fun b hb => ?_⟩
    rw [List.foldl_cons, h2 b hb, get_countOne v b h, List.count_cons]
    by_cases e : b = v.toNat
    · have e' : v = BitVec.ofNat 8 b := (byte_eq_ofNat_iff hb v).mpr e.symm
      rw [if_pos e, if_pos (by simp [e']), Nat.add_comm, BitVec.ofNat_add, BitVec.add_assoc]
    · have e' : ¬ v = BitVec.ofNat 8 b := fun c => e ((byte_eq_ofNat_iff hb v).mp c).symm
      rw [if_neg e, if_neg (by simpa using e'), Nat.add_zero]

/-- The counts are in canonical form. -/
theorem countBytes_canonical (bs : List Byte) : Table.canonical 0#32 Config.nSym (countBytes bs) = true :=
  (get_foldl_countOne bs [] rfl).1

/-- R78: each entry of the counts is the number of times its byte value occurs, modulo 2^32. -/
theorem get_countBytes (bs : List Byte) {b : Nat} (hb : b < 256) :
    Table.get 0#32 (countBytes bs) b = BitVec.ofNat 32 (bs.count (BitVec.ofNat 8 b)) := by
  rw [countBytes, (get_foldl_countOne bs [] rfl).2 b hb]
  simp

/-- R79: no count overflows when the input is shorter than 2^32 bytes. -/
theorem get_countBytes_toNat (bs : List Byte) {b : Nat} (hb : b < 256) (hl : bs.length < 2 ^ 32) :
    (Table.get 0#32 (countBytes bs) b).toNat = bs.count (BitVec.ofNat 8 b) := by
  rw [get_countBytes bs hb, BitVec.toNat_ofNat, Nat.mod_eq_of_lt]
  exact Nat.lt_of_le_of_lt List.count_le_length hl

/-- R80: a byte value is present after counting exactly when it occurs. -/
theorem get_countBytes_ne_zero (bs : List Byte) (v : Byte) (hl : bs.length < 2 ^ 32) :
    Table.get 0#32 (countBytes bs) v.toNat ≠ 0#32 ↔ v ∈ bs := by
  have h := get_countBytes_toNat bs v.isLt hl
  rw [BitVec.ofNat_toNat, BitVec.setWidth_eq] at h
  rw [← List.count_pos_iff, ← h, Nat.pos_iff_ne_zero, ne_eq, ne_eq, not_iff_not]
  exact ⟨fun e => by rw [e]; rfl, fun e => BitVec.eq_of_toNat_eq e⟩

/-- Exactly one of the 256 byte values is `v`. -/
theorem sum_isByte (v : Byte) (n : Nat) (hn : n ≤ 256) :
    ((List.range n).map fun b => if v = BitVec.ofNat 8 b then 1 else 0).sum = if v.toNat < n then 1 else 0 := by
  induction n with
  | zero => simp
  | succ n ih =>
    have e := byte_eq_ofNat_iff (show n < 256 by omega) v
    rw [List.range_succ, List.map_append, List.sum_append, ih (by omega), List.map_singleton, List.sum_singleton,
      if_congr e rfl rfl]
    split <;> split <;> split <;> omega

/-- R79: the occurrences of the 256 byte values add up to the length. -/
theorem sum_count_bytes (bs : List Byte) :
    ((List.range 256).map fun b => bs.count (BitVec.ofNat 8 b)).sum = bs.length := by
  induction bs with
  | nil => simp only [List.count_nil, List.map_const', List.sum_replicate, smul_eq_mul, Nat.mul_zero, List.length_nil]
  | cons v bs ih =>
    have h : (fun b => (v :: bs).count (BitVec.ofNat 8 b)) =
        fun b => bs.count (BitVec.ofNat 8 b) + if v = BitVec.ofNat 8 b then 1 else 0 := by
      funext b
      simp only [List.count_cons, beq_iff_eq]
    rw [h, List.sum_map_add, ih, sum_isByte v 256 (Nat.le_refl _), if_pos v.isLt, List.length_cons]

end Sys2Proof.Machine
end

