-- ==== Sys2Proof/Laws/Packer.lean ====
section
/-! SUPPORT. What PACK's loop and the packing of bits do (44_packer.md R99 to R102, R122). -/

namespace Sys2Proof.Machine

/-- PACK's loop when every byte has a code and the codes fit: their concatenation (R99, R101). -/
theorem packScan_ok {cb : Table CodeEntry} {cap : Nat} (vs : List Byte) (codes : List Bits) (i used : Nat)
    (hc : (vs.map fun v => Codebook.codeOf cb v.toNat) = codes.map some) (hf : used + codes.flatten.length ≤ cap) :
    packScan cb cap i used vs = .ok codes.flatten := by
  induction vs generalizing codes i used with
  | nil =>
    have : codes = [] := by simpa using hc.symm
    rw [this]
    rfl
  | cons v vs ih =>
    match codes, hc, hf with
    | c :: codes, hc, hf =>
      simp only [List.map_cons, List.cons.injEq] at hc
      rw [List.flatten_cons, List.length_append] at hf
      unfold packScan
      rw [hc.1]
      dsimp only
      rw [if_neg (by omega), ih codes (i + 1) (used + c.length) hc.2 (by omega)]
      rfl

/-- PACK's loop up to a byte that ends it: what it gives on the bytes before is laid down, the rest decides (R99). -/
theorem packScan_append {cb : Table CodeEntry} {cap : Nat} (vs ws : List Byte) (codes : List Bits) (i used : Nat)
    (hc : (vs.map fun v => Codebook.codeOf cb v.toNat) = codes.map some) (hf : used + codes.flatten.length ≤ cap) :
    packScan cb cap i used (vs ++ ws) =
      match packScan cb cap (i + codes.length) (used + codes.flatten.length) ws with
      | .error f => .error f
      | .ok rest => .ok (codes.flatten ++ rest) := by
  induction vs generalizing codes i used with
  | nil =>
    have : codes = [] := by simpa using hc.symm
    rw [this]
    simp only [List.nil_append, List.length_nil, List.flatten_nil, Nat.add_zero]
    cases packScan cb cap i used ws <;> rfl
  | cons v vs ih =>
    match codes, hc, hf with
    | c :: codes, hc, hf =>
      simp only [List.map_cons, List.cons.injEq] at hc
      rw [List.flatten_cons, List.length_append] at hf
      rw [List.cons_append, packScan, hc.1]
      dsimp only
      rw [if_neg (by omega), ih codes (i + 1) (used + c.length) hc.2 (by omega)]
      simp only [List.length_cons, List.flatten_cons, List.length_append, Nat.add_assoc, Nat.add_comm 1]
      cases packScan cb cap (i + (codes.length + 1)) (used + (c.length + codes.flatten.length)) ws with
      | error f => rfl
      | ok r => simp

/-- Everything a success of PACK's loop says: every byte has a code, the bits are the codes in order, and they fit. -/
theorem packScan_eq_ok {cb : Table CodeEntry} {cap : Nat} {vs : List Byte} {i used : Nat} {bits : Bits}
    (h : packScan cb cap i used vs = .ok bits) (hu : used ≤ cap) :
    ∃ codes : List Bits, (vs.map fun v => Codebook.codeOf cb v.toNat) = codes.map some ∧ bits = codes.flatten ∧
      used + bits.length ≤ cap := by
  induction vs generalizing i used bits with
  | nil =>
    obtain rfl := Except.ok.inj h
    exact ⟨[], rfl, rfl, by simpa using hu⟩
  | cons v vs ih =>
    unfold packScan at h
    cases hc : Codebook.codeOf cb v.toNat with
    | none =>
      rw [hc] at h
      cases h
    | some c =>
      rw [hc] at h
      dsimp only at h
      split at h
      · cases h
      · next hcap =>
        cases hr : packScan cb cap (i + 1) (used + c.length) vs with
        | error f =>
          rw [hr] at h
          cases h
        | ok rest =>
          rw [hr] at h
          obtain rfl := Except.ok.inj h
          obtain ⟨codes, h1, h2, h3⟩ := ih hr (by omega)
          refine ⟨c :: codes, by rw [List.map_cons, List.map_cons, h1, hc], by rw [h2]; rfl, ?_⟩
          rw [List.length_append]
          omega

/-- PACK's loop on a byte without a code (R117). -/
theorem packScan_missing {cb : Table CodeEntry} {cap i used : Nat} {v : Byte} {vs : List Byte}
    (h : Codebook.codeOf cb v.toNat = none) :
    packScan cb cap i used (v :: vs) = .error ⟨.missingCode, i, v.zeroExtend 16⟩ := by
  rw [packScan, h]

/-- PACK's loop on a byte whose code would take the stream past the room (R120). -/
theorem packScan_overflow {cb : Table CodeEntry} {cap i used : Nat} {v : Byte} {vs : List Byte} {c : Bits}
    (h : Codebook.codeOf cb v.toNat = some c) (hc : cap < used + c.length) :
    packScan cb cap i used (v :: vs) = .error ⟨.obufOvf, i, v.zeroExtend 16⟩ := by
  rw [packScan, h]
  dsimp only
  rw [if_pos hc]

/-- PACK's errors are E_MISSING_CODE and E_OBUF_OVF at an index of the input; the first only when a byte has no code. -/
theorem packScan_eq_error {cb : Table CodeEntry} {cap : Nat} {vs : List Byte} {i used : Nat} {f : Failure}
    (h : packScan cb cap i used vs = .error f) :
    f.code = .obufOvf ∨ (f.code = .missingCode ∧ ∃ v ∈ vs, Codebook.codeOf cb v.toNat = none) := by
  induction vs generalizing i used with
  | nil => cases h
  | cons v vs ih =>
    unfold packScan at h
    cases hc : Codebook.codeOf cb v.toNat with
    | none =>
      rw [hc] at h
      obtain rfl := Except.error.inj h
      exact .inr ⟨rfl, v, List.mem_cons_self, hc⟩
    | some c =>
      rw [hc] at h
      dsimp only at h
      split at h
      · obtain rfl := Except.error.inj h
        exact .inl rfl
      · cases hr : packScan cb cap (i + 1) (used + c.length) vs with
        | error g =>
          rw [hr] at h
          obtain rfl := Except.error.inj h
          rcases ih hr with h1 | ⟨h1, w, hw, hn⟩
          · exact .inl h1
          · exact .inr ⟨h1, w, List.mem_cons_of_mem _ hw, hn⟩
        | ok rest =>
          rw [hr] at h
          cases h

/-- R100: the number of packed bytes. -/
theorem length_packStream (bits : Bits) : (packStream bits).length = (bits.length + 7) / 8 := by
  have h := padCount_spec bits.length
  rw [packStream, length_packBytes, List.length_append, List.length_replicate, h.2.2]
  omega

/-- Stream bit k of the packed bytes is bit k of the codes, 0 in the padding (R99, R52). -/
theorem packStream_bit (bits : Bits) (k : Nat) (hk : k < 8 * (packStream bits).length) :
    ((packStream bits).getD (k / 8) 0).getLsbD (7 - k % 8) = bits.getD k false := by
  unfold packStream packBytes at *
  rw [List.length_map, List.length_range] at hk
  rw [List.getD_eq_getElem _ _ (by rw [List.length_map, List.length_range]; omega), List.getElem_map,
    List.getElem_range, packByte_bit _ _ (Nat.mod_lt _ (by omega)), show 8 * (k / 8) + k % 8 = k by omega]
  by_cases h : k < bits.length
  · rw [List.getD_append _ _ _ _ h]
  · rw [List.getD_append_right _ _ _ _ (by omega), List.getD_eq_default bits _ (by omega)]
    by_cases h2 : k - bits.length < (List.replicate (padCount bits.length) false).length
    · rw [List.getD_eq_getElem _ _ h2, List.getElem_replicate]
    · rw [List.getD_eq_default _ _ (by omega)]

/-- Stream bit k of OBUF after the packed bytes were stored from offset 0 (R99). -/
theorem streamBit_store_packStream (b : Buffer) (bits : Bits) (k : Nat) (hk : k < 8 * (packStream bits).length) :
    streamBit (b.store 0 (packStream bits)).byte k = bits.getD k false := by
  rw [← packStream_bit bits k hk, streamBit, Buffer.byte_store, if_pos ⟨Nat.zero_le _, by omega⟩, Nat.sub_zero]

/-- PACK writes OUT_LEN, PAD_OUT, NBITS and OBUF only, and takes a free draw at most (R99). -/
theorem packCommand_frame (s : State) :
    (packCommand s).after = { s with outLen := (packCommand s).after.outLen
                                     padOut := (packCommand s).after.padOut
                                     nbits := (packCommand s).after.nbits
                                     mem := { s.mem with obuf := (packCommand s).after.mem.obuf }
                                     draws := (packCommand s).after.draws } := by
  rcases packCommand_cases s with ⟨-, h⟩ | ⟨f, -, -, h⟩ | ⟨bits, -, -, h⟩ <;> rw [h] <;> rfl

end Sys2Proof.Machine
end

