-- ==== Sys2Proof/Laws/TreeBuilder.lean ====
section
/-! SUPPORT. What BUILD's loop does (42_tree_builder.md R81 to R88): the present byte values, taking the least key, and the
one invariant of the merging loop from which the claims about the arena follow. -/

namespace Sys2Proof.Machine

/-! ### Present byte values (R82) -/

theorem mem_presentSyms {f : Table Word} {b : Nat} : b ∈ presentSyms f ↔ b < 256 ∧ Table.get 0#32 f b ≠ 0#32 := by
  simp [presentSyms, Config.nSym]

theorem presentSyms_nodup (f : Table Word) : (presentSyms f).Nodup := List.Nodup.filter _ List.nodup_range

/-- R82: the present byte values ascend. -/
theorem presentSyms_pairwise (f : Table Word) : (presentSyms f).Pairwise (· < ·) :=
  List.Pairwise.filter _ List.pairwise_lt_range

theorem length_presentSyms_le (f : Table Word) : (presentSyms f).length ≤ 256 := by
  have h := List.length_filter_le (fun b => Table.get 0#32 f b != 0#32) (List.range Config.nSym)
  simpa [presentSyms, Config.nSym] using h

/-- R90: the present byte values depend on the 256 entries only. -/
theorem presentSyms_congr {f g : Table Word} (h : ∀ b, b < 256 → Table.get 0#32 f b = Table.get 0#32 g b) :
    presentSyms f = presentSyms g := by
  unfold presentSyms
  apply List.filter_congr
  intro b hb
  rw [h b (by simpa [Config.nSym] using hb)]

/-! ### Selection keys (R83) -/

theorem Key.lt_iff (a c : Key) :
    a.lt c = true ↔ a.weight.toNat < c.weight.toNat ∨ (a.weight.toNat = c.weight.toNat ∧ a.handle < c.handle) := by
  simp only [Key.lt, Bool.or_eq_true, Bool.and_eq_true, decide_eq_true_eq, BitVec.lt_def, BitVec.toNat_eq]

theorem Key.lt_trans {a b c : Key} (h1 : a.lt b = true) (h2 : b.lt c = true) : a.lt c = true := by
  rw [Key.lt_iff] at *
  omega

theorem Key.not_lt_self (a : Key) : a.lt a = false := by
  cases h : a.lt a
  · rfl
  · rw [Key.lt_iff] at h
    omega

/-- R83: no two keys of different nodes are equal. -/
theorem Key.lt_or_lt {a c : Key} (h : a.handle ≠ c.handle) : a.lt c = true ∨ c.lt a = true := by
  simp only [Key.lt_iff]
  omega

/-- The least key is one of the keys, and no key is less. -/
theorem Key.least_spec (k : Key) (q : List Key) :
    Key.least k q ∈ k :: q ∧ ∀ x ∈ k :: q, x.lt (Key.least k q) = false := by
  induction q generalizing k with
  | nil =>
    refine ⟨by simp [Key.least], fun x hx => ?_⟩
    simp only [List.mem_singleton] at hx
    rw [hx]
    exact Key.not_lt_self k
  | cons y q ih =>
    obtain ⟨h1, h2⟩ := ih (if y.lt k then y else k)
    have hm : (if y.lt k then y else k) = k ∨ (if y.lt k then y else k) = y := by split <;> simp
    refine ⟨?_, fun x hx => ?_⟩
    · change Key.least (if y.lt k then y else k) q ∈ _
      rw [List.mem_cons] at h1
      rcases h1 with h1 | h1
      · rw [h1]
        rcases hm with hm | hm <;> rw [hm] <;> simp
      · simp [h1]
    · change x.lt (Key.least (if y.lt k then y else k) q) = false
      rw [List.mem_cons, List.mem_cons] at hx
      rcases hx with hx | hx | hx
      · have h3 := h2 _ (List.mem_cons_self)
        split at h3
        · next hy =>
          rw [if_pos hy] at *
          cases hc : x.lt (Key.least y q)
          · rfl
          · rw [hx] at hc
            rw [Key.lt_trans hy hc] at h3
            cases h3
        · next hy => rw [hx, if_neg hy]; exact h3
      · have h3 := h2 _ (List.mem_cons_self)
        split at h3
        · next hy => rw [hx, if_pos hy]; exact h3
        · next hy =>
          rw [if_neg hy]
          cases hc : x.lt (Key.least k q)
          · rfl
          · exfalso
            rw [hx] at hc
            have h4 : k.lt (Key.least k q) = true := by
              rw [Key.lt_iff] at hc hy ⊢
              omega
            rw [h4] at h3
            cases h3
      · exact h2 x (List.mem_cons_of_mem _ hx)

/-- Everything taking the least key does: it takes one key out, and none of the others is less (R81, R83). -/
theorem takeLeast_spec {q : List Key} (hq : q ≠ []) :
    ∃ m r, takeLeast q = some (m, r) ∧ q.Perm (m :: r) ∧ ∀ x ∈ r, x.lt m = false := by
  cases q with
  | nil => exact absurd rfl hq
  | cons k q =>
    obtain ⟨h1, h2⟩ := Key.least_spec k q
    refine ⟨_, _, rfl, List.perm_cons_erase h1, fun x hx => h2 x (List.mem_of_mem_erase hx)⟩

/-! ### One merge (R81, R83, R84) -/

theorem Memory.isChild_congr {m m' : Memory} {g h : Nat} (e : m.nodeAt g = m'.nodeAt g) :
    m.IsChild g h ↔ m'.IsChild g h := by
  rw [Memory.IsChild, Memory.IsChild, e]

/-- What is live at h depends on the nodes below h only. -/
theorem Memory.live_congr {m m' : Memory} {h : Nat} (e : ∀ g, g < h → m.nodeAt g = m'.nodeAt g) (x : Nat) :
    m.Live h x ↔ m'.Live h x := by
  unfold Memory.Live
  refine and_congr_right fun _ => forall_congr' fun g => ?_
  refine imp_congr_right fun hg => not_congr (Memory.isChild_congr (e g hg))

/-- Whether node h is a merge depends on the nodes up to h only. -/
theorem Memory.Merged.congr {m m' : Memory} {h : Nat} (e : ∀ g, g ≤ h → m.nodeAt g = m'.nodeAt g) (hm : m.Merged h) :
    m'.Merged h := by
  have hl := fun x => Memory.live_congr (fun g hg => e g (Nat.le_of_lt hg)) (h := h) x
  have eh := e h (Nat.le_refl h)
  have el := e _ (Nat.le_of_lt hm.left_live.1)
  have er := e _ (Nat.le_of_lt hm.right_live.1)
  obtain ⟨h1, h2, h3, h4, h5, h6, h7, h8⟩ := hm
  rw [eh] at h1 h2 h3 h4 h5 h6 h7 el er
  rw [el, er] at h3 h4
  refine ⟨h1, h2, h3, h4, (hl _).mp h5, (hl _).mp h6, ?_, fun x hx n1 n2 => ?_⟩
  · rw [Memory.KeyLess, el, er] at h7
    exact h7
  · have hx' := (hl x).mpr hx
    have h9 := h8 x hx' (by rw [eh]; exact n1) (by rw [eh]; exact n2)
    rw [Memory.KeyLess, eh, er, e x (Nat.le_of_lt hx'.1)] at h9
    exact h9

/-- A memory whose arena is a list of nodes. -/
def arena (ns : List Node) : Memory := { Memory.reset 0 with node := Table.ofListFrom Node.empty 0 ns }

theorem arena_nodeAt (ns : List Node) (h : Nat) : (arena ns).nodeAt h = ns.getD h Node.empty :=
  Table.get_ofListFrom _ _ _

/-- Appending a node keeps the others. -/
theorem arena_append (ns : List Node) (n : Node) {h : Nat} (hh : h < ns.length) :
    (arena (ns ++ [n])).nodeAt h = (arena ns).nodeAt h := by
  rw [arena_nodeAt, arena_nodeAt, List.getD_append _ _ _ _ hh]

theorem arena_append_last (ns : List Node) (n : Node) : (arena (ns ++ [n])).nodeAt ns.length = n := by
  rw [arena_nodeAt, List.getD_append_right _ _ _ _ (Nat.le_refl _)]
  simp

/-! ### The loop (R81) -/

/-- The invariant of the merging loop over K leaves whose weights sum to `total`: `ns` is the arena so far and `q` the
working collection. -/
structure MergeInv (K total : Nat) (q : List Key) (ns : List Node) : Prop where
  bound : K ≤ 256
  fits : total < 2 ^ 40
  nonempty : q ≠ []
  length : ns.length + q.length = 2 * K
  started : K ≤ ns.length
  leaves : ∀ j, j < K → ((arena ns).nodeAt j).kind = .leaf
  live : ∀ x, (∃ k ∈ q, k.handle = x) ↔ (arena ns).Live ns.length x
  weight : ∀ k ∈ q, ((arena ns).nodeAt k.handle).weight = k.weight
  nodup : (q.map Key.handle).Nodup
  sum : (q.map fun k => k.weight.toNat).sum = total
  merged : ∀ h, K ≤ h → h < ns.length → (arena ns).Merged h

/-- One pass of the loop keeps the invariant. -/
theorem MergeInv.step {K total : Nat} {q r : List Key} {a c : Key} {ns : List Node} (hi : MergeInv K total q ns)
    (hp : q.Perm (a :: c :: r)) (ha : ∀ x ∈ c :: r, x.lt a = false) (hc : ∀ x ∈ r, x.lt c = false) :
    MergeInv K total (⟨a.weight + c.weight, ns.length⟩ :: r) (ns ++ [internalNode a c]) := by
  have hmem : ∀ k, k ∈ q ↔ k = a ∨ k = c ∨ k ∈ r := fun k => by rw [hp.mem_iff]; simp
  have hlen := hi.length
  rw [hp.length_eq, List.length_cons, List.length_cons] at hlen
  have hnd := (hp.map Key.handle).nodup_iff.mp hi.nodup
  simp only [List.map_cons, List.nodup_cons, List.mem_cons, List.mem_map, not_or, not_exists, not_and] at hnd
  have hsum := hi.sum
  rw [(hp.map fun k => k.weight.toNat).sum_eq] at hsum
  simp only [List.map_cons, List.sum_cons] at hsum
  have hst := hi.started
  have hb := hi.bound
  have hf := hi.fits
  have la := (hi.live a.handle).mp ⟨a, (hmem a).mpr (.inl rfl), rfl⟩
  have lc := (hi.live c.handle).mp ⟨c, (hmem c).mpr (.inr (.inl rfl)), rfl⟩
  have wa := hi.weight a ((hmem a).mpr (.inl rfl))
  have wc := hi.weight c ((hmem c).mpr (.inr (.inl rfl)))
  have ta : (BitVec.ofNat 9 a.handle).toNat = a.handle := by
    rw [BitVec.toNat_ofNat, Nat.mod_eq_of_lt]
    have := la.1
    omega
  have tc : (BitVec.ofNat 9 c.handle).toNat = c.handle := by
    rw [BitVec.toNat_ofNat, Nat.mod_eq_of_lt]
    have := lc.1
    omega
  have nl : (internalNode a c).left.toNat = a.handle := ta
  have nr : (internalNode a c).right.toNat = c.handle := tc
  have hw : (a.weight + c.weight).toNat = a.weight.toNat + c.weight.toNat := by
    rw [BitVec.toNat_add, Nat.mod_eq_of_lt]
    omega
  have elow : ∀ g, g < ns.length → (arena (ns ++ [internalNode a c])).nodeAt g = (arena ns).nodeAt g :=
    fun g hg => arena_append ns _ hg
  have elast := arena_append_last ns (internalNode a c)
  have hkey : ∀ k k', k ∈ q → k' ∈ q → k.handle ≠ k'.handle → k'.lt k = false →
      (arena (ns ++ [internalNode a c])).KeyLess k.handle k'.handle := by
    intro k k' hk hk' hne hlt
    have l1 := (hi.live k.handle).mp ⟨k, hk, rfl⟩
    have l2 := (hi.live k'.handle).mp ⟨k', hk', rfl⟩
    rw [Memory.KeyLess, elow _ l1.1, elow _ l2.1, hi.weight k hk, hi.weight k' hk', ← Key.lt_iff]
    rcases Key.lt_or_lt hne with h | h
    · exact h
    · rw [hlt] at h
      cases h
  have hlive : ∀ x, (arena (ns ++ [internalNode a c])).Live ns.length x ↔ (arena ns).Live ns.length x :=
    fun x => Memory.live_congr (fun g hg => elow g hg) x
  refine ⟨hb, hf, by simp, ?_, ?_, ?_, ?_, ?_, ?_, ?_, ?_⟩
  · simp only [List.length_append, List.length_cons, List.length_nil]
    omega
  · rw [List.length_append]
    omega
  · intro j hj
    rw [elow j (by omega)]
    exact hi.leaves j hj
  · intro x
    rw [List.length_append, List.length_singleton]
    constructor
    · rintro ⟨k, hk, rfl⟩
      rcases List.mem_cons.mp hk with rfl | hk
      · refine ⟨Nat.lt_succ_self _, fun g hg hch => ?_⟩
        rcases Nat.lt_succ_iff_lt_or_eq.mp hg with h | rfl
        · have hch' := (Memory.isChild_congr (elow g h)).mp hch
          by_cases hgK : g < K
          · have := hi.leaves g hgK
            rw [hch'.1] at this
            cases this
          · have hm := hi.merged g (by omega) h
            have h1 := hm.left_live.1
            have h2 := hm.right_live.1
            rcases hch'.2 with e | e <;> simp only at e <;> omega
        · rw [Memory.IsChild, elast] at hch
          have h1 := la.1
          have h2 := lc.1
          rcases hch.2 with e | e <;> simp only [internalNode, ta, tc] at e <;> omega
      · have hl := (hi.live k.handle).mp ⟨k, (hmem k).mpr (.inr (.inr hk)), rfl⟩
        refine ⟨by have := hl.1; omega, fun g hg hch => ?_⟩
        rcases Nat.lt_succ_iff_lt_or_eq.mp hg with h | rfl
        · exact hl.2 g h ((Memory.isChild_congr (elow g h)).mp hch)
        · rw [Memory.IsChild, elast] at hch
          rcases hch.2 with e | e <;> simp only [internalNode, ta, tc] at e
          · exact hnd.1.2 k hk e.symm
          · exact hnd.2.1 k hk e.symm
    · rintro ⟨hx, hno⟩
      by_cases e : x = ns.length
      · exact ⟨_, List.mem_cons_self, e.symm⟩
      · have hxl : (arena ns).Live ns.length x :=
          ⟨by omega, fun g hg hch => hno g (by omega) ((Memory.isChild_congr (elow g hg)).mpr hch)⟩
        obtain ⟨k, hk, hkx⟩ := (hi.live x).mpr hxl
        have hn := hno ns.length (Nat.lt_succ_self _)
        rw [Memory.IsChild, elast] at hn
        simp only [internalNode, ta, tc, true_and, not_or] at hn
        rcases (hmem k).mp hk with rfl | rfl | hr
        · exact absurd hkx hn.1
        · exact absurd hkx hn.2
        · exact ⟨k, List.mem_cons_of_mem _ hr, hkx⟩
  · intro k hk
    rcases List.mem_cons.mp hk with rfl | hk
    · rw [elast]
      rfl
    · have hl := (hi.live k.handle).mp ⟨k, (hmem k).mpr (.inr (.inr hk)), rfl⟩
      rw [elow _ hl.1]
      exact hi.weight k ((hmem k).mpr (.inr (.inr hk)))
  · simp only [List.map_cons, List.nodup_cons, List.mem_map, not_exists, not_and]
    refine ⟨fun k hk e => ?_, hnd.2.2⟩
    have hl := (hi.live k.handle).mp ⟨k, (hmem k).mpr (.inr (.inr hk)), rfl⟩
    have := hl.1
    omega
  · simp only [List.map_cons, List.sum_cons, hw]
    omega
  · intro h h1 h2
    rw [List.length_append, List.length_singleton] at h2
    rcases Nat.lt_succ_iff_lt_or_eq.mp h2 with h3 | rfl
    · exact (hi.merged h h1 h3).congr fun g hg => (elow g (by omega)).symm
    · refine ⟨?_, ?_, ?_, ?_, ?_, ?_, ?_, ?_⟩ <;> (rw [elast]; try rw [nl]) <;> try rw [nr]
      · rfl
      · rfl
      · rw [elow _ la.1, elow _ lc.1, wa, wc]
        rfl
      · rw [elow _ la.1, elow _ lc.1, wa, wc]
        exact hw
      · exact (hlive _).mpr la
      · exact (hlive _).mpr lc
      · exact hkey a c ((hmem a).mpr (.inl rfl)) ((hmem c).mpr (.inr (.inl rfl))) (fun e => hnd.1.1 e)
          (ha c List.mem_cons_self)
      · intro x hx n1 n2
        obtain ⟨k, hk, rfl⟩ := (hi.live x).mpr ((hlive x).mp hx)
        have hr : k ∈ r := by
          rcases (hmem k).mp hk with rfl | rfl | hr
          · exact absurd rfl n1
          · exact absurd rfl n2
          · exact hr
        exact hkey c k ((hmem c).mpr (.inr (.inl rfl))) hk (fun e => n2 e.symm) (hc k hr)

/-- The loop ends with one node in the working collection. -/
theorem mergeLoop_spec {K total : Nat} (fuel : Nat) (q : List Key) (ns : List Node) (hi : MergeInv K total q ns)
    (hf : q.length ≤ fuel + 1) : ∃ k, MergeInv K total [k] (mergeLoop fuel q ns) := by
  have hone : q.length = 1 → ∃ k, MergeInv K total [k] ns := by
    intro h
    obtain ⟨k, rfl⟩ := List.length_eq_one_iff.mp h
    exact ⟨k, hi⟩
  induction fuel generalizing q ns with
  | zero =>
    have := List.length_pos_iff.mpr hi.nonempty
    exact hone (by omega)
  | succ fuel ih =>
    obtain ⟨a, q1, e1, p1, l1⟩ := takeLeast_spec hi.nonempty
    unfold mergeLoop
    rw [e1]
    dsimp only
    by_cases hq1 : q1 = []
    · rw [hq1]
      refine hone ?_
      rw [p1.length_eq, hq1]
      rfl
    · obtain ⟨c, r, e2, p2, l2⟩ := takeLeast_spec hq1
      rw [e2]
      dsimp only
      have hp : q.Perm (a :: c :: r) := p1.trans (p2.cons a)
      have hstep := hi.step hp (fun x hx => l1 x (p2.mem_iff.mpr hx)) l2
      refine ih _ _ hstep ?_ ?_
      · have := hp.length_eq
        simp only [List.length_cons] at this ⊢
        omega
      · intro h
        obtain ⟨k, hk⟩ := List.length_eq_one_iff.mp h
        rw [hk] at hstep
        exact ⟨k, hstep⟩

/-- The loop only appends to the arena. -/
theorem mergeLoop_append (fuel : Nat) (q : List Key) (ns : List Node) : ∃ l, mergeLoop fuel q ns = ns ++ l := by
  induction fuel generalizing q ns with
  | zero => exact ⟨[], by simp [mergeLoop]⟩
  | succ fuel ih =>
    unfold mergeLoop
    rcases takeLeast q with _ | ⟨a, q1⟩
    · exact ⟨[], by simp⟩
    · dsimp only
      rcases takeLeast q1 with _ | ⟨c, q2⟩
      · exact ⟨[], by simp⟩
      · obtain ⟨l, hl⟩ := ih (⟨a.weight + c.weight, ns.length⟩ :: q2) (ns ++ [internalNode a c])
        exact ⟨internalNode a c :: l, by dsimp only; rw [hl, List.append_assoc]; rfl⟩

/-! ### The start of the loop (R81, R82) -/

theorem mem_keysFrom {n : Nat} {ns : List Node} {k : Key} :
    k ∈ keysFrom n ns ↔ ∃ j, j < ns.length ∧ k = ⟨(ns.getD j Node.empty).weight, n + j⟩ := by
  induction ns generalizing n with
  | nil => simp [keysFrom]
  | cons x ns ih =>
    rw [keysFrom, List.mem_cons, ih]
    constructor
    · rintro (rfl | ⟨j, hj, rfl⟩)
      · exact ⟨0, by simp, by simp⟩
      · exact ⟨j + 1, by simpa using hj, by rw [List.getD_cons_succ, Nat.add_assoc, Nat.add_comm 1 j]⟩
    · rintro ⟨j, hj, rfl⟩
      cases j with
      | zero => exact .inl (by simp)
      | succ j =>
        exact .inr ⟨j, by simpa using hj, by rw [List.getD_cons_succ, Nat.add_assoc, Nat.add_comm 1 j]⟩

theorem map_handle_keysFrom (n : Nat) (ns : List Node) : (keysFrom n ns).map Key.handle = List.range' n ns.length := by
  induction ns generalizing n with
  | nil => rfl
  | cons x ns ih => simp only [keysFrom, List.map_cons, ih, List.length_cons, List.range'_succ]

theorem map_weight_keysFrom (n : Nat) (ns : List Node) :
    (keysFrom n ns).map (fun k => k.weight.toNat) = ns.map fun x => x.weight.toNat := by
  induction ns generalizing n with
  | nil => rfl
  | cons x ns ih => simp only [keysFrom, List.map_cons, ih]

@[simp] theorem length_keysFrom (n : Nat) (ns : List Node) : (keysFrom n ns).length = ns.length := by
  have h := congrArg List.length (map_handle_keysFrom n ns)
  simpa using h

/-- The invariant of the loop holds over leaves alone. -/
theorem MergeInv.start {ls : List Node} (hne : ls ≠ []) (hb : ls.length ≤ 256) (hk : ∀ x ∈ ls, x.kind = .leaf)
    (hf : (ls.map fun x => x.weight.toNat).sum < 2 ^ 40) :
    MergeInv ls.length (ls.map fun x => x.weight.toNat).sum (keysFrom 0 ls) ls := by
  have hleaf : ∀ j, j < ls.length → ((arena ls).nodeAt j).kind = .leaf := by
    intro j hj
    rw [arena_nodeAt, List.getD_eq_getElem _ _ hj]
    exact hk _ (List.getElem_mem hj)
  refine ⟨hb, hf, ?_, by rw [length_keysFrom]; omega, Nat.le_refl _, hleaf, fun x => ?_, ?_, ?_, ?_, fun h h1 h2 => by omega⟩
  · intro h
    have := congrArg List.length h
    rw [length_keysFrom] at this
    exact hne (List.length_eq_zero_iff.mp this)
  · constructor
    · rintro ⟨k, hk', rfl⟩
      obtain ⟨j, hj, rfl⟩ := mem_keysFrom.mp hk'
      refine ⟨by simpa using hj, fun g hg hch => ?_⟩
      have := hleaf g hg
      rw [hch.1] at this
      cases this
    · intro hx
      exact ⟨_, mem_keysFrom.mpr ⟨x, hx.1, rfl⟩, by simp⟩
  · intro k hk'
    obtain ⟨j, hj, rfl⟩ := mem_keysFrom.mp hk'
    rw [Nat.zero_add, arena_nodeAt]
  · rw [map_handle_keysFrom]
    exact List.nodup_range'
  · rw [map_weight_keysFrom]

/-- The weights of the leaves add up to the sum of all FREQ entries: absent ones are 0 (R88). -/
theorem sum_leaf_weights (f : Table Word) :
    (((presentSyms f).map (leafNode f)).map fun x => x.weight.toNat).sum =
      ((List.range 256).map fun b => (Table.get 0#32 f b).toNat).sum := by
  have hw : ∀ b, (leafNode f b).weight.toNat = (Table.get 0#32 f b).toNat := by
    intro b
    have := (Table.get 0#32 f b).isLt
    simp only [leafNode, BitVec.zeroExtend, BitVec.toNat_setWidth]
    omega
  rw [List.map_map]
  unfold presentSyms Config.nSym
  induction List.range 256 with
  | nil => rfl
  | cons b l ih =>
    rw [List.filter_cons]
    by_cases h : Table.get 0#32 f b = 0#32
    · rw [if_neg (by simp [h]), ih, List.map_cons, List.sum_cons, h]
      simp
    · rw [if_pos (by simpa using h), List.map_cons, List.sum_cons, ih, List.map_cons, List.sum_cons]
      simp only [Function.comp_apply, hw]

/-- R88: the sum of all FREQ entries fits 40 bits. -/
theorem sum_freq_lt (f : Table Word) : ((List.range 256).map fun b => (Table.get 0#32 f b).toNat).sum < 2 ^ 40 := by
  have h : ∀ l : List Nat, (l.map fun b => (Table.get 0#32 f b).toNat).sum ≤ l.length * (2 ^ 32 - 1) := by
    intro l
    induction l with
    | nil => simp
    | cons b l ih =>
      have := (Table.get 0#32 f b).isLt
      simp only [List.map_cons, List.sum_cons, List.length_cons, Nat.succ_mul]
      omega
  have h2 := h (List.range 256)
  rw [List.length_range] at h2
  omega

/-- Everything BUILD makes of two or more present byte values (R81 to R88): the leaves, then merges, until one node is
left. -/
theorem buildNodes_spec {f : Table Word} (h : 2 ≤ (presentSyms f).length) :
    ∃ k l, buildNodes f = (presentSyms f).map (leafNode f) ++ l ∧
      MergeInv (presentSyms f).length ((List.range 256).map fun b => (Table.get 0#32 f b).toNat).sum [k]
        (buildNodes f) := by
  have hb := length_presentSyms_le f
  have hs := sum_leaf_weights f
  have hlt := sum_freq_lt f
  have hnodes : buildNodes f = mergeLoop ((presentSyms f).map (leafNode f)).length
      (keysFrom 0 ((presentSyms f).map (leafNode f))) ((presentSyms f).map (leafNode f)) := by
    unfold buildNodes
    generalize presentSyms f = syms at h
    match syms, h with
    | _ :: _ :: _, _ => rfl
  have h0 := MergeInv.start (ls := (presentSyms f).map (leafNode f))
    (fun e => by rw [List.map_eq_nil_iff] at e; rw [e] at h; simp at h) (by simpa using hb)
    (fun x hx => by obtain ⟨b, -, rfl⟩ := List.mem_map.mp hx; rfl) (by rw [hs]; exact hlt)
  rw [List.length_map, hs] at h0
  obtain ⟨k, hk⟩ := mergeLoop_spec ((presentSyms f).map (leafNode f)).length _ _ h0 (by simp)
  obtain ⟨l, hl⟩ := mergeLoop_append ((presentSyms f).map (leafNode f)).length
    (keysFrom 0 ((presentSyms f).map (leafNode f))) ((presentSyms f).map (leafNode f))
  rw [← hnodes] at hk hl
  exact ⟨k, l, hl, hk⟩

/-- R85: BUILD makes nothing of an empty table. -/
theorem buildNodes_empty {f : Table Word} (h : presentSyms f = []) : buildNodes f = [] := by
  rw [buildNodes, h]

/-- R86: what BUILD makes of one present byte value. -/
theorem buildNodes_single {f : Table Word} {b : Nat} (h : presentSyms f = [b]) :
    buildNodes f = [leafNode f b, phantomNode, ⟨.internal, 0, 0, 1, (leafNode f b).weight⟩] := by
  rw [buildNodes, h]

/-- R87: the number of nodes. -/
theorem length_buildNodes (f : Table Word) :
    (buildNodes f).length = if (presentSyms f).length = 0 then 0 else if (presentSyms f).length = 1 then 3
      else 2 * (presentSyms f).length - 1 := by
  split
  · next h => rw [buildNodes_empty (List.length_eq_zero_iff.mp h)]; rfl
  · split
    · next h =>
      obtain ⟨b, hb⟩ := List.length_eq_one_iff.mp h
      rw [buildNodes_single hb]
      rfl
    · obtain ⟨k, l, -, hk⟩ := buildNodes_spec (f := f) (by omega)
      have := hk.length
      rw [List.length_singleton] at this
      omega

/-- R81: NODE after BUILD. -/
theorem buildCommand_nodeAt (s : State) (h : Nat) :
    (buildCommand s).after.mem.nodeAt h = (arena (buildNodes s.mem.freq)).nodeAt h := rfl

/-- BUILD never fails and writes NODE, NLEAF, NNODE and ROOT only (R81). -/
theorem buildCommand_frame (s : State) :
    (buildCommand s).verdict = .ok ∧
    (buildCommand s).after = { s with mem := { s.mem with node := (buildCommand s).after.mem.node }
                                      nleaf := (buildCommand s).after.nleaf
                                      nnode := (buildCommand s).after.nnode
                                      root := (buildCommand s).after.root } := ⟨rfl, rfl⟩

/-! ### Queue A of the two-queue realisation (R91) -/

theorem Key.insert_perm (k : Key) (q : List Key) : (Key.insert k q).Perm (k :: q) := by
  induction q with
  | nil => exact List.Perm.refl _
  | cons x q ih =>
    unfold Key.insert
    split
    · exact List.Perm.refl _
    · exact (ih.cons x).trans (List.Perm.swap _ _ _)

/-- Sorting keeps the keys. -/
theorem Key.sort_perm (q : List Key) : (Key.sort q).Perm q := by
  induction q with
  | nil => exact List.Perm.refl _
  | cons k q ih => exact (Key.insert_perm k _).trans (ih.cons k)

theorem Key.insert_sorted (k : Key) {q : List Key} (h : q.Pairwise fun a c => c.lt a = false) :
    (Key.insert k q).Pairwise fun a c => c.lt a = false := by
  induction q with
  | nil => simp [Key.insert]
  | cons x q ih =>
    unfold Key.insert
    rw [List.pairwise_cons] at h
    split
    · next hk =>
      rw [Key.lt_iff] at hk
      rw [List.pairwise_cons, List.pairwise_cons]
      refine ⟨fun y hy => ?_, h⟩
      rw [Bool.eq_false_iff, ne_eq, Key.lt_iff]
      rcases List.mem_cons.mp hy with rfl | hy
      · omega
      · have := h.1 y hy
        rw [Bool.eq_false_iff, ne_eq, Key.lt_iff] at this
        omega
    · next hk =>
      rw [List.pairwise_cons]
      refine ⟨fun y hy => ?_, ih h.2⟩
      rcases List.mem_cons.mp ((Key.insert_perm k q).mem_iff.mp hy) with rfl | hy
      · simpa using hk
      · exact h.1 y hy

/-- Queue A rises (R91). -/
theorem Key.sort_sorted (q : List Key) : (Key.sort q).Pairwise fun a c => c.lt a = false := by
  induction q with
  | nil => simp [Key.sort]
  | cons k q ih => exact Key.insert_sorted k ih

/-- The least key does not depend on the order in which the working collection is kept (R81). -/
theorem takeLeast_of_perm {q r : List Key} {m : Key} (hp : q.Perm (m :: r)) (hn : (q.map Key.handle).Nodup)
    (hm : ∀ x ∈ r, x.lt m = false) : ∃ r', takeLeast q = some (m, r') ∧ r'.Perm r := by
  have hne : q ≠ [] := by
    rintro rfl
    simpa using hp.length_eq
  obtain ⟨m', r', e, p, l⟩ := takeLeast_spec hne
  have hmm : m' = m := by
    have h1 : m' ∈ m :: r := hp.mem_iff.mp (p.mem_iff.mpr List.mem_cons_self)
    have h2 : m ∈ m' :: r' := p.mem_iff.mp (hp.mem_iff.mpr List.mem_cons_self)
    rcases List.mem_cons.mp h1 with h1 | h1
    · exact h1
    · rcases List.mem_cons.mp h2 with h2 | h2
      · exact h2.symm
      · have hnd := (hp.map Key.handle).nodup_iff.mp hn
        rw [List.map_cons, List.nodup_cons] at hnd
        have a := hm m' h1
        have b := l m h2
        rw [Bool.eq_false_iff, ne_eq, Key.lt_iff] at a b
        have hh : m'.handle = m.handle := by omega
        exact absurd (List.mem_map.mpr ⟨m', h1, hh⟩) hnd.1
  subst hmm
  exact ⟨r', e, List.Perm.cons_inv (p.symm.trans hp)⟩

end Sys2Proof.Machine
end

