-- ==== Sys2Proof/Laws/Unpacker.lean ====
section
/-! SUPPORT. What UNPACK's scan does (45_unpacker.md R103, R104, R108). -/

namespace Sys2Proof.Machine

/-- Bits that complete no code only grow the candidate (R103). -/
theorem unpackScan_skip {cb : Table CodeEntry} {cap : Nat} (q rest : Bits) (k start : Nat) (cand : Bits) (e : Nat)
    (h : ∀ r, r <+: q → r ≠ [] → Codebook.inverse cb (cand ++ r) = none) :
    unpackScan cb cap k start cand e (q ++ rest) =
      unpackScan cb cap (k + q.length) (if cand = [] ∧ q ≠ [] then k else start) (cand ++ q) e rest := by
  induction q generalizing k start cand with
  | nil => simp
  | cons b q ih =>
    rw [List.cons_append, unpackScan]
    rw [h [b] (by simp) (by simp)]
    dsimp only
    rw [ih (k + 1) _ (cand ++ [b])
      (fun r hr hne => by
        rw [List.append_assoc]
        exact h (b :: r) (by simpa using hr) (by simp))]
    simp only [List.append_eq_nil_iff, List.cons_ne_nil, and_false, false_and, if_false, List.append_assoc,
      List.singleton_append, List.length_cons, ne_eq, not_false_eq_true, and_true, Nat.add_assoc, Nat.add_comm 1]

/-- A greedy emission (R104): the scan takes the code's bits and emits its byte value, or overflows (R120). -/
theorem unpackScan_emit {m : Memory} {cap : Nat} (b : Nat) (c rest : Bits) (k start e : Nat) (hs : m.NoSharedCode)
    (he : m.Emits b c) :
    unpackScan m.cb cap k start [] e (c ++ rest) =
      if e = cap then .error ⟨.obufOvf, k, (BitVec.ofNat 8 b).zeroExtend 16⟩
      else
        match unpackScan m.cb cap (k + c.length) k [] (e + 1) rest with
        | .error f => .error f
        | .ok out => .ok (BitVec.ofNat 8 b :: out) := by
  obtain ⟨hb, hc, hg⟩ := he
  have hne := Memory.codeOf_ne_nil hc
  have huniq : ∀ b', b' < 256 → Codebook.codeOf m.cb b' = some c → b' = b := by
    intro b' hb' hc'
    rcases Nat.lt_trichotomy b' b with h | h | h
    · exact absurd hc (hs b' b h hb c hc')
    · exact h
    · exact absurd hc' (hs b b' h hb' c hc)
  have hinv : Codebook.inverse m.cb c = some (BitVec.ofNat 8 b) := inverse_some hb hc huniq
  obtain ⟨q, x, rfl⟩ : ∃ q x, c = q ++ [x] := ⟨c.dropLast, c.getLast hne, (List.dropLast_append_getLast hne).symm⟩
  have hskip : ∀ r, r <+: q → r ≠ [] → Codebook.inverse m.cb ([] ++ r) = none := by
    intro r hr hrne
    rw [List.nil_append]
    refine inverse_none fun b' hb' hc' => ?_
    have hp : r <+: q ++ [x] := hr.trans (List.prefix_append _ _)
    have heq := hg b' hb' r hc' hp
    have hl := hr.length_le
    rw [heq] at hl
    simp at hl
  rw [List.append_assoc, unpackScan_skip q ([x] ++ rest) k start [] e hskip]
  rw [List.singleton_append, unpackScan]
  rw [List.nil_append, hinv]
  have hst : (if q = [] then k + q.length else if ([] : Bits) = [] ∧ q ≠ [] then k else start) = k := by
    by_cases hq : q = []
    · simp [hq]
    · simp [hq]
  rw [hst]
  simp only [List.length_append, List.length_singleton, Nat.add_assoc]
  all_goals rfl

/-- The scan over greedy emissions that fit, then whatever follows (R104). -/
theorem unpackScan_segs {m : Memory} {cap : Nat} (segs : List (Nat × Bits)) (rest : Bits) (k start e : Nat)
    (hs : m.NoSharedCode) (hg : m.GreedySegs segs) (hcap : e + segs.length ≤ cap) :
    ∃ start', unpackScan m.cb cap k start [] e (segBits segs ++ rest) =
      match unpackScan m.cb cap (k + (segBits segs).length) start' [] (e + segs.length) rest with
      | .error f => .error f
      | .ok out => .ok (segBytes segs ++ out) := by
  induction segs generalizing k start e with
  | nil =>
    refine ⟨start, ?_⟩
    simp only [segBits, segBytes, List.flatMap_nil, List.nil_append, List.length_nil, Nat.add_zero, List.map_nil]
    cases unpackScan m.cb cap k start [] e rest <;> rfl
  | cons g segs ih =>
    simp only [List.length_cons] at hcap
    obtain ⟨st, h⟩ := ih (k + g.2.length) k (e + 1) (fun x hx => hg x (List.mem_cons_of_mem _ hx)) (by omega)
    refine ⟨st, ?_⟩
    have e1 : segBits (g :: segs) = g.2 ++ segBits segs := rfl
    have e2 : segBytes (g :: segs) = BitVec.ofNat 8 g.1 :: segBytes segs := rfl
    rw [e1, e2, List.append_assoc, unpackScan_emit g.1 g.2 _ k start e hs (hg g List.mem_cons_self),
      if_neg (by omega), h]
    simp only [List.length_append, List.length_cons, Nat.add_assoc, Nat.add_comm 1]
    cases unpackScan m.cb cap (k + (g.2.length + (segBits segs).length)) st [] (e + (segs.length + 1)) rest <;> rfl

/-- Every success of the scan emits at most the room (R120). -/
theorem unpackScan_length {cb : Table CodeEntry} {cap : Nat} (bits : Bits) (k start e : Nat) (cand : Bits)
    (out : List Byte) (h : unpackScan cb cap k start cand e bits = .ok out) (he : e ≤ cap) : e + out.length ≤ cap := by
  induction bits generalizing k start e cand out with
  | nil =>
    unfold unpackScan at h
    split at h
    · obtain rfl := Except.ok.inj h
      simpa using he
    · cases h
  | cons b bits ih =>
    unfold unpackScan at h
    dsimp only at h
    split at h
    · exact ih _ _ _ _ _ h he
    · split at h
      · cases h
      · next hne =>
        split at h
        · cases h
        · next out' ho =>
          obtain rfl := Except.ok.inj h
          have := ih _ _ _ _ _ ho (by omega)
          simp only [List.length_cons]
          omega

/-- Bits that never match leave a candidate at the end: E_MALFORMED at its first bit (R118). -/
theorem unpackScan_never {m : Memory} {cap : Nat} (rest : Bits) (k start e : Nat) (hne : rest ≠ [])
    (h : m.NeverMatches rest) : unpackScan m.cb cap k start [] e rest = .error ⟨.malformed, k, 0⟩ := by
  have hs := unpackScan_skip (cb := m.cb) (cap := cap) rest [] k start [] e
    (fun r hr _ => inverse_none fun b hb hc => h b hb r hc (by simpa using hr))
  rw [List.append_nil] at hs
  rw [hs]
  simp [unpackScan, hne]

/-- UNPACK writes OUT_LEN, PAD_OUT, NBITS and OBUF only, and takes a free draw at most (R103). -/
theorem unpackCommand_frame (s : State) :
    (unpackCommand s).after = { s with outLen := (unpackCommand s).after.outLen
                                       padOut := (unpackCommand s).after.padOut
                                       nbits := (unpackCommand s).after.nbits
                                       mem := { s.mem with obuf := (unpackCommand s).after.mem.obuf }
                                       draws := (unpackCommand s).after.draws } := by
  rcases unpackCommand_cases s with ⟨f, h⟩ | ⟨out, -, -, -, -, h⟩ <;> rw [h] <;> rfl

/-- The trimmed stream has 8 · IN_LEN − PAD_IN bits (R103). -/
theorem State.length_trimmedStream (s : State) : s.trimmedStream.length = 8 * s.inLen.toNat - s.padIn.toNat := by
  have h : s.inputBytes.length = s.inLen.toNat := Buffer.length_bytes _ _
  rw [State.trimmedStream, List.length_take, bitsOfBytes_length, h]
  omega

/-- Bit k of the trimmed stream is stream bit k of IBUF (R52, R103). -/
theorem State.trimmedStream_getD (s : State) {k : Nat} (hk : k < 8 * s.inLen.toNat - s.padIn.toNat) :
    s.trimmedStream.getD k false = streamBit s.mem.ibuf.byte k := by
  have h := bitsOfBytes_bytes s.mem.ibuf s.inLen.toNat k (by omega)
  rw [← h, State.trimmedStream, List.getD_eq_getElem?_getD, List.getElem?_take, if_pos hk]
  rfl

/-- The trimmed stream is a given bit-string when their lengths and bits agree. -/
theorem State.trimmedStream_eq {s : State} {bits : Bits} (hl : bits.length = 8 * s.inLen.toNat - s.padIn.toNat)
    (hb : ∀ k, k < bits.length → streamBit s.mem.ibuf.byte k = bits.getD k false) : s.trimmedStream = bits := by
  apply List.ext_getElem
  · rw [State.length_trimmedStream, hl]
  · intro k h1 h2
    have h3 := s.trimmedStream_getD (k := k) (by omega)
    rw [hb k h2, List.getD_eq_getElem _ _ h1, List.getD_eq_getElem _ _ h2] at h3
    exact h3

end Sys2Proof.Machine
end

