-- ==== Sys2Proof/Laws/Memory.lean ====
section
/-! SUPPORT. Every memory operation keeps the canonical form: the writes of a host access and the writes of each command
(10_state.md R32 to R36). -/

namespace Sys2Proof.Machine

/-- The canonical form, memory by memory. -/
theorem Memory.wf_iff (p : Params) (m : Memory) : m.wf p = true ↔
    Table.canonical 0#32 Config.nSym m.freq = true ∧ Table.canonical Node.empty Config.nodeMax m.node = true ∧
    Table.canonical CodeEntry.empty Config.nSym m.cb = true ∧ m.ibuf.wf p.nIbuf = true ∧ m.obuf.wf p.nObuf = true := by
  simp only [Memory.wf, Bool.and_eq_true, and_assoc]

/-- A host write to a target the window map gives keeps the canonical form (R45, R49, R51). -/
theorem State.writeTarget_wf {s : State} {a n : Nat} {t : Target} {v : Word} (ht : target s.params a n = some t)
    (hw : s.mem.wf s.params = true) : (s.writeTarget n v t).mem.wf s.params = true := by
  have hin := target_inRange ht
  have h := (Memory.wf_iff _ _).mp hw
  cases t with
  | reg r =>
    cases r <;> first
      | exact hw
      | (simp only [State.writeTarget, State.writeReg, State.writeStatus_eq]; exact hw)
  | freq b => exact (Memory.wf_iff _ _).mpr ⟨Table.canonical_set _ _ _ hin.1 h.1, h.2⟩
  | node i k => exact hw
  | cb b k => exact (Memory.wf_iff _ _).mpr ⟨h.1, h.2.1, Table.canonical_set _ _ _ hin.1 h.2.2.1, h.2.2.2⟩
  | ibuf i =>
    exact (Memory.wf_iff _ _).mpr
      ⟨h.1, h.2.1, h.2.2.1, Buffer.wf_store _ (by rw [length_splitLanes]; exact hin.1) h.2.2.2.1, h.2.2.2.2⟩
  | obuf i =>
    exact (Memory.wf_iff _ _).mpr
      ⟨h.1, h.2.1, h.2.2.1, h.2.2.2.1, Buffer.wf_store _ (by rw [length_splitLanes]; exact hin.1) h.2.2.2.2⟩

/-- FREQ keeps the canonical form (R78). -/
theorem freqCommand_wf {s : State} (hw : s.mem.wf s.params = true) :
    (freqCommand s).after.mem.wf s.params = true := by
  have h := (Memory.wf_iff _ _).mp hw
  rcases freqCommand_cases s with ⟨-, e⟩ | ⟨-, e⟩ <;> rw [e]
  · exact hw
  · exact (Memory.wf_iff _ _).mpr ⟨countBytes_canonical _, h.2⟩

/-- BUILD keeps the canonical form: it has at most 511 nodes (R81, R87). -/
theorem buildCommand_wf {s : State} (hw : s.mem.wf s.params = true) :
    (buildCommand s).after.mem.wf s.params = true := by
  have h := (Memory.wf_iff _ _).mp hw
  have hl := length_buildNodes s.mem.freq
  have hk := length_presentSyms_le s.mem.freq
  refine (Memory.wf_iff _ _).mpr ⟨h.1, Table.canonical_ofListFrom _ _ ?_, h.2.2⟩
  rw [hl, Config.nodeMax]
  split <;> [skip; split] <;> omega

/-- GENCB keeps the canonical form (R92). -/
theorem gencbCommand_wf {s : State} (hw : s.mem.wf s.params = true) :
    (gencbCommand s).after.mem.wf s.params = true := by
  have h := (Memory.wf_iff _ _).mp hw
  exact (Memory.wf_iff _ _).mpr ⟨h.1, h.2.1, s.treeCodebook_canonical, h.2.2.2⟩

/-- CLRCB keeps the canonical form (R93). -/
theorem clrcbCommand_wf {s : State} (hw : s.mem.wf s.params = true) :
    (clrcbCommand s).after.mem.wf s.params = true := by
  have h := (Memory.wf_iff _ _).mp hw
  exact (Memory.wf_iff _ _).mpr ⟨h.1, h.2.1, rfl, h.2.2.2⟩

/-- The failure writes of PACK and UNPACK keep the canonical form (R99, R103). -/
theorem State.dropOutput_wf {s : State} (hw : s.mem.wf s.params = true) : s.dropOutput.mem.wf s.params = true := by
  have h := (Memory.wf_iff _ _).mp hw
  exact (Memory.wf_iff _ _).mpr ⟨h.1, h.2.1, h.2.2.1, h.2.2.2.1, rfl⟩

/-- The success writes of PACK and UNPACK keep the canonical form when the result fits (R99, R103). -/
theorem State.writeOutput_wf {s : State} {out : List Byte} {pad : BitVec 3} {n : Nat} (hl : out.length ≤ s.params.nObuf)
    (hw : s.mem.wf s.params = true) : (s.writeOutput out pad n).mem.wf s.params = true := by
  have h := (Memory.wf_iff _ _).mp hw
  exact (Memory.wf_iff _ _).mpr ⟨h.1, h.2.1, h.2.2.1, h.2.2.2.1, Buffer.wf_store _ (by omega) h.2.2.2.2⟩

/-- Everything PACK can leave in OBUF (R99): the failure writes, or a result of whole bytes that fits, its pad bits zero. -/
theorem packCommand_output (s : State) :
    (packCommand s).after = s.dropOutput ∨
    ∃ bits, (packStream bits).length ≤ s.params.nObuf ∧ (packCommand s).after =
      s.writeOutput (packStream bits) (BitVec.ofNat 3 (padCount bits.length)) bits.length := by
  rcases packCommand_cases s with ⟨-, e⟩ | ⟨f, -, -, e⟩ | ⟨bits, -, hp, e⟩
  · exact .inl (by rw [e]; rfl)
  · exact .inl (by rw [e]; rfl)
  · obtain ⟨codes, -, -, hl⟩ := packScan_eq_ok hp (Nat.zero_le _)
    exact .inr ⟨bits, by rw [length_packStream]; omega, by rw [e]⟩

/-- Everything UNPACK can leave in OBUF (R103): the failure writes, or a result that fits. -/
theorem unpackCommand_output (s : State) :
    (unpackCommand s).after = s.dropOutput ∨
    ∃ out, out.length ≤ s.params.nObuf ∧
      (unpackCommand s).after = s.writeOutput out 0 s.trimmedStream.length := by
  rcases unpackCommand_cases s with ⟨f, e⟩ | ⟨out, -, -, -, hs, e⟩
  · exact .inl (by rw [e]; rfl)
  · have := unpackScan_length _ _ _ _ _ _ hs (Nat.zero_le _)
    exact .inr ⟨out, by omega, by rw [e]⟩

/-- PACK keeps the canonical form (R99). -/
theorem packCommand_wf {s : State} (hw : s.mem.wf s.params = true) :
    (packCommand s).after.mem.wf s.params = true := by
  rcases packCommand_output s with e | ⟨bits, hl, e⟩ <;> rw [e]
  · exact State.dropOutput_wf hw
  · exact State.writeOutput_wf hl hw

/-- UNPACK keeps the canonical form (R103). -/
theorem unpackCommand_wf {s : State} (hw : s.mem.wf s.params = true) :
    (unpackCommand s).after.mem.wf s.params = true := by
  rcases unpackCommand_output s with e | ⟨out, hl, e⟩ <;> rw [e]
  · exact State.dropOutput_wf hw
  · exact State.writeOutput_wf hl hw

end Sys2Proof.Machine
end

