-- ==== Sys2Proof/Laws/Compress.lean ====
section
/-! SUPPORT. What COMPRESS's first three stages leave (46_compress.md R110), and everything a command's function and a host
access leave unchanged (30_encoding.md R64, 20_memory.md R53). -/

namespace Sys2Proof.Machine

/-- The first three stages write FREQ, NODE, CB, NLEAF, NNODE and ROOT only (R110). -/
theorem State.compressTables_frame (s : State) :
    s.compressTables =
      { s with mem := { s.mem with freq := s.compressTables.mem.freq, node := s.compressTables.mem.node
                                   cb := s.compressTables.mem.cb }
               nleaf := s.compressTables.nleaf
               nnode := s.compressTables.nnode
               root := s.compressTables.root } := by
  unfold State.compressTables
  rcases freqCommand_cases s with ⟨-, e⟩ | ⟨-, e⟩ <;> rw [e] <;> rfl

@[simp] theorem State.compressTables_inputBytes (s : State) : s.compressTables.inputBytes = s.inputBytes := by
  rw [s.compressTables_frame]
  rfl

@[simp] theorem State.compressTables_params (s : State) : s.compressTables.params = s.params := by
  rw [s.compressTables_frame]

@[simp] theorem State.compressTables_lenFails (s : State) : s.compressTables.lenFails = s.lenFails := by
  rw [s.compressTables_frame]
  rfl

/-- COMPRESS keeps the canonical form (R110). -/
theorem compressCommand_wf {s : State} (hw : s.mem.wf s.params = true) :
    (compressCommand s).after.mem.wf s.params = true := by
  rcases compressCommand_cases s with ⟨-, -, e⟩ | ⟨-, -, e⟩ | ⟨-, e⟩ <;> rw [e]
  · exact State.dropOutput_wf hw
  · exact hw
  · have h1 := freqCommand_wf hw
    have p1 : (freqCommand s).after.params = s.params := by
      rcases freqCommand_cases s with ⟨-, e⟩ | ⟨-, e⟩ <;> rw [e] <;> rfl
    rw [← p1] at h1
    have h2 := buildCommand_wf h1
    have h3 := gencbCommand_wf (s := (buildCommand (freqCommand s).after).after) h2
    have h4 := packCommand_wf (s := s.compressTables) h3
    rwa [s.compressTables_params] at h4

/-- Every command's function keeps the canonical form. -/
theorem commandResult_wf (i : Instr) {s : State} (hw : s.mem.wf s.params = true) :
    (commandResult i s).after.mem.wf s.params = true := by
  cases i with
  | nop => exact hw
  | freq => exact freqCommand_wf hw
  | build => exact buildCommand_wf hw
  | gencb => exact gencbCommand_wf hw
  | pack => exact packCommand_wf hw
  | unpack => exact unpackCommand_wf hw
  | compress => exact compressCommand_wf hw
  | clrcb => exact clrcbCommand_wf hw
  | illegal w => exact hw

/-- Everything a command's function can write: the memories but IBUF, NLEAF, NNODE, ROOT, OUT_LEN, PAD_OUT, NBITS, and the
model's draw counter (R64). -/
theorem commandResult_frame (i : Instr) (s : State) :
    (commandResult i s).after =
      { s with mem := { (commandResult i s).after.mem with ibuf := s.mem.ibuf }
               nleaf := (commandResult i s).after.nleaf
               nnode := (commandResult i s).after.nnode
               root := (commandResult i s).after.root
               outLen := (commandResult i s).after.outLen
               padOut := (commandResult i s).after.padOut
               nbits := (commandResult i s).after.nbits
               draws := (commandResult i s).after.draws } := by
  cases i with
  | nop => rfl
  | freq =>
    simp only [commandResult]
    rcases freqCommand_cases s with ⟨-, e⟩ | ⟨-, e⟩ <;> rw [e] <;> rfl
  | build => rfl
  | gencb => rfl
  | pack =>
    simp only [commandResult]
    rw [packCommand_frame]
  | unpack =>
    simp only [commandResult]
    rw [unpackCommand_frame]
  | compress =>
    simp only [commandResult]
    rcases compressCommand_cases s with ⟨-, -, e⟩ | ⟨-, -, e⟩ | ⟨-, e⟩ <;> rw [e]
    · rfl
    · rfl
    · rw [packCommand_frame, s.compressTables_frame]
  | clrcb => rfl
  | illegal w => rfl

/-- What every write to a target leaves: the parameters, the tree and its registers, the result registers, the draws, and
RST (R31, R50, R53). -/
theorem State.writeTarget_frame (n : Nat) (v : Word) (s : State) (t : Target) :
    (s.writeTarget n v t).params = s.params ∧ (s.writeTarget n v t).mem.node = s.mem.node ∧
    (s.writeTarget n v t).nleaf = s.nleaf ∧ (s.writeTarget n v t).nnode = s.nnode ∧
    (s.writeTarget n v t).root = s.root ∧ (s.writeTarget n v t).outLen = s.outLen ∧
    (s.writeTarget n v t).padOut = s.padOut ∧ (s.writeTarget n v t).nbits = s.nbits ∧
    (s.writeTarget n v t).errPos = s.errPos ∧ (s.writeTarget n v t).errSym = s.errSym ∧
    (s.writeTarget n v t).rst = s.rst ∧ (s.writeTarget n v t).draws = s.draws ∧
    (s.writeTarget n v t).inputs = s.inputs ∧
    (s.writeTarget n v t).mem.ibuf.draw = s.mem.ibuf.draw ∧ (s.writeTarget n v t).mem.obuf.draw = s.mem.obuf.draw := by
  cases t with
  | reg r =>
    cases r <;> simp [State.writeTarget, State.writeReg, State.writeStatus_eq, State.startCommand, State.clearDone]
  | ibuf i => simp [State.writeTarget]
  | obuf i => simp [State.writeTarget]
  | _ => simp [State.writeTarget]

end Sys2Proof.Machine
end

