-- ==== Sys2Proof/Laws/Decode.lean ====
section
/-! SUPPORT. The fields of a command word as numbers (R60), what is reserved (R63), and the byte lanes of a word (R45). -/

namespace Sys2Proof

/-- RSVD is zero exactly below 16 (R60). -/
theorem rsvdField_eq_zero_iff (w : Word) : rsvdField w = 0#28 ↔ w.toNat < 16 := by
  have h : (rsvdField w).toNat = w.toNat / 16 := by
    have := w.isLt
    rw [rsvdField, BitVec.extractLsb'_toNat, Nat.shiftRight_eq_div_pow]
    omega
  constructor
  · intro e
    rw [e] at h
    have : (0#28).toNat = 0 := rfl
    omega
  · intro hw
    apply BitVec.eq_of_toNat_eq
    rw [h, Nat.div_eq_of_lt hw]
    rfl

/-- OP is the word modulo 16 (R60). -/
theorem opField_toNat (w : Word) : (opField w).toNat = w.toNat % 16 := by
  rw [opField, BitVec.extractLsb'_toNat, Nat.shiftRight_zero]

/-- Every word from 8 on is illegal (R63). -/
theorem decodeWord_of_ge {w : Word} (h : 8 ≤ w.toNat) : decodeWord w = .illegal w := by
  unfold decodeWord
  split
  · rfl
  · next hr =>
    have hlt := (rsvdField_eq_zero_iff w).mp (by simpa using hr)
    have hop := opField_toNat w
    rw [Nat.mod_eq_of_lt hlt] at hop
    unfold opmap
    rw [hop]
    split <;> first | omega | rfl

/-- The words below 8, one by one. -/
theorem word_lt_eight {w : Word} (h : w.toNat < 8) :
    w = 0#32 ∨ w = 1#32 ∨ w = 2#32 ∨ w = 3#32 ∨ w = 4#32 ∨ w = 5#32 ∨ w = 6#32 ∨ w = 7#32 := by
  have hc : w.toNat = 0 ∨ w.toNat = 1 ∨ w.toNat = 2 ∨ w.toNat = 3 ∨ w.toNat = 4 ∨ w.toNat = 5 ∨ w.toNat = 6 ∨
      w.toNat = 7 := by omega
  simp only [BitVec.toNat_eq]
  exact hc

/-- R63: the reserved words are those from 8 on. -/
theorem isReservedWord_iff (w : Word) : isReservedWord w = true ↔ 8 ≤ w.toNat := by
  have hand : (w &&& 0xF#32).toNat = w.toNat % 16 := by
    rw [BitVec.toNat_and]
    exact Nat.and_two_pow_sub_one_eq_mod w.toNat 4
  have hsh : (w >>> 4).toNat = w.toNat / 16 := by
    rw [BitVec.toNat_ushiftRight, Nat.shiftRight_eq_div_pow]
  have h8 : (8#32).toNat = 8 := rfl
  simp only [isReservedWord, Bool.or_eq_true, bne_iff_ne, decide_eq_true_eq, BitVec.le_def, hand, h8]
  constructor
  · rintro (h | h)
    · by_contra hc
      refine h (BitVec.eq_of_toNat_eq ?_)
      rw [hsh, Nat.div_eq_of_lt (by omega)]
      rfl
    · omega
  · intro h
    by_cases hb : w.toNat < 16
    · exact .inr (by omega)
    · refine .inl fun e => ?_
      rw [e] at hsh
      have : (0#32).toNat = 0 := rfl
      omega

/-- The word made of its own four lanes (R45). -/
theorem wordOfBytes_lanes (w : Word) :
    wordOfBytes (w.extractLsb' 0 8) (w.extractLsb' 8 8) (w.extractLsb' 16 8) (w.extractLsb' 24 8) = w := by
  apply BitVec.eq_of_toNat_eq
  have hadd : ∀ {m n : Nat} (x : BitVec m) (y : BitVec n), (x ++ y).toNat = x.toNat * 2 ^ n + y.toNat := by
    intro m n x y
    rw [BitVec.toNat_append, ← Nat.shiftLeft_add_eq_or_of_lt y.isLt, Nat.shiftLeft_eq]
  have hw := w.isLt
  simp only [wordOfBytes, hadd, BitVec.extractLsb'_toNat, Nat.shiftRight_eq_div_pow]
  omega

end Sys2Proof
end

