-- ==== Sys2Proof/Laws/PerInstr.lean ====
section
/-! SUPPORT. One statement per command, lemma by lemma: the family WordRange (30_encoding.md R62, R63). -/

namespace Sys2Proof.Laws.WordRange

/-- A well-formed command's word is below 8 exactly when the command is not ILLEGAL: the eight assigned words and the
reserved ones do not mix (R62, R63). -/
def Statement (i : Instr) : Prop := i.wf = true → (i.isIllegal = false ↔ (encode i).toNat < 8)

theorem nop : Statement .nop := by unfold Statement; decide

theorem freq : Statement .freq := by unfold Statement; decide

theorem build : Statement .build := by unfold Statement; decide

theorem gencb : Statement .gencb := by unfold Statement; decide

theorem pack : Statement .pack := by unfold Statement; decide

theorem unpack : Statement .unpack := by unfold Statement; decide

theorem compress : Statement .compress := by unfold Statement; decide

theorem clrcb : Statement .clrcb := by unfold Statement; decide

theorem illegal (w : Word) : Statement (.illegal w) := by
  intro h
  have := (isReservedWord_iff w).mp h
  simp only [Instr.isIllegal, encode, Bool.true_eq_false, false_iff]
  omega

end Sys2Proof.Laws.WordRange
end

