-- ==== Sys2Proof/Tests/Slice0.lean ====
section
/-! SUPPORT. The model's own tests. Expected values: the encodings of 30_encoding.md R60 to R63 and the vectors of
95_test_vectors.md, by their names. After them, one witness for every obligation that has hypotheses. -/

namespace Sys2Proof.Tests

open Sys2Proof.Machine

-- One theorem at a time: in the package as one text each `decide` here would otherwise hold a thread of its own.
set_option Elab.async false

/-! ### Helpers -/

/-- The next state of a step; the HCC has no other outcome. -/
def nextState : Host.Outcome State Fault Refusal → State
  | .next t => t
  | .fault _ => State.reset
  | .refused _ => State.reset

/-- A buffer with the given first bytes. -/
def bufferOf (bs : List Nat) : Buffer := (Buffer.unspecified 0).store 0 (bs.map (BitVec.ofNat 8))

/-- A FREQ table with the given entries. -/
def freqOf (es : List (Nat × Nat)) : Table Word := es.map fun e => (e.1, BitVec.ofNat 32 e.2)

/-- A codebook with the given codes. -/
def cbOf (es : List (Nat × Bits)) : Table CodeEntry := es.map fun e => (e.1, CodeEntry.ofBits e.2)

/-- A reset HCC with N_OBUF = `nObuf`, that input and IN_LEN, that codebook and PAD_IN. -/
def withInput (nObuf : Nat) (bs : List Nat) (cb : List (Nat × Bits)) (pad : Nat) : State :=
  { State.reset with
    params := ⟨65536, nObuf, 0, true⟩
    inLen := BitVec.ofNat 32 bs.length
    padIn := BitVec.ofNat 3 pad
    mem := { Memory.reset 0 with ibuf := bufferOf bs, cb := cbOf cb } }

/-- A reset HCC with that FREQ table. -/
def withFreq (es : List (Nat × Nat)) : State :=
  { State.reset with mem := { Memory.reset 0 with freq := freqOf es } }

/-- One step that runs the command word `w`. -/
def runWord (w : Nat) (s : State) : State := nextState (step (s.withFetchWord 32 w))

/-- What an OBUF prefix holds, as numbers. -/
def obufBytes (n : Nat) (s : State) : List Nat := (s.mem.obuf.bytes n).map BitVec.toNat

/-- The codes of a codebook. -/
def codesOf (s : State) : List (Nat × Bits) :=
  (List.range 256).filterMap fun b => (s.mem.codeOf b).map fun c => (b, c)

/-- A node as numbers: KIND, SYM, WEIGHT, LEFT, RIGHT. -/
def nodeRow (s : State) (h : Nat) : List Nat :=
  let n := s.mem.nodeAt h
  [n.kind.code.toNat, n.sym.toNat, n.weight.toNat, n.left.toNat, n.right.toNat]

/-- "abracadabra". -/
def abra : List Nat := [0x61, 0x62, 0x72, 0x61, 0x63, 0x61, 0x64, 0x61, 0x62, 0x72, 0x61]

/-- The codebook of V-GEN-6. -/
def cbAbra : List (Nat × Bits) :=
  [(0x61, [false]), (0x62, [true, true, false]), (0x63, [true, false, false]), (0x64, [true, false, true]),
   (0x72, [true, true, true])]

/-! ### WellFormed: ill-formed terms are refused (R63) -/

theorem test_wf_refuses_assigned_words : ∀ w, w < 8 → (Instr.illegal (BitVec.ofNat 32 w)).wf = false := by decide +kernel

theorem test_wf_accepts_reserved_words :
    (Instr.illegal 0x00000008#32).wf = true ∧ (Instr.illegal 0x00000010#32).wf = true ∧
    (Instr.illegal 0x80000004#32).wf = true ∧ (Instr.illegal 0xFFFFFFFF#32).wf = true := by decide +kernel

/-! ### Decoding: words written out from the encoding (R60 to R63) -/

theorem test_decode_assigned_words :
    decodeWord 0b00000000000000000000000000000000#32 = .nop ∧
    decodeWord 0b00000000000000000000000000000001#32 = .freq ∧
    decodeWord 0b00000000000000000000000000000010#32 = .build ∧
    decodeWord 0b00000000000000000000000000000011#32 = .gencb ∧
    decodeWord 0b00000000000000000000000000000100#32 = .pack ∧
    decodeWord 0b00000000000000000000000000000101#32 = .unpack ∧
    decodeWord 0b00000000000000000000000000000110#32 = .compress ∧
    decodeWord 0b00000000000000000000000000000111#32 = .clrcb := by decide +kernel

theorem test_decode_illegal_words :
    decodeWord 0b00000000000000000000000000001000#32 = .illegal 0x8#32 ∧
    decodeWord 0b00000000000000000000000000001111#32 = .illegal 0xF#32 ∧
    decodeWord 0b00000000000000000000000000010000#32 = .illegal 0x10#32 ∧
    decodeWord 0b10000000000000000000000000000100#32 = .illegal 0x80000004#32 := by decide +kernel

theorem test_decode_bytes_low_lane_first :
    decodeBytes [0x06#8, 0x00#8, 0x00#8, 0x00#8, 0xAA#8] = .ok (.compress, [0xAA#8]) ∧
    decodeBytes [0x00#8, 0x00#8, 0x00#8, 0x06#8] = .ok (.illegal 0x06000000#32, []) ∧
    decodeBytes [0x06#8, 0x00#8, 0x00#8] = .error .shortWord := by decide +kernel

theorem test_decode_table_words :
    decodeTableWord 32 7 = some .clrcb ∧ decodeTableWord 32 0xFFFFFFFF = some (.illegal 0xFFFFFFFF#32) ∧
    decodeTableWord 8 3 = some .gencb := by decide +kernel

/-! ### One step per command (95_test_vectors.md) -/

/-- V-CTL-1. -/
theorem test_nop_status : (runWord 0 State.reset).statusWord = 0x00000002#32 := by decide +kernel

/-- V-CTL-4. -/
theorem test_nop_interrupt : (runWord 0 { State.reset with ie := true }).irq = true := by decide +kernel

/-- V-CTL-3. -/
theorem test_illegal_status :
    (runWord 0x80000004 { State.reset with nbits := 23 }).statusWord = 0x00000012#32 ∧
    (runWord 0xFFFFFFFF { State.reset with nbits := 23 }).nbits = 23#32 ∧
    (runWord 0x00000008 State.reset).cmd = 0x00000008#32 := by decide +kernel

/-- V-FRQ-1. -/
theorem test_freq_counts :
    (runWord 1 (withInput 65536 abra [] 0)).mem.freq = freqOf [(0x61, 5), (0x62, 2), (0x63, 1), (0x64, 1), (0x72, 2)] := by
  decide +kernel

/-- V-FRQ-3. -/
theorem test_freq_length_error :
    let t := runWord 1 { withFreq [(0x61, 5)] with inLen := 65537#32 }
    t.statusWord = 0x00000062#32 ∧ t.errPos = 0x00010001#32 ∧ t.mem.freqAt 0x61 = 5#32 := by decide +kernel

/-- V-BLD-7. -/
theorem test_build_abracadabra :
    let t := runWord 2 (withFreq [(0x61, 5), (0x62, 2), (0x63, 1), (0x64, 1), (0x72, 2)])
    ((List.range 10).map (nodeRow t) =
      [[1, 0x61, 5, 0, 0], [1, 0x62, 2, 0, 0], [1, 0x63, 1, 0, 0], [1, 0x64, 1, 0, 0], [1, 0x72, 2, 0, 0],
       [3, 0, 2, 2, 3], [3, 0, 4, 1, 4], [3, 0, 6, 5, 6], [3, 0, 11, 0, 7], [0, 0, 0, 0, 0]]) ∧
    t.nleaf = 5#9 ∧ t.nnode = 9#10 ∧ t.root = 8#9 := by decide +kernel

/-- V-BLD-2 and V-BLD-6: the phantom, and a tie of weights. -/
theorem test_build_phantom_and_tie :
    (List.range 3).map (nodeRow (runWord 2 (withFreq [(0x07, 10)]))) =
      [[1, 0x07, 10, 0, 0], [2, 0, 0, 0, 0], [3, 0, 10, 0, 1]] ∧
    nodeRow (runWord 2 (withFreq [(0x61, 1), (0x62, 1), (0x63, 2)])) 4 = [3, 0, 4, 2, 3] := by decide +kernel

/-- V-GEN-6. -/
theorem test_gencb_abracadabra :
    codesOf (runWord 3 (runWord 2 (withFreq [(0x61, 5), (0x62, 2), (0x63, 1), (0x64, 1), (0x72, 2)]))) = cbAbra := by
  decide +kernel

/-- V-GEN-11: no tree clears the codebook. -/
theorem test_gencb_without_tree : (runWord 3 (withInput 65536 [] cbAbra 0)).mem.cb = [] := by decide +kernel

/-- V-GEN-12. -/
theorem test_clrcb : (runWord 7 (withInput 65536 [] cbAbra 0)).mem.cb = [] := by decide +kernel

/-- V-PCK-1. -/
theorem test_pack_abracadabra :
    let t := runWord 4 (withInput 65536 abra cbAbra 0)
    obufBytes 3 t = [0x6E, 0x8A, 0xDC] ∧ t.outLen = 3#32 ∧ t.padOut = 1#3 ∧ t.nbits = 23#32 := by decide +kernel

/-- V-PCK-8 and V-PCK-12. -/
theorem test_pack_errors :
    (let t := runWord 4 (withInput 65536 [0x61, 0x62] [(0x61, [false])] 0)
     t.statusWord = 0x00000022#32 ∧ t.errPos = 1#32 ∧ t.errSym = 0x62#16 ∧ t.outLen = 0#32) ∧
    (let t := runWord 4 (withInput 1 [0x61, 0x62] [(0x61, List.replicate 9 false)] 0)
     t.statusWord = 0x00000052#32 ∧ t.errPos = 0#32 ∧ t.errSym = 0x61#16) := by decide +kernel

/-- V-UNP-19 and V-UNP-3. -/
theorem test_unpack_streams :
    (let t := runWord 5 (withInput 65536 [0x6E, 0x8A, 0xDC] cbAbra 1)
     obufBytes 11 t = abra ∧ t.outLen = 11#32 ∧ t.nbits = 23#32) ∧
    obufBytes 3 (runWord 5 (withInput 65536 [0x40] [(0x61, [false]), (0x62, [true, false])] 4)) =
      [0x61, 0x62, 0x61] := by decide +kernel

/-- V-UNP-11, V-UNP-13 and V-UNP-21. -/
theorem test_unpack_errors :
    (let t := runWord 5 (withInput 2 [0x00] [(0x07, [false])] 5)
     t.statusWord = 0x00000052#32 ∧ t.errPos = 2#32 ∧ t.errSym = 0x07#16) ∧
    (let t := runWord 5 (withInput 65536 [0x5A] [(1, [false, true]), (2, [false, true]), (5, [false, true]), (9, [true])] 0)
     t.statusWord = 0x00000042#32 ∧ t.errPos = 0#32 ∧ t.errSym = 0x0201#16) ∧
    (let t := runWord 5 (withInput 65536 [0x6E, 0x8A, 0xDD] cbAbra 0)
     t.statusWord = 0x00000032#32 ∧ t.errPos = 23#32) := by decide +kernel

/-- V-CMP-2. -/
theorem test_compress_skewed :
    let t := runWord 6 (withInput 65536 [0, 0, 0, 0, 0, 0, 0, 1] [] 0)
    obufBytes 1 t = [0xFE] ∧ t.outLen = 1#32 ∧ t.padOut = 0#3 ∧ t.nbits = 8#32 ∧
    codesOf t = [(0, [true]), (1, [false])] := by decide +kernel

/-- V-CMP-9. -/
theorem test_compress_overflow :
    let t := runWord 6 (withInput 1 abra [] 0)
    t.statusWord = 0x00000052#32 ∧ t.errPos = 4#32 ∧ t.errSym = 0x63#16 ∧ t.outLen = 0#32 ∧ codesOf t = cbAbra := by
  decide +kernel

/-- V-CMP-10 where COMPRESS's E_LEN writes nothing else, and OUT_LEN, PAD_OUT, NBITS 0 (R23 to R25) where it does; the
tables keep. -/
theorem test_compress_length_error :
    let s : State := { withInput 65536 [] cbAbra 0 with inLen := 65537#32, outLen := 3#32, padOut := 1#3, nbits := 23#32 }
    (let t := runWord 6 { s with params := ⟨65536, 65536, 0, false⟩ }
     t.statusWord = 0x00000062#32 ∧ t.errPos = 0x00010001#32 ∧ t.outLen = 3#32 ∧ t.padOut = 1#3 ∧ t.nbits = 23#32 ∧
     codesOf t = cbAbra) ∧
    (let t := runWord 6 s
     t.statusWord = 0x00000062#32 ∧ t.errPos = 0x00010001#32 ∧ t.outLen = 0#32 ∧ t.padOut = 0#3 ∧ t.nbits = 0#32 ∧
     codesOf t = cbAbra) := by decide +kernel

/-! ### The host bus (V-BUS) -/

/-- V-BUS-6, and the last mapped word of each window. -/
theorem test_bus_window_edges :
    ([0x40#22, 0xFFC#22, 0x1400#22, 0x3FF0#22, 0x8000#22, 0xFFFFC#22, 0x110000#22, 0x210000#22, 0x3FFFFC#22].all
      fun a => State.reset.accessErrs (.read a .word)) = true ∧
    ([0x3C#22, 0x13FC#22, 0x3FEC#22, 0x7FFC#22, 0x10FFFC#22, 0x20FFFC#22].all
      fun a => !State.reset.accessErrs (.read a .word)) = true := by decide +kernel

/-- V-BUS-2. -/
theorem test_bus_lanes :
    let t := State.reset.access (Access.write 0x100000#22 .word 0x44332211#32)
    (t.access (.read 0x100000#22 .byte)).resp = some ⟨true, 0x11#32⟩ ∧
    (t.access (.read 0x100003#22 .byte)).resp = some ⟨true, 0x44#32⟩ ∧
    (t.access (.read 0x100002#22 .half)).resp = some ⟨true, 0x4433#32⟩ ∧
    (t.access (.read 0x100001#22 .word)).resp = some ⟨false, 0#32⟩ := by decide +kernel

/-- V-BUS-10. -/
theorem test_bus_codebook_words :
    let t := (State.reset.access (.write 0x5880#22 .word 0x103#32)).access (.write 0x5884#22 .word 0xC0000000#32)
    codesOf t = [(0x62, [true, true, false])] ∧
    (t.access (.read 0x5880#22 .word)).resp = some ⟨true, 0x3#32⟩ := by decide +kernel

/-- V-BUS-12. -/
theorem test_bus_status_writes :
    let s : State := { State.reset with done := true, ovr := true, err := .missingCode }
    s.statusWord = 0x26#32 ∧ (s.access (.write 0x10#22 .word 0x2#32)).statusWord = 0x4#32 ∧
    (s.access (.write 0x10#22 .word 0x0#32)).statusWord = 0x26#32 := by decide +kernel

/-- V-HAZ-5. -/
theorem test_bus_busy_writes :
    let s := State.reset.withFetchWord 32 6
    (s.access (.write 0x4000#22 .word 1#32)).statusWord = 0x5#32 ∧
    (s.access (.write 0x0#22 .word 0#32)).statusWord = 0x1#32 ∧
    (s.access (.write 0x2000#22 .word 0#32)).statusWord = 0x1#32 := by decide +kernel

/-- V-RST-3. -/
theorem test_reset_abandons :
    let t := ((withInput 65536 abra [] 0).withFetchWord 32 6).setRst true
    t.statusWord = 0#32 ∧ t.outLen = 0#32 ∧ t.root = 0x1FF#9 ∧ t.irq = false := by decide +kernel

/-! ### Witnesses: for every obligation with hypotheses, a state and operands that meet all of them -/

/-- The codes of V-UNP-2: 0x61 `0`, 0x62 `10`. -/
def cbTwo : List (Nat × Bits) := [(0x61, [false]), (0x62, [true, false])]

/-- The codes in a codebook of two entries. -/
theorem codeOf_two {k1 k2 b : Nat} {e1 e2 : CodeEntry} {c : Bits}
    (h : Codebook.codeOf [(k1, e1), (k2, e2)] b = some c) :
    (b = k1 ∧ e1.codeOf = some c) ∨ (b = k2 ∧ e2.codeOf = some c) := by
  simp only [Codebook.codeOf, Table.get, Table.find?] at h
  split at h
  · next e => exact .inl ⟨e.symm, h⟩
  · split at h
    · next e => exact .inr ⟨e.symm, h⟩
    · cases h

/-- A memory with the codes of V-UNP-2. -/
theorem codeOf_cbTwo {m : Memory} {b : Nat} {c : Bits} (hm : m.cb = cbOf cbTwo) (h : m.codeOf b = some c) :
    (b = 0x61 ∧ c = [false]) ∨ (b = 0x62 ∧ c = [true, false]) := by
  rw [Memory.codeOf, hm] at h
  rcases codeOf_two (k1 := 0x61) (k2 := 0x62) h with ⟨e, h⟩ | ⟨e, h⟩
  · rw [codeOf_ofBits (by decide) (by decide)] at h
    exact .inl ⟨e, (Option.some.inj h).symm⟩
  · rw [codeOf_ofBits (by decide) (by decide)] at h
    exact .inr ⟨e, (Option.some.inj h).symm⟩

theorem cbTwo_not_shared {m : Memory} (hm : m.cb = cbOf cbTwo) : m.NoSharedCode := by
  intro b b' hlt _ c h h'
  rcases codeOf_cbTwo hm h with ⟨e, ec⟩ | ⟨e, ec⟩ <;> rcases codeOf_cbTwo hm h' with ⟨e', ec'⟩ | ⟨e', ec'⟩
  · omega
  · rw [ec] at ec'
    cases ec'
  · omega
  · omega

theorem cbTwo_emits {m : Memory} (hm : m.cb = cbOf cbTwo) : m.Emits 0x61 [false] ∧ m.Emits 0x62 [true, false] := by
  refine ⟨⟨by decide, by rw [Memory.codeOf, hm]; decide +kernel, ?_⟩,
    ⟨by decide, by rw [Memory.codeOf, hm]; decide +kernel, ?_⟩⟩ <;>
  · intro b' _ c' h hp
    rcases codeOf_cbTwo hm h with ⟨-, ec⟩ | ⟨-, ec⟩ <;> subst ec <;> first | rfl | exact absurd hp (by decide)

/-- The tree of the byte values 0x61 (weight 5) and 0x62 (weight 2), as BUILD leaves it. -/
def treeState : State :=
  { withFreq [(0x61, 5), (0x62, 2)] with
    mem := { (withFreq [(0x61, 5), (0x62, 2)]).mem with
      node := Table.ofListFrom Node.empty 0
        [⟨.leaf, 0x61, 0, 0, 5⟩, ⟨.leaf, 0x62, 0, 0, 2⟩, ⟨.internal, 0, 1, 0, 7⟩] }
    nleaf := 2
    nnode := 3
    root := 2 }

theorem treeState_nodeAt (h : Nat) : treeState.mem.nodeAt h =
    ([⟨.leaf, 0x61, 0, 0, 5⟩, ⟨.leaf, 0x62, 0, 0, 2⟩, ⟨.internal, 0, 1, 0, 7⟩] : List Node).getD h Node.empty :=
  Table.get_ofListFrom _ _ _

theorem treeState_internal {h : Nat} (hk : (treeState.mem.nodeAt h).kind = .internal) : h = 2 := by
  rw [treeState_nodeAt] at hk
  match h, hk with
  | 2, _ => rfl

/-- A state that meets the tree invariant with a tree in it: GencbWritesTheLeafPaths, GencbCodeLengthsAreBounded,
GeneratedCodebookIsPrefixFree and StepKeepsTheTree. -/
theorem witness_TreeInv : treeState.TreeInv where
  nleaf_le := by decide
  nnode_eq := by decide
  root_eq := by decide
  beyond := by
    intro h hh
    rw [treeState_nodeAt]
    exact List.getD_eq_default _ _ hh
  leaf := by
    intro h hh
    rw [treeState_nodeAt]
    match h, hh with
    | 0, _ => rfl
    | 1, _ => rfl
  phantom := by decide
  internal := by
    intro h h1 h2 _
    have : h = 2 := Nat.le_antisymm (Nat.lt_succ_iff.mp h2) h1
    subst this
    rw [treeState_nodeAt]
    rfl
  child_lt := by
    intro h b hk
    have := treeState_internal hk
    subst this
    rw [treeState_nodeAt]
    cases b <;> decide
  children_differ := by
    intro h hk
    have := treeState_internal hk
    subst this
    rw [treeState_nodeAt]
    decide
  one_parent := by
    intro h hh
    refine ⟨2, ?_, fun y hy => treeState_internal hy.1⟩
    show treeState.mem.IsChild 2 h
    rw [Memory.IsChild, treeState_nodeAt]
    match h, hh with
    | 0, _ => decide
    | 1, _ => decide
  syms_rise := by
    intro g h hgh hh
    have h2 : h < 2 := hh
    have e : g = 0 ∧ h = 1 := by omega
    rw [treeState_nodeAt, treeState_nodeAt, e.1, e.2]
    decide
  weights_add := by
    intro h hk
    have := treeState_internal hk
    subst this
    rw [treeState_nodeAt, treeState_nodeAt, treeState_nodeAt]
    decide
  leaf_fields := by
    intro h hh
    rw [treeState_nodeAt]
    match h, hh with
    | 0, _ => decide
    | 1, _ => decide
  single := fun h => absurd h (by decide)
  merged := by
    intro _ h h1 h2
    have : h = 2 := Nat.le_antisymm (Nat.lt_succ_iff.mp h2) h1
    subst this
    have live : ∀ x, x < 2 → treeState.mem.Live 2 x := fun x hx =>
      ⟨hx, fun g hg hc => by have := treeState_internal hc.1; omega⟩
    have n2 : treeState.mem.nodeAt 2 = ⟨.internal, 0, 1, 0, 7⟩ := treeState_nodeAt 2
    refine ⟨by rw [n2], by rw [n2]; rfl, ?_, ?_, ?_, ?_, ?_, ?_⟩ <;> rw [n2]
    · rw [treeState_nodeAt, treeState_nodeAt]; decide
    · rw [treeState_nodeAt, treeState_nodeAt]; decide
    · exact live 1 (by decide)
    · exact live 0 (by decide)
    · rw [Memory.KeyLess, treeState_nodeAt, treeState_nodeAt]; decide
    · intro x hx h3 h4
      have hx2 := hx.1
      change x ≠ 1 at h3
      change x ≠ 0 at h4
      omega

/-- FREQ and CB window accesses, and the step invariants. -/
theorem witness_MemInv : State.reset.MemInv ∧ State.reset.phase = .idle ∧ State.reset.rst = false ∧
    (withInput 65536 abra cbAbra 0).mem.wf ⟨65536, 65536, 0, true⟩ = true :=
  ⟨⟨by decide, rfl, by decide, by decide, by decide⟩, rfl, rfl, by decide +kernel⟩

/-- StepKeepsResultRegistersTrue: a result of one byte with seven pad bits. -/
theorem witness_OutputInv :
    ({ State.reset with outLen := 1, padOut := 7, nbits := 1
                        mem := { Memory.reset 0 with obuf := ⟨[(0, 0)], 1⟩ } } : State).OutputInv := by
  refine ⟨by decide, fun j hj => ?_, by decide⟩
  have : j = 0 := by
    have h1 : (1#32).toNat = 1 := rfl
    change j < (1#32).toNat at hj
    omega
  subst this
  rfl

/-- StepKeepsStatusConsistent and BusyReads: a running command. -/
theorem witness_StatusInv :
    (State.reset.withFetchWord 32 6).StatusInv ∧ (State.reset.withFetchWord 32 6).phase = .busy ∧
    (State.reset.withFetchWord 32 6).accessErrs (.read 0x00003C#22 .word) = false ∧
    (State.reset.withFetchWord 32 6).accessErrs (.read 0x001000#22 .word) = false ∧
    (State.reset.withFetchWord 32 6).accessErrs (.read 0x20FFFF#22 .byte) = false :=
  ⟨⟨by decide, by decide, by decide, by decide⟩, rfl, by decide +kernel, by decide +kernel, by decide +kernel⟩

theorem witness_DecodeUndoesEncode :
    Instr.clrcb.wf = true ∧ (Instr.illegal 0x00000008#32).wf = true ∧ (Instr.illegal 0xFFFFFFFF#32).wf = true := by decide

/-- DecodeFollowsOpcodeMap and IllegalCompletesWithBadCmd. -/
theorem witness_illegal_words : 8 ≤ (0x00000008#32).toNat ∧ 8 ≤ (0xFFFFFFFF#32).toNat ∧
    State.reset.ovr = false := by decide

theorem witness_StepRunsTheDecodedCommand :
    let s := State.reset.withFetchWord 32 6
    s.phase = .busy ∧ s.rst = false ∧ s.latency = 0 ∧ s.inputs = [] ∧ decodeWord s.cmd = .compress := by
  decide +kernel

theorem witness_StepTakesTheOldestHostOperation :
    State.reset.phase = .idle ∧ State.reset.inputs = [] ∧
    (let s : State := { State.reset.withFetchWord 32 6 with
        latency := 1, inputs := [.wait, .access statusRead, .rst true] }
     s.phase = .busy ∧ s.latency ≠ 0 ∧ s.inputs = .wait :: [.access statusRead, .rst true]) := by decide +kernel

/-- RunningCommandCompletes and CommandInputsAreFixedWhileBusy: two host steps before the completion. -/
theorem witness_RunningCommandCompletes :
    let s : State := { State.reset.withFetchWord 32 6 with latency := 2, inputs := [.wait, .access statusRead, .rst true] }
    s.phase = .busy ∧ s.rst = false ∧ s.engineTurn = false ∧ (∀ i, i ∈ s.inputs.take s.latency → i ≠ .rst true) ∧
    s.inputs.head? ≠ some (.rst true) := by decide +kernel

theorem witness_NopOnlyCompletes : State.reset.ovr = false ∧ State.reset.rst = false := by decide

/-- FreqCountsTheInput, both clauses at the boundary; FreqPresentExactlyWhenOccurring. -/
theorem witness_FreqCountsTheInput :
    ({ State.reset with inLen := 65536#32 } : State).params.Legal ∧
    ({ State.reset with inLen := 65536#32 } : State).inLen.toNat ≤ State.reset.params.nIbuf ∧
    State.reset.params.nIbuf < ({ State.reset with inLen := 65537#32 } : State).inLen.toNat := by decide

/-- Both values of the parameter of log entry 7 occur. -/
theorem witness_LengthErrorComesFirst :
    State.reset.params.compressLenDrops = true ∧
    ({ State.reset with params := ⟨65536, 65536, 0, false⟩ } : State).params.compressLenDrops = false ∧
    State.reset.params.nIbuf < ({ State.reset with inLen := 0xFFFFFFFF#32 } : State).inLen.toNat := by decide

theorem witness_BuildOfEmptyTableMakesNoTree : ∀ b, b < 256 → State.reset.mem.freqAt b = 0#32 := fun _ _ => rfl

theorem witness_BuildOfOneSymbolAddsPhantom :
    255 < 256 ∧ ∀ b', b' < 256 → ((withFreq [(255, 1)]).mem.freqAt b' ≠ 0#32 ↔ b' = 255) := by decide +kernel

theorem witness_BuildMergesTheTwoLeastKeys :
    2 ≤ ((List.range 256).filter fun b => (withFreq [(0, 1), (255, 1)]).mem.freqAt b != 0#32).length := by decide +kernel

theorem witness_BuildDependsOnlyOnFreq : ∃ s s' : State, s ≠ s' ∧ ∀ b, b < 256 → s.mem.freqAt b = s'.mem.freqAt b :=
  ⟨State.reset, { State.reset with inLen := 1#32 }, by decide +kernel, fun _ _ => rfl⟩

/-- PackLaysDownTheCodes: eight bits fill an OBUF of one byte. -/
theorem witness_PackLaysDownTheCodes :
    let s := withInput 1 (List.replicate 8 0x61) cbTwo 0
    let codes := List.replicate 8 [false]
    s.params.Legal ∧ s.inLen.toNat ≤ s.params.nIbuf ∧
    ((List.range s.inLen.toNat).map fun i => s.mem.codeOf (s.mem.ibuf.byte i).toNat) = codes.map some ∧
    codes.flatten.length ≤ 8 * s.params.nObuf := by decide +kernel

/-- PadCountRoundsUpToBytes: a success, and IN_LEN = 0. -/
theorem witness_PadCountRoundsUpToBytes :
    (nextState (exec .pack (withInput 1 [0x61] cbTwo 0))).err = .ok ∧ (withInput 1 [0x61] cbTwo 0).params.Legal ∧
    State.reset.inLen = 0#32 := by decide +kernel

/-- PackStopsAtTheFirstBadByte: a missing code after a full OBUF (V-PCK-11), and one bit too many (V-PCK-9). -/
theorem witness_PackStopsAtTheFirstBadByte :
    (let s := withInput 1 [0x61, 0x63] [(0x61, List.replicate 8 false)] 0
     let codes := [List.replicate 8 false]
     s.inLen.toNat ≤ s.params.nIbuf ∧ codes.length < s.inLen.toNat ∧
     ((List.range codes.length).map fun i => s.mem.codeOf (s.mem.ibuf.byte i).toNat) = codes.map some ∧
     codes.flatten.length ≤ 8 * s.params.nObuf ∧ s.mem.codeOf (s.mem.ibuf.byte codes.length).toNat = none) ∧
    (let s := withInput 1 (List.replicate 9 0x61) cbTwo 0
     let codes := List.replicate 8 [false]
     s.inLen.toNat ≤ s.params.nIbuf ∧ codes.length < s.inLen.toNat ∧
     ((List.range codes.length).map fun i => s.mem.codeOf (s.mem.ibuf.byte i).toNat) = codes.map some ∧
     codes.flatten.length ≤ 8 * s.params.nObuf ∧
     s.mem.codeOf (s.mem.ibuf.byte codes.length).toNat = some [false] ∧
     8 * s.params.nObuf < codes.flatten.length + [false].length) := by decide +kernel

/-- UnpackEmitsTheGreedyParse: V-UNP-2, filling an OBUF of two bytes. -/
theorem witness_UnpackEmitsTheGreedyParse :
    let s := withInput 2 [0x40] cbTwo 5
    let segs : List (Nat × Bits) := [(0x61, [false]), (0x62, [true, false])]
    s.params.Legal ∧ s.inLen.toNat ≤ s.params.nIbuf ∧ s.padIn.toNat ≤ 8 * s.inLen.toNat ∧ s.mem.NoSharedCode ∧
    s.mem.GreedySegs segs ∧ (segBits segs).length = 8 * s.inLen.toNat - s.padIn.toNat ∧
    (∀ k, k < (segBits segs).length → streamBit s.mem.ibuf.byte k = (segBits segs).getD k false) ∧
    segs.length ≤ s.params.nObuf := by
  refine ⟨by decide, by decide, by decide, cbTwo_not_shared rfl, ?_, by decide, by decide +kernel, by decide⟩
  have h := cbTwo_emits (m := (withInput 2 [0x40] cbTwo 5).mem) rfl
  intro g hg
  rcases List.mem_cons.mp hg with e | hg
  · rw [e]
    exact h.1
  · rw [List.mem_singleton.mp hg]
    exact h.2

/-- UnpackReportsWhereTheStreamBreaks: bits that never match (V-UNP-4), and one emission too many. -/
theorem witness_UnpackReportsWhereTheStreamBreaks :
    (let s := withInput 2 [0x40] cbTwo 6
     let segs : List (Nat × Bits) := [(0x61, [false])]
     s.inLen.toNat ≤ s.params.nIbuf ∧ s.padIn.toNat ≤ 8 * s.inLen.toNat ∧ s.mem.NoSharedCode ∧ s.mem.GreedySegs segs ∧
     (segBits segs ++ [true]).length = 8 * s.inLen.toNat - s.padIn.toNat ∧
     (∀ k, k < (segBits segs ++ [true]).length → streamBit s.mem.ibuf.byte k = (segBits segs ++ [true]).getD k false) ∧
     segs.length ≤ s.params.nObuf ∧ s.mem.NeverMatches [true]) ∧
    (let s := withInput 1 [0x40] cbTwo 5
     let segs : List (Nat × Bits) := [(0x61, [false])]
     s.inLen.toNat ≤ s.params.nIbuf ∧ s.padIn.toNat ≤ 8 * s.inLen.toNat ∧ s.mem.NoSharedCode ∧ s.mem.GreedySegs segs ∧
     (segBits segs ++ [true, false]).length = 8 * s.inLen.toNat - s.padIn.toNat ∧
     (∀ k, k < (segBits segs ++ [true, false]).length →
       streamBit s.mem.ibuf.byte k = (segBits segs ++ [true, false]).getD k false) ∧
     segs.length = s.params.nObuf ∧ s.mem.Emits 0x62 [true, false] ∧ [true, false] <+: [true, false]) := by
  have hg : ∀ m : Memory, m.cb = cbOf cbTwo → m.GreedySegs [(0x61, [false])] := by
    intro m hm g hg
    rw [List.mem_singleton.mp hg]
    exact (cbTwo_emits hm).1
  refine ⟨⟨by decide, by decide, cbTwo_not_shared rfl, hg _ rfl, by decide, by decide +kernel, by decide, ?_⟩,
    ⟨by decide, by decide, cbTwo_not_shared rfl, hg _ rfl, by decide, by decide +kernel, by decide,
      (cbTwo_emits rfl).2, by decide⟩⟩
  intro b _ c h hp
  rcases codeOf_cbTwo rfl h with ⟨-, ec⟩ | ⟨-, ec⟩ <;> subst ec <;> exact absurd hp (by decide)

/-- V-UNP-7. -/
theorem witness_UnpackRejectsPadBeyondStream :
    let s := withInput 65536 [] cbTwo 3
    s.inLen.toNat ≤ s.params.nIbuf ∧ 8 * s.inLen.toNat < s.padIn.toNat := by decide

/-- A pair at the ends of the byte values. -/
theorem witness_UnpackReportsTheLeastDuplicate :
    let s := withInput 65536 [] [(0, [true]), (255, [true])] 0
    s.inLen.toNat ≤ s.params.nIbuf ∧ s.padIn.toNat ≤ 8 * s.inLen.toNat ∧ 0 < 255 ∧ 255 < 256 ∧
    s.mem.codeOf 0 = some [true] ∧ s.mem.codeOf 255 = some [true] ∧
    (∀ x x', x < 0 → x < x' → x' < 256 → ∀ d, s.mem.codeOf x = some d → s.mem.codeOf x' ≠ some d) ∧
    (∀ x', 0 < x' → x' < 255 → s.mem.codeOf x' ≠ some [true]) := by
  refine ⟨by decide, by decide, by decide, by decide, by decide +kernel, by decide +kernel,
    fun x x' h => absurd h (Nat.not_lt_zero x), fun x' h1 h2 h => ?_⟩
  rcases codeOf_two (k1 := 0) (k2 := 255) h with ⟨e, -⟩ | ⟨e, -⟩ <;> omega

/-- Two buffers that differ in a dropped bit only (V-UNP-5, V-UNP-6). -/
theorem witness_UnpackIgnoresThePadBits :
    let s := withInput 65536 [0x40] cbTwo 3
    bufferOf [0x47] ≠ s.mem.ibuf ∧ ∀ k, k < 8 * s.inLen.toNat - s.padIn.toNat →
      streamBit (bufferOf [0x47]).byte k = streamBit s.mem.ibuf.byte k := by decide +kernel

theorem witness_UnpackFailsOnceTheCandidateIsTooLong :
    ([true] : Bits) ≠ [] ∧ ∀ b, b < 256 → (State.reset.mem.cbAt b).len.toNat < ([true] : Bits).length :=
  ⟨by decide, fun _ _ => Nat.zero_lt_one⟩

/-- The codebook of `treeState` on two bytes, through an OBUF and an IBUF of one byte. -/
theorem witness_UnpackUndoesPack : ∃ s g c t u : State, s.TreeInv ∧ exec .gencb s = .next g ∧ c.params.Legal ∧
    c.mem.cb = g.mem.cb ∧ exec .pack c = .next t ∧ t.err = .ok ∧ u.mem.cb = g.mem.cb ∧ u.inLen = t.outLen ∧
    u.padIn = t.padOut ∧ t.outLen.toNat ≤ u.params.nIbuf ∧ c.inLen.toNat ≤ u.params.nObuf ∧
    0 < t.outLen.toNat ∧ ∀ j, j < t.outLen.toNat → u.mem.ibuf.byte j = t.mem.obuf.byte j := by
  let g := nextState (exec .gencb treeState)
  let c : State := { withInput 1 [0x61, 0x62] [] 0 with mem := { Memory.reset 0 with ibuf := bufferOf [0x61, 0x62], cb := g.mem.cb } }
  let t := nextState (exec .pack c)
  let u : State := { State.reset with params := ⟨1, 2, 0, true⟩, inLen := t.outLen, padIn := t.padOut
                                      mem := { Memory.reset 0 with ibuf := t.mem.obuf, cb := g.mem.cb } }
  exact ⟨treeState, g, c, t, u, witness_TreeInv, rfl, by decide, rfl, rfl, by decide +kernel, rfl, rfl, rfl,
    by decide +kernel, by decide, by decide +kernel, fun _ _ => rfl⟩

/-- CompressIsItsFourStages and CompressNeverMissesACode: the largest input, and one with room for every code. -/
theorem witness_Compress :
    ({ State.reset with inLen := 65536#32 } : State).inLen.toNat ≤ State.reset.params.nIbuf ∧ State.reset.params.Legal ∧
    255 * (withInput 65536 abra [] 0).inLen.toNat ≤ 8 * (withInput 65536 abra [] 0).params.nObuf ∧
    State.reset.params.nIbuf < ({ State.reset with inLen := 65537#32 } : State).inLen.toNat := by decide

/-- Two different states with one input. -/
theorem witness_CompressDependsOnlyOnTheInput : ∃ s s' : State, s ≠ s' ∧ s.params.Legal ∧ s.params = s'.params ∧
    s.inLen = s'.inLen ∧ s.inLen.toNat ≤ s.params.nIbuf ∧
    ∀ i, i < s.inLen.toNat → s.mem.ibuf.byte i = s'.mem.ibuf.byte i :=
  ⟨withInput 65536 abra [] 0, withInput 65536 abra cbAbra 0, by decide +kernel, by decide, rfl, rfl, by decide,
    fun _ _ => rfl⟩

/-- CommandsWriteOnlyTheirRegisters, CommandsKeepAllOtherBytes and IrqFollowsIeAndDone. -/
theorem witness_Commands : ∃ t, exec .pack State.reset = .next t ∧ State.reset.params.Legal ∧ State.reset.rst = false ∧
    ¬ StoredBy .pack t 0x100000 :=
  ⟨_, rfl, by decide, rfl, fun h => absurd h.1 (by decide)⟩

/-- FreqWindowIsReadWrite, NodeWindowIsReadOnly and CbWindowLayout at their last indexes and at each kind of CB word; the
state is that of `witness_MemInv`. -/
theorem witness_window_indexes : 255 < 256 ∧ 510 < 511 ∧ 3 < 4 ∧ ∀ k ∈ [0, 1, 8, 9, 15], k < 16 := by decide

/-- WindowMapDecidesTheResponse: both ends of each window, an access of each width, and one of each kind that gets ERR. -/
theorem witness_WindowMapDecidesTheResponse :
    State.reset.params.Legal ∧ State.reset.rst = false ∧
    ([0x000000#22, 0x00003C#22, 0x001000#22, 0x0013FC#22, 0x002000#22, 0x003FEC#22, 0x004000#22, 0x007FFC#22, 0x100000#22,
      0x10FFFC#22, 0x200000#22, 0x20FFFC#22].all fun a => !State.reset.accessErrs (.read a .word)) = true ∧
    State.reset.accessErrs (.read 0x10FFFE#22 .half) = false ∧ State.reset.accessErrs (.write 0x20FFFF#22 .byte 0#32) = false ∧
    State.reset.accessErrs (.read 0x10FFFE#22 .word) = true ∧ State.reset.accessErrs (.write 0x001000#22 .byte 0#32) = true ∧
    State.reset.accessErrs (.read 0x000040#22 .word) = true := by decide +kernel

/-- RegisterReads and RegisterWrites. -/
theorem witness_RegisterWrites : State.reset.phase = .idle ∧ State.reset.rst = false := by decide

theorem witness_ErrAccessChangesNothing : State.reset.accessErrs (.read 0x000040#22 .word) = true := by decide +kernel

/-- The last word of IBUF and of OBUF. -/
theorem witness_BufferAccessesAreLittleEndian :
    State.reset.params.Legal ∧ State.reset.phase = .idle ∧ State.reset.rst = false ∧ 65532 % Width.word.bytes = 0 ∧
    65532 + Width.word.bytes ≤ State.reset.params.nIbuf ∧ 65532 + Width.word.bytes ≤ State.reset.params.nObuf := by
  decide

/-- Each clause of the dropped writes at its boundary. -/
theorem witness_BusyWritesAreDropped :
    let s := State.reset.withFetchWord 32 6
    s.params.Legal ∧ s.phase = .busy ∧ s.rst = false ∧
    ([0x000010#22, 0x000014#22, 0x00000C#22, 0x000018#22, 0x00001C#22, 0x001000#22, 0x0013FC#22, 0x004000#22, 0x20FFFC#22,
      0x000020#22, 0x003FEC#22].all fun a => !s.accessErrs (.write a .word 0#32)) = true := by decide +kernel

theorem witness_OvrIsSticky :
    let s : State := { State.reset with ovr := true, inputs := [.access (.write 0x000010#22 .word 4#32)] }
    s.ovr = true ∧ (nextState (step s)).ovr = false := by decide +kernel

/-- The codes of 1 and of 255 bits. -/
theorem witness_CodeScriptLoadsTheCode :
    1 ≤ ([true] : Bits).length ∧ (List.replicate 255 true).length ≤ 255 ∧
    ({ State.reset with inputs := Script.code 255 (List.replicate 255 true) } : State).inputs =
      Script.code 255 (List.replicate 255 true) :=
  ⟨by decide, by rw [List.length_replicate], rfl⟩

theorem witness_ResetTakesEveryRegister : (State.reset.setRst true).rst = true := by decide

end Sys2Proof.Tests
end

section
/-! SUPPORT. Invariants of the step: what a host turn and a completion keep, once for every invariant; then the six
statements on the state (10_state.md). -/

namespace Sys2Proof.Machine

/-! ### What every step keeps -/

/-- `P` is kept by everything a host turn can do (R42, R53, R54, R131): what it does to the plans of the host, the
response and the free draw of a read, a dropped write, a performed write, and the two levels of RST. -/
structure HostKeeps (P : State → Prop) : Prop where
  plan : ∀ s inputs latency, P s → P { s with inputs := inputs, latency := latency }
  respond : ∀ s resp draws, s.draws ≤ draws → P s → P { s with resp := resp, draws := draws }
  overrun : ∀ s, P s → P s.setOvr
  write : ∀ s a n v t, target s.params a n = some t → s.rst = false → (s.busy = false ∨ t.dropsWhileBusy = false) →
    P s → P (s.writeTarget n v t)
  reset : ∀ s, P s → P s.assertReset
  release : ∀ s, P s → P { s with rst := false }

section HostTurn

variable {P : State → Prop}

theorem HostKeeps.access (hk : HostKeeps P) (acc : Access) {s : State} (h : P s) : P (s.access acc) := by
  rcases State.access_cases acc s with
    ⟨-, e⟩ | ⟨t, hr, ht, ⟨a, n, -, e⟩ | ⟨a, n, v, -, -, -, e⟩ | ⟨a, n, v, rfl, hd, e⟩⟩ <;> rw [e]
  · exact hk.respond s _ s.draws le_rfl h
  · obtain ⟨ef, hle⟩ := State.readAccess_frame t n.bytes s
    rw [ef]
    exact hk.respond s _ _ hle h
  · exact hk.respond s.setOvr _ s.draws le_rfl (hk.overrun s h)
  · exact hk.respond _ _ _ le_rfl (hk.write s _ _ v t ht hr hd h)

theorem HostKeeps.perform (hk : HostKeeps P) (i : Input) {s : State} (h : P s) : P (State.perform i s) := by
  cases i with
  | access acc => exact hk.access acc h
  | wait => exact hk.access statusRead h
  | rst level =>
    cases level with
    | false => exact hk.release s h
    | true => exact hk.reset s h

theorem HostKeeps.hostTurn (hk : HostKeeps P) {s : State} (h : P s) : P s.hostTurn := by
  rcases s.hostTurn_cases with ⟨-, e⟩ | ⟨i, rest, -, e, -⟩ <;> rw [e]
  · exact h
  · exact hk.plan _ _ _ (hk.perform i (hk.plan s _ _ h))

/-- An invariant of the step: one that host turns and completions keep. -/
theorem HostKeeps.step (hk : HostKeeps P) {s t : State} (hc : ∀ i, P (commandResult i s).complete) (h : P s)
    (e : step s = .next t) : P t := by
  rcases step_cases e with ⟨-, rfl⟩ | ⟨-, rfl⟩
  · exact hc _
  · exact hk.hostTurn h

end HostTurn

/-! ### OBUF and the result registers -/

/-- Two states with one OBUF, one set of result registers and one draw counter. -/
structure State.SameOutput (a b : State) : Prop where
  params : a.params = b.params
  outLen : a.outLen = b.outLen
  padOut : a.padOut = b.padOut
  nbits : a.nbits = b.nbits
  obuf : a.mem.obuf = b.mem.obuf
  draws : a.draws = b.draws

theorem State.SameOutput.refl (a : State) : a.SameOutput a := ⟨rfl, rfl, rfl, rfl, rfl, rfl⟩

/-- Everything a command can do to OBUF and the result registers (R99, R103): nothing, the failure writes, or the success
writes of a result that fits, whose pad count, if it has one, is the distance to whole bytes. -/
inductive OutputWrite (s : State) : State → Prop where
  | keep : OutputWrite s s
  | drop : OutputWrite s s.dropOutput
  | result (out : List Byte) (pad : BitVec 3) (n : Nat) (fits : out.length ≤ s.params.nObuf)
      (padded : pad.toNat ≠ 0 → n + pad.toNat = 8 * out.length) : OutputWrite s (s.writeOutput out pad n)

/-- R100: the pad count of PACK is the distance to whole bytes. -/
theorem packStream_padded (bits : Bits) :
    bits.length + (BitVec.ofNat 3 (padCount bits.length)).toNat = 8 * (packStream bits).length := by
  obtain ⟨hlt, -, hsum⟩ := padCount_spec bits.length
  rw [length_packStream, BitVec.toNat_ofNat, Nat.mod_eq_of_lt hlt, hsum]

theorem packCommand_outputWrite (s : State) : OutputWrite s (packCommand s).after := by
  rcases packCommand_output s with e | ⟨bits, hl, e⟩ <;> rw [e]
  · exact .drop
  · exact .result _ _ _ hl fun _ => packStream_padded bits

theorem unpackCommand_outputWrite (s : State) : OutputWrite s (unpackCommand s).after := by
  rcases unpackCommand_output s with e | ⟨out, hl, e⟩ <;> rw [e]
  · exact .drop
  · exact .result _ _ _ hl fun h => absurd rfl h

/-- The first three stages of COMPRESS leave OBUF and the result registers (R110). -/
theorem State.compressTables_sameOutput (s : State) : s.compressTables.SameOutput s := by
  rw [s.compressTables_frame]
  exact ⟨rfl, rfl, rfl, rfl, rfl, rfl⟩

/-- Like states stay alike under the same output write. -/
theorem OutputWrite.of_sameOutput {r s b : State} (h : r.SameOutput s) (hw : OutputWrite r b) :
    ∃ b', b.SameOutput b' ∧ OutputWrite s b' := by
  have hp := h.params
  cases hw with
  | keep => exact ⟨s, h, .keep⟩
  | drop => exact ⟨s.dropOutput, ⟨hp, rfl, rfl, rfl, by simp [h.draws], by simp [h.draws]⟩, .drop⟩
  | result out pad n fits padded =>
    exact ⟨s.writeOutput out pad n, ⟨hp, rfl, rfl, rfl, by simp [h.obuf], h.draws⟩, .result _ _ _ (hp ▸ fits) padded⟩

/-- Every command does one output write, beside what it does to the tables (R64). -/
theorem commandResult_outputWrite (i : Instr) (s : State) :
    ∃ b, (commandResult i s).after.SameOutput b ∧ OutputWrite s b := by
  cases i with
  | nop | build | gencb | clrcb | illegal => exact ⟨s, ⟨rfl, rfl, rfl, rfl, rfl, rfl⟩, .keep⟩
  | freq =>
    refine ⟨s, ?_, .keep⟩
    rw [commandResult]
    rcases freqCommand_cases s with ⟨-, e⟩ | ⟨-, e⟩ <;> rw [e] <;> exact ⟨rfl, rfl, rfl, rfl, rfl, rfl⟩
  | pack => exact ⟨_, State.SameOutput.refl _, packCommand_outputWrite s⟩
  | unpack => exact ⟨_, State.SameOutput.refl _, unpackCommand_outputWrite s⟩
  | compress =>
    rw [commandResult]
    rcases compressCommand_cases s with ⟨-, -, e⟩ | ⟨-, -, e⟩ | ⟨-, e⟩ <;> rw [e]
    · exact ⟨_, State.SameOutput.refl _, .drop⟩
    · exact ⟨_, State.SameOutput.refl _, .keep⟩
    · exact (packCommand_outputWrite _).of_sameOutput s.compressTables_sameOutput

/-! ### The memories (R32 to R36, R59) -/

theorem State.MemInv.congr {s t : State} (h : s.MemInv) (hp : t.params = s.params) (hm : t.mem = s.mem)
    (hd : s.draws ≤ t.draws) : t.MemInv where
  legal := hp ▸ h.legal
  wf := by rw [hp, hm]; exact h.wf
  ibuf_drawn := by rw [hm]; exact h.ibuf_drawn.trans_le hd
  obuf_drawn := by rw [hm]; exact h.obuf_drawn.trans_le hd
  draws_differ := hm ▸ h.draws_differ

/-- After reset IBUF and OBUF hold the draws d and d + 1, the next one being d + 2 (R39). -/
theorem State.memInv_resetWith {p : Params} (hp : p.Legal) (d : Nat) : (State.resetWith p d).MemInv where
  legal := hp
  wf := Memory.wf_reset p d
  ibuf_drawn := Nat.lt_add_of_pos_right (by decide)
  obuf_drawn := Nat.lt_succ_self _
  draws_differ := (Nat.lt_succ_self d).ne

theorem State.MemInv.writeTarget {s : State} {a n : Nat} {v : Word} {t : Target} (h : s.MemInv)
    (ht : target s.params a n = some t) : (s.writeTarget n v t).MemInv := by
  obtain ⟨hp, -, -, -, -, -, -, -, -, -, -, hd, -, hi, ho⟩ := State.writeTarget_frame n v s t
  exact ⟨hp ▸ h.legal, hp ▸ State.writeTarget_wf ht h.wf, by rw [hi, hd]; exact h.ibuf_drawn,
    by rw [ho, hd]; exact h.obuf_drawn, by rw [hi, ho]; exact h.draws_differ⟩

theorem hostKeeps_memInv : HostKeeps State.MemInv where
  plan _ _ _ h := h.congr rfl rfl le_rfl
  respond _ _ _ hd h := h.congr rfl rfl hd
  overrun _ h := h.congr rfl rfl le_rfl
  write _ _ _ _ _ ht _ _ h := h.writeTarget ht
  reset s h := (State.memInv_resetWith h.legal s.draws).congr rfl rfl le_rfl
  release _ h := h.congr rfl rfl le_rfl

/-- An output write that drops OBUF takes a fresh draw for it; the others keep its draw (R99, R103). -/
theorem OutputWrite.draws {s b : State} (hw : OutputWrite s b) :
    (b.draws = s.draws ∧ b.mem.obuf.draw = s.mem.obuf.draw) ∨
    (b.draws = s.draws + 1 ∧ b.mem.obuf.draw = s.draws) := by
  cases hw with
  | keep => exact .inl ⟨rfl, rfl⟩
  | drop => exact .inr ⟨rfl, rfl⟩
  | result out pad n => exact .inl ⟨rfl, Buffer.store_draw _ _ _⟩

theorem State.MemInv.complete {s : State} (h : s.MemInv) (i : Instr) : (commandResult i s).complete.MemInv := by
  obtain ⟨b, hs, hw⟩ := commandResult_outputWrite i s
  have hf := commandResult_frame i s
  have hp : (commandResult i s).after.params = s.params := by rw [hf]
  have hi : (commandResult i s).after.mem.ibuf = s.mem.ibuf := by rw [hf]
  have hwf := commandResult_wf i h.wf
  have hid := h.ibuf_drawn
  have hod := h.obuf_drawn
  have hne := h.draws_differ
  have hdraws := hw.draws
  rw [← hs.draws, ← hs.obuf] at hdraws
  have hafter : (commandResult i s).after.MemInv :=
    ⟨hp ▸ h.legal, hp ▸ hwf, by rw [hi]; omega, by omega, by rw [hi]; omega⟩
  exact hafter.congr (by simp) (by simp) (by simp)

/-- Settles O58: host writes stay in their windows, and a completion draws OBUF anew or stores a result that fits. -/
theorem stepKeepsMemoryCanonical : Obligations.StepKeepsMemoryCanonical :=
  fun _ _ h e => hostKeeps_memInv.step h.complete h e

/-! ### The result registers (R23, R24, R25, R100) -/

theorem State.OutputInv.congr {s t : State} (h : s.OutputInv) (e : t.SameOutput s) : t.OutputInv where
  fits := by rw [e.outLen, e.params]; exact h.fits
  determined := by rw [e.outLen, e.obuf]; exact h.determined
  padded := by rw [e.padOut, e.nbits, e.outLen]; exact h.padded

theorem State.outputInv_resetWith (p : Params) (d : Nat) : (State.resetWith p d).OutputInv where
  fits := Nat.zero_le _
  determined _ h := absurd h (Nat.not_lt_zero _)
  padded h := absurd rfl h

/-- A register write leaves the memories (R18 to R22). -/
@[simp] theorem State.writeReg_mem (v : Word) (s : State) (r : Reg) : (s.writeReg v r).mem = s.mem := by
  cases r with
  | status => rw [State.writeReg, State.writeStatus_eq]
  | _ => rfl

/-- A determined OBUF byte stays determined under a host write (R45). -/
theorem State.writeTarget_obuf_determined {s : State} {n : Nat} {v : Word} {t : Target} {j : Nat}
    (h : (Table.find? s.mem.obuf.cells j).isSome = true) :
    (Table.find? (s.writeTarget n v t).mem.obuf.cells j).isSome = true := by
  cases t with
  | reg r => rw [State.writeTarget, State.writeReg_mem]; exact h
  | obuf i => rw [State.writeTarget, Buffer.find?_store, h, Bool.or_true]
  | freq | node | cb | ibuf => exact h

theorem State.OutputInv.writeTarget {s : State} (h : s.OutputInv) (n : Nat) (v : Word) (t : Target) :
    (s.writeTarget n v t).OutputInv := by
  obtain ⟨hp, -, -, -, -, hl, hpad, hn, -⟩ := State.writeTarget_frame n v s t
  exact ⟨by rw [hl, hp]; exact h.fits,
    by rw [hl]; exact fun j hj => State.writeTarget_obuf_determined (h.determined j hj),
    by rw [hpad, hn, hl]; exact h.padded⟩

theorem hostKeeps_outputInv : HostKeeps State.OutputInv where
  plan _ _ _ h := ⟨h.fits, h.determined, h.padded⟩
  respond _ _ _ _ h := ⟨h.fits, h.determined, h.padded⟩
  overrun _ h := h.congr ⟨rfl, rfl, rfl, rfl, rfl, rfl⟩
  write _ _ _ _ _ _ _ _ h := h.writeTarget _ _ _
  reset s _ := (State.outputInv_resetWith s.params s.draws).congr ⟨rfl, rfl, rfl, rfl, rfl, rfl⟩
  release _ h := h.congr ⟨rfl, rfl, rfl, rfl, rfl, rfl⟩

/-- The success writes leave registers that describe the result (R23, R24, R25): a legal size needs no 32-bit wrap. -/
theorem State.outputInv_writeOutput {s : State} (hp : s.params.Legal) {out : List Byte} {pad : BitVec 3} {n : Nat}
    (hf : out.length ≤ s.params.nObuf) (hpad : pad.toNat ≠ 0 → n + pad.toNat = 8 * out.length) :
    (s.writeOutput out pad n).OutputInv := by
  have hmax : s.params.nObuf ≤ 2 ^ 20 := hp.2.2
  have hl : (BitVec.ofNat 32 out.length).toNat = out.length := by
    rw [BitVec.toNat_ofNat, Nat.mod_eq_of_lt (by omega)]
  refine ⟨?_, fun j hj => ?_, fun h0 => ?_⟩
  · simpa [hl] using hf
  · rw [State.writeOutput_outLen, hl] at hj
    simp [Buffer.find?_store, hj]
  · have hn := hpad h0
    have hnl : (BitVec.ofNat 32 n).toNat = n := by
      rw [BitVec.toNat_ofNat, Nat.mod_eq_of_lt (by omega)]
    rw [State.writeOutput_nbits, State.writeOutput_padOut, State.writeOutput_outLen, hl, hnl]
    exact hn

theorem OutputWrite.outputInv {s b : State} (hw : OutputWrite s b) (hp : s.params.Legal) (h : s.OutputInv) :
    b.OutputInv := by
  cases hw with
  | keep => exact h
  | drop => exact ⟨Nat.zero_le _, fun _ h => absurd h (Nat.not_lt_zero _), fun h => absurd rfl h⟩
  | result out pad n fits padded => exact State.outputInv_writeOutput hp fits padded

theorem State.OutputInv.complete {s : State} (h : s.OutputInv) (hp : s.params.Legal) (i : Instr) :
    (commandResult i s).complete.OutputInv := by
  obtain ⟨b, hs, hw⟩ := commandResult_outputWrite i s
  exact ((hw.outputInv hp h).congr hs).congr (by constructor <;> simp)

/-- Settles O59: only completions and RST write the result registers, and the host can only determine more OBUF bytes. -/
theorem stepKeepsResultRegistersTrue : Obligations.StepKeepsResultRegistersTrue :=
  fun _ _ hm h e => hostKeeps_outputInv.step (h.complete hm.legal) h e

/-! ### The arena that BUILD makes (R81 to R88) -/

/-- A child of a merge was created before it. -/
theorem Memory.Merged.child_lt {m : Memory} {h : Nat} (hm : m.Merged h) (b : Bool) : (m.nodeAt h).child b < h := by
  cases b with
  | false => exact hm.left_live.1
  | true => exact hm.right_live.1

/-- A merge takes two different nodes: a key is not less than itself. -/
theorem Memory.Merged.children_differ {m : Memory} {h : Nat} (hm : m.Merged h) :
    (m.nodeAt h).left ≠ (m.nodeAt h).right := by
  intro e
  have hl := hm.less
  rw [e, Memory.KeyLess] at hl
  omega

/-- The last node is the one node that no other took as a child: one key is left, and the last node is live. -/
theorem MergeInv.live_iff_last {K total : Nat} {k : Key} {ns : List Node} (hi : MergeInv K total [k] ns) (x : Nat) :
    (arena ns).Live ns.length x ↔ x + 1 = ns.length := by
  have hlast : (arena ns).Live ns.length (ns.length - 1) := by
    have hpos : K < ns.length + 1 ∧ ns.length + 1 = 2 * K := ⟨Nat.lt_succ_of_le hi.started, hi.length⟩
    refine ⟨by omega, fun g hg hch => ?_⟩
    by_cases hgK : g < K
    · exact absurd (hch.1.symm.trans (hi.leaves g hgK)) (by decide)
    · have hm := hi.merged g (by omega) hg
      rcases hch.2 with e | e
      · have := hm.left_live.1; omega
      · have := hm.right_live.1; omega
  obtain ⟨k', hk', ek⟩ := (hi.live _).mpr hlast
  obtain rfl := List.mem_singleton.mp hk'
  constructor
  · intro hx
    obtain ⟨k'', hk'', rfl⟩ := (hi.live x).mpr hx
    obtain rfl := List.mem_singleton.mp hk''
    have := hlast.1
    omega
  · intro hx
    rwa [show x = ns.length - 1 by omega]

/-- Beyond the arena every entry is empty (R35). -/
theorem arena_nodeAt_beyond {ns : List Node} {h : Nat} (hh : ns.length ≤ h) : (arena ns).nodeAt h = Node.empty := by
  rw [arena_nodeAt, List.getD_eq_default _ _ hh]

/-- Only the merges are internal. -/
theorem MergeInv.merged_of_internal {K total : Nat} {q : List Key} {ns : List Node} (hi : MergeInv K total q ns) {h : Nat}
    (hk : ((arena ns).nodeAt h).kind = .internal) : (arena ns).Merged h := by
  refine hi.merged h ?_ ?_ <;> by_contra hc
  · exact absurd (hk.symm.trans (hi.leaves h (by omega))) (by decide)
  · rw [arena_nodeAt_beyond (by omega)] at hk
    exact absurd hk (by decide)

/-- R87: every node but the last has exactly one parent; a merge takes live nodes, so no second one. -/
theorem MergeInv.one_parent {K total : Nat} {k : Key} {ns : List Node} (hi : MergeInv K total [k] ns) {h : Nat}
    (hh : h + 1 < ns.length) : ∃! g, (arena ns).IsChild g h := by
  have hdead : ¬ (arena ns).Live ns.length h := fun hl => by
    have := (hi.live_iff_last h).mp hl
    omega
  have hlive : ∀ g, (arena ns).IsChild g h → (arena ns).Live g h := fun g hch => by
    have hm := hi.merged_of_internal hch.1
    rcases hch.2 with e | e
    · exact e ▸ hm.left_live
    · exact e ▸ hm.right_live
  have hex : ∃ g, (arena ns).IsChild g h := by
    by_contra hno
    exact hdead ⟨by omega, fun g _ hch => hno ⟨g, hch⟩⟩
  obtain ⟨g, hg⟩ := hex
  refine ⟨g, hg, fun g' hg' => ?_⟩
  rcases Nat.lt_trichotomy g g' with hlt | rfl | hlt
  · exact absurd hg ((hlive g' hg').2 g hlt)
  · rfl
  · exact absurd hg' ((hlive g hg).2 g' hlt)

/-- R82: leaf h is that of the h-th present byte value. -/
theorem buildNodes_leaf {f : Table Word} {h : Nat} (hh : h < (presentSyms f).length) :
    (arena (buildNodes f)).nodeAt h = leafNode f (presentSyms f)[h] := by
  have hpre : ∃ l, buildNodes f = (presentSyms f).map (leafNode f) ++ l := by
    by_cases h2 : 2 ≤ (presentSyms f).length
    · obtain ⟨k, l, e, -⟩ := buildNodes_spec h2
      exact ⟨l, e⟩
    · obtain ⟨b, hb⟩ := List.length_eq_one_iff.mp (show (presentSyms f).length = 1 by omega)
      exact ⟨_, by rw [buildNodes_single hb, hb]; rfl⟩
  obtain ⟨l, e⟩ := hpre
  rw [arena_nodeAt, e, List.getD_append _ _ _ _ (by rwa [List.length_map]), List.getD_eq_getElem _ _ (by simpa using hh),
    List.getElem_map]

/-- R81: a leaf weighs the count of its byte value. -/
theorem leafNode_weight (f : Table Word) (b : Nat) : (leafNode f b).weight.toNat = (Table.get 0#32 f b).toNat := by
  have := (Table.get 0#32 f b).isLt
  simp only [leafNode, BitVec.zeroExtend, BitVec.toNat_setWidth]
  omega

/-- R82: the byte values of the leaves rise. -/
theorem buildNodes_syms_rise {f : Table Word} {g h : Nat} (hlt : g < h) (hh : h < (presentSyms f).length) :
    ((arena (buildNodes f)).nodeAt g).sym < ((arena (buildNodes f)).nodeAt h).sym := by
  have hmem := (mem_presentSyms.mp (List.getElem_mem hh)).1
  have hrise := List.pairwise_iff_getElem.mp (presentSyms_pairwise f) g h (hlt.trans hh) hh hlt
  rw [buildNodes_leaf (hlt.trans hh), buildNodes_leaf hh, leafNode, leafNode, BitVec.lt_def, BitVec.toNat_ofNat,
    BitVec.toNat_ofNat]
  omega

/-- R81: a leaf has no children, and its weight is the count of a present byte value. -/
theorem buildNodes_leaf_fields {f : Table Word} {h : Nat} (hh : h < (presentSyms f).length) :
    ((arena (buildNodes f)).nodeAt h).left = 0#9 ∧ ((arena (buildNodes f)).nodeAt h).right = 0#9 ∧
    0 < ((arena (buildNodes f)).nodeAt h).weight.toNat ∧ ((arena (buildNodes f)).nodeAt h).weight.toNat < 2 ^ 32 := by
  have hne := (mem_presentSyms.mp (List.getElem_mem hh)).2
  rw [buildNodes_leaf hh, leafNode_weight]
  exact ⟨rfl, rfl, Nat.pos_of_ne_zero fun e => hne (BitVec.eq_of_toNat_eq e), BitVec.isLt _⟩

/-- R86: the root over the leaf and the phantom. -/
theorem buildNodes_single_root {f : Table Word} (h1 : (presentSyms f).length = 1) :
    (arena (buildNodes f)).nodeAt 1 = phantomNode ∧
    (arena (buildNodes f)).nodeAt 2 = ⟨.internal, 0#8, 0#9, 1#9, ((arena (buildNodes f)).nodeAt 0).weight⟩ := by
  obtain ⟨b, hb⟩ := List.length_eq_one_iff.mp h1
  simp only [arena_nodeAt, buildNodes_single hb]
  exact ⟨rfl, rfl⟩

/-- R87: no node, the three of R86, or 2K − 1. -/
theorem length_buildNodes_cases (f : Table Word) :
    ((presentSyms f).length = 0 ∧ (buildNodes f).length = 0) ∨ ((presentSyms f).length = 1 ∧ (buildNodes f).length = 3) ∨
    (2 ≤ (presentSyms f).length ∧ (buildNodes f).length = 2 * (presentSyms f).length - 1) := by
  have h := length_buildNodes f
  split at h
  · next h0 => exact .inl ⟨h0, h⟩
  · split at h
    · next h1 => exact .inr (.inl ⟨h1, h⟩)
    · exact .inr (.inr ⟨by omega, h⟩)

/-- An internal node is the root of R86 or a merge of R83. -/
theorem buildNodes_internal_cases {f : Table Word} {h : Nat}
    (hk : ((arena (buildNodes f)).nodeAt h).kind = .internal) :
    ((presentSyms f).length = 1 ∧ h = 2) ∨ (2 ≤ (presentSyms f).length ∧ (arena (buildNodes f)).Merged h) := by
  have hin : h < (buildNodes f).length := by
    by_contra hc
    rw [arena_nodeAt_beyond (by omega)] at hk
    exact absurd hk (by decide)
  rcases length_buildNodes_cases f with ⟨-, hl⟩ | ⟨h1, hl⟩ | ⟨h2, -⟩
  · omega
  · have hne0 : h ≠ 0 := by
      rintro rfl
      rw [buildNodes_leaf (by omega), leafNode] at hk
      cases hk
    have hne1 : h ≠ 1 := by
      rintro rfl
      rw [(buildNodes_single_root h1).1] at hk
      cases hk
    exact .inl ⟨h1, by omega⟩
  · obtain ⟨k, l, -, hi⟩ := buildNodes_spec h2
    exact .inr ⟨h2, hi.merged_of_internal hk⟩

/-- R84, R87, R88: an internal node joins two different earlier nodes and has the sum of their weights. -/
theorem buildNodes_join {f : Table Word} {h : Nat} (hk : ((arena (buildNodes f)).nodeAt h).kind = .internal) :
    (∀ b, ((arena (buildNodes f)).nodeAt h).child b < h) ∧
    ((arena (buildNodes f)).nodeAt h).left ≠ ((arena (buildNodes f)).nodeAt h).right ∧
    ((arena (buildNodes f)).nodeAt h).weight.toNat =
      ((arena (buildNodes f)).nodeAt (((arena (buildNodes f)).nodeAt h).child false)).weight.toNat +
      ((arena (buildNodes f)).nodeAt (((arena (buildNodes f)).nodeAt h).child true)).weight.toNat := by
  rcases buildNodes_internal_cases hk with ⟨h1, rfl⟩ | ⟨-, hm⟩
  · obtain ⟨hphantom, hroot⟩ := buildNodes_single_root h1
    simp [hroot, Node.child, hphantom, phantomNode]
  · exact ⟨hm.child_lt, hm.children_differ, hm.weight_toNat⟩

/-- R87: every node but the last has exactly one parent. -/
theorem buildNodes_one_parent {f : Table Word} {h : Nat} (hh : h + 1 < (buildNodes f).length) :
    ∃! g, (arena (buildNodes f)).IsChild g h := by
  rcases length_buildNodes_cases f with ⟨-, hl⟩ | ⟨h1, hl⟩ | ⟨h2, -⟩
  · omega
  · have hchild : (arena (buildNodes f)).IsChild 2 h := by
      have hcase : 0 = h ∨ 1 = h := by omega
      simpa [Memory.IsChild, (buildNodes_single_root h1).2] using hcase
    refine ⟨2, hchild, fun g hg => ?_⟩
    rcases buildNodes_internal_cases hg.1 with ⟨-, e⟩ | ⟨h2, -⟩
    · exact e
    · omega
  · obtain ⟨k, l, -, hi⟩ := buildNodes_spec h2
    exact hi.one_parent hh

/-- R87: the nodes after the leaves are internal, the phantom of R86 apart. -/
theorem buildNodes_internal {f : Table Word} {h : Nat} (hge : (presentSyms f).length ≤ h) (hlt : h < (buildNodes f).length)
    (h1 : (presentSyms f).length = 1 → h = 2) : ((arena (buildNodes f)).nodeAt h).kind = .internal := by
  rcases length_buildNodes_cases f with ⟨-, hl⟩ | ⟨hone, -⟩ | ⟨h2, -⟩
  · omega
  · rw [h1 hone, (buildNodes_single_root hone).2]
  · obtain ⟨k, l, -, hi⟩ := buildNodes_spec h2
    exact (hi.merged h hge hlt).kind

/-! ### The tree in NODE (R35) -/

/-- The tree invariant speaks of NODE, NLEAF, NNODE and ROOT only. -/
theorem State.TreeInv.congr {s t : State} (h : s.TreeInv) (hn : t.mem.node = s.mem.node) (hl : t.nleaf = s.nleaf)
    (hk : t.nnode = s.nnode) (hr : t.root = s.root) : t.TreeInv := by
  have e : t.mem.nodeAt = s.mem.nodeAt := by
    funext x
    rw [Memory.nodeAt, Memory.nodeAt, hn]
  have ec : t.mem.IsChild = s.mem.IsChild := by
    funext g x
    rw [Memory.IsChild, Memory.IsChild, e]
  have em : ∀ x, s.mem.Merged x → t.mem.Merged x := fun x hm => hm.congr fun g _ => by rw [e]
  constructor <;> simp only [e, ec, hl, hk, hr]
  exacts [h.nleaf_le, h.nnode_eq, h.root_eq, h.beyond, h.leaf, h.phantom, h.internal, h.child_lt, h.children_differ,
    h.one_parent, h.syms_rise, h.weights_add, h.leaf_fields, h.single,
    fun h2 x hge hlt => em x (h.merged h2 x hge hlt)]

/-- BUILD makes a tree, whatever FREQ holds (R81 to R88). -/
theorem buildCommand_treeInv (s : State) : (buildCommand s).after.TreeInv := by
  have hb := length_presentSyms_le s.mem.freq
  have hlen := length_buildNodes s.mem.freq
  have hcases := length_buildNodes_cases s.mem.freq
  have hl : (buildCommand s).after.nleaf.toNat = (presentSyms s.mem.freq).length := by
    rw [buildCommand, BitVec.toNat_ofNat, Nat.mod_eq_of_lt (by omega)]
  have hk : (buildCommand s).after.nnode.toNat = (buildNodes s.mem.freq).length := by
    rw [buildCommand, BitVec.toNat_ofNat, Nat.mod_eq_of_lt (by omega)]
  have hn : (buildCommand s).after.mem.nodeAt = (arena (buildNodes s.mem.freq)).nodeAt := rfl
  have hc : (buildCommand s).after.mem.IsChild = (arena (buildNodes s.mem.freq)).IsChild := rfl
  constructor <;> simp only [hl, hk, hn, hc]
  · exact hb
  · exact hlen
  · rfl
  · exact fun h hh => arena_nodeAt_beyond hh
  · exact fun h hh => by rw [buildNodes_leaf hh]; rfl
  · exact fun h1 => (buildNodes_single_root h1).1
  · exact fun h hge hlt h1 => buildNodes_internal hge hlt h1
  · exact fun h b hi => (buildNodes_join hi).1 b
  · exact fun h hi => (buildNodes_join hi).2.1
  · exact fun h hh => buildNodes_one_parent hh
  · exact fun g h hlt hh => buildNodes_syms_rise hlt hh
  · exact fun h hi => (buildNodes_join hi).2.2
  · exact fun h hh => buildNodes_leaf_fields hh
  · exact fun h1 => (buildNodes_single_root h1).2
  · intro h2 h hge hlt
    obtain ⟨k, l, -, hi⟩ := buildNodes_spec h2
    exact (hi.merged h hge hlt).congr fun g _ => (buildCommand_nodeAt s g).symm

/-- After reset NODE holds what BUILD makes of an empty FREQ (R39, R85). -/
theorem State.treeInv_resetWith (p : Params) (d : Nat) : (State.resetWith p d).TreeInv := by
  have hs : presentSyms [] = [] := by simp [presentSyms]
  have hb := buildNodes_empty hs
  refine (buildCommand_treeInv (State.resetWith p d)).congr ?_ ?_ ?_ ?_ <;>
    simp [buildCommand, State.resetWith, Memory.reset, hs, hb, Table.ofListFrom]

theorem State.TreeInv.writeTarget {s : State} (h : s.TreeInv) (n : Nat) (v : Word) (t : Target) :
    (s.writeTarget n v t).TreeInv := by
  obtain ⟨-, hn, hl, hk, hr, -⟩ := State.writeTarget_frame n v s t
  exact h.congr hn hl hk hr

theorem hostKeeps_treeInv : HostKeeps State.TreeInv where
  plan _ _ _ h := h.congr rfl rfl rfl rfl
  respond _ _ _ _ h := h.congr rfl rfl rfl rfl
  overrun _ h := h.congr rfl rfl rfl rfl
  write _ _ _ _ _ _ _ _ h := h.writeTarget _ _ _
  reset s _ := (State.treeInv_resetWith s.params s.draws).congr rfl rfl rfl rfl
  release _ h := h.congr rfl rfl rfl rfl

/-- Every command leaves the tree or makes one: PACK and UNPACK leave it, COMPRESS makes one unless E_LEN comes first. -/
theorem State.TreeInv.after {s : State} (h : s.TreeInv) (i : Instr) : (commandResult i s).after.TreeInv := by
  cases i with
  | build => exact buildCommand_treeInv s
  | nop | gencb | clrcb | illegal => exact h.congr rfl rfl rfl rfl
  | freq =>
    rw [commandResult]
    rcases freqCommand_cases s with ⟨-, e⟩ | ⟨-, e⟩ <;> rw [e] <;> exact h.congr rfl rfl rfl rfl
  | pack =>
    rw [commandResult, packCommand_frame]
    exact h.congr rfl rfl rfl rfl
  | unpack =>
    rw [commandResult, unpackCommand_frame]
    exact h.congr rfl rfl rfl rfl
  | compress =>
    rw [commandResult]
    rcases compressCommand_cases s with ⟨-, -, e⟩ | ⟨-, -, e⟩ | ⟨-, e⟩ <;> rw [e]
    · exact h.congr rfl rfl rfl rfl
    · exact h
    · rw [packCommand_frame]
      exact (buildCommand_treeInv (freqCommand s).after).congr rfl rfl rfl rfl

theorem State.TreeInv.complete {s : State} (h : s.TreeInv) (i : Instr) : (commandResult i s).complete.TreeInv :=
  (h.after i).congr (by simp) (by simp) (by simp) (by simp)

/-- Settles O60: only BUILD and COMPRESS write the tree, and what BUILD makes is a tree whatever FREQ holds. -/
theorem stepKeepsTheTree : Obligations.StepKeepsTheTree :=
  fun _ _ h e => hostKeeps_treeInv.step h.complete h e

/-! ### The registers (10_state.md section 2) -/

/-- A field read as a word, its reserved bits 0, is its number (R31). -/
theorem toNat_zeroExtend_word {n : Nat} (x : BitVec n) (h : n ≤ 32) : (x.zeroExtend 32).toNat = x.toNat :=
  BitVec.toNat_setWidth_of_le h

/-- Settles O48, register by register. -/
theorem registerReads : Obligations.RegisterReads := by
  intro s hp hr r
  refine ⟨s.regValue r, State.access_read_reg r s hr, ?_⟩
  have hb := (s.busy_eq_false_iff).mpr hp
  cases r with
  | id => rfl
  | ibufSize | obufSize => exact BitVec.toNat_ofNat _ _
  | status => simp [State.regValue, State.statusWord_toNat, hb]
  | irqEn =>
    rw [State.regValue, toNat_zeroExtend_word _ (by decide), BitVec.toNat_ofBool]
  | padIn | padOut | nleaf | nnode | root | errSym => exact toNat_zeroExtend_word _ (by decide)
  | cmd | inLen | outLen | nbits | errPos => rfl

/-- Settles O49, register by register. -/
theorem registerWrites : Obligations.RegisterWrites := by
  intro s r v hp hr
  have ht : target s.params (BitVec.ofNat 22 r.offset).toNat Width.word.bytes = some (.reg r) := by
    rw [Reg.offset_toNat]
    exact target_reg s.params r
  have hb := (s.busy_eq_false_iff).mpr hp
  rw [State.access_write_idle hr hp ht]
  refine ⟨_, rfl, ⟨0, rfl⟩, ?_⟩
  cases r with
  | status => simp [State.writeTarget, State.writeReg, State.writeStatus_eq, hb]
  | cmd | irqEn | inLen | padIn => rfl
  | id | ibufSize | obufSize | outLen | padOut | nbits | nleaf | nnode | root | errPos | errSym => rfl

/-- Settles O56: the invariants are those of any reset, at the reference parameters. -/
theorem resetStateHoldsTheResetValues : Obligations.ResetStateHoldsTheResetValues := by
  refine ⟨fun r => ?_, rfl, rfl, fun _ => rfl, fun _ => rfl, fun _ => rfl, ?_,
    State.memInv_resetWith (by decide) 0, State.outputInv_resetWith _ _, State.treeInv_resetWith _ _⟩
  · cases r <;> rfl
  · exact ⟨nofun, nofun, nofun, fun h => absurd rfl h⟩

end Sys2Proof.Machine
end

section
/-! SUPPORT. The host bus (20_memory.md): which accesses get ERR (R41 to R47), what an access does in each phase (R45 to
R54), and the host's turn (R55, R71); then the ten statements on them. -/

namespace Sys2Proof.Machine

/-! ### Which accesses get ERR (R41 to R47) -/

theorem Width.bytes_eq_four {n : Width} : n.bytes = 4 ↔ n = .word := by cases n <;> decide

theorem Width.bytes_pos (n : Width) : 1 ≤ n.bytes := by cases n <;> decide

theorem Width.bytes_le_four (n : Width) : n.bytes ≤ 4 := by cases n <;> decide

/-- The width of an access divides the offset of each buffer window. -/
theorem Width.mod_bytes_add (n : Width) (w i : Nat) : (0x100000 * w + i) % n.bytes = i % n.bytes := by
  cases n <;> simp only [Width.bytes] <;> omega

/-- The registers are the aligned words of the REGS window (R41). -/
theorem Reg.offset_range (r : Reg) : r.offset < 0x40 ∧ r.offset % 4 = 0 := by cases r <;> decide

/-- R41, R43, R44: the window map, on window offsets. -/
theorem target_isSome_iff {p : Params} (hp : p.Legal) (a : Nat) (n : Width) :
    (target p a n.bytes).isSome = true ↔
      (n = .word ∧ a % 4 = 0 ∧ (a < 0x40 ∨ FreqWindow a ∨ NodeWindow a ∨ CbWindow a)) ∨
      (a % n.bytes = 0 ∧ 0x100000 ≤ a ∧ a + n.bytes ≤ 0x100000 + p.nIbuf) ∨
      (a % n.bytes = 0 ∧ 0x200000 ≤ a ∧ a + n.bytes ≤ 0x200000 + p.nObuf) := by
  have hmax : p.nIbuf ≤ 2 ^ 20 := hp.1.2
  have hn := n.bytes_pos
  simp only [FreqWindow, NodeWindow, CbWindow, ← Width.bytes_eq_four]
  constructor
  · intro h
    obtain ⟨t, ht⟩ := Option.isSome_iff_exists.mp h
    have hin := target_inRange ht
    cases t with
    | reg r =>
      have hr := r.offset_range
      dsimp only at hin
      omega
    | freq | node | cb | ibuf | obuf => dsimp only at hin; omega
  · rintro (⟨hn4, ha, hw⟩ | ⟨ha, hlo, hhi⟩ | ⟨ha, hlo, hhi⟩)
    · rw [target, if_pos (by omega), if_pos ⟨hn4, ha⟩]
      split
      · rw [Option.isSome_map]
        exact Reg.at?_isSome ha ‹_›
      · split
        · rfl
        · split
          · rfl
          · rw [if_pos (by omega)]
            rfl
    · rw [target, if_neg (by omega), if_pos (by omega), if_pos ⟨ha, by omega⟩]
      rfl
    · rw [target, if_neg (by omega), if_neg (by omega), if_pos ⟨ha, by omega⟩]
      rfl

/-- An access gets no ERR when RST is released and the window map gives it a target. -/
theorem State.accessErrs_eq_false_iff {acc : Access} {s : State} :
    s.accessErrs acc = false ↔ s.rst = false ∧ ∃ t, acc.target? s.params = some t := by
  rw [State.accessErrs, Bool.or_eq_false_iff, Option.isNone_eq_false_iff, Option.isSome_iff_exists]

/-- R47: an access that gets ERR leaves its response and nothing else. -/
theorem State.access_of_errs {acc : Access} {s : State} (h : s.accessErrs acc = true) :
    s.access acc = { s with resp := some errResponse } := by
  rcases s.access_cases acc with ⟨-, e⟩ | ⟨t, hr, ht, -⟩
  · exact e
  · rw [State.accessErrs_eq_false_iff.mpr ⟨hr, t, ht⟩] at h
    cases h

/-- R42: an access that gets no ERR gets OK. -/
theorem State.access_gotOk {acc : Access} {s : State} (h : s.accessErrs acc = false) : (s.access acc).GotOk := by
  rcases s.access_cases acc with
    ⟨he, -⟩ | ⟨t, -, -, ⟨a, n, -, e⟩ | ⟨a, n, v, -, -, -, e⟩ | ⟨a, n, v, -, -, e⟩⟩
  · rw [h] at he
    cases he
  · rw [e, State.readAccess]
    split <;> exact ⟨_, rfl⟩
  · exact ⟨0, by rw [e]⟩
  · exact ⟨0, by rw [e]⟩

/-- Settles O40: an access gets OK when it has a target, and the window map says which accesses have one. -/
theorem windowMapDecidesTheResponse : Obligations.WindowMapDecidesTheResponse := by
  intro s a n v hp hr
  refine ⟨rfl, fun acc h => State.access_gotOk h, fun acc h => ⟨0, by rw [State.access_of_errs h]; rfl⟩, ?_⟩
  rw [← target_isSome_iff hp, State.accessErrs_eq_false_iff, Option.isSome_iff_exists]
  exact and_iff_right hr

/-- Settles O41: such an access leaves its response only, and the interrupt does not depend on that. -/
theorem errAccessChangesNothing : Obligations.ErrAccessChangesNothing := by
  intro s acc h
  rw [State.access_of_errs h]
  exact ⟨0, rfl, fun _ _ _ => rfl, rfl⟩

/-! ### Accesses in IDLE (R45, R48, R49, R51) -/

/-- An aligned access inside IBUF (R41, R44). -/
theorem target_ibuf {p : Params} (hp : p.Legal) {i : Nat} {n : Width} (ha : i % n.bytes = 0)
    (hi : i + n.bytes ≤ p.nIbuf) :
    target p (BitVec.ofNat 22 (0x100000 + i)).toNat n.bytes = some (.ibuf i) := by
  have hmax : p.nIbuf ≤ 2 ^ 20 := hp.1.2
  have hn := n.bytes_pos
  have e : (BitVec.ofNat 22 (0x100000 + i)).toNat = 0x100000 + i := by simp; omega
  have hm : (0x100000 + i) % n.bytes = 0 := (n.mod_bytes_add 1 i).trans ha
  rw [e, target, if_neg (by omega), if_pos (by omega), if_pos ⟨hm, by omega⟩, Nat.add_sub_cancel_left]

/-- An aligned access inside OBUF (R41, R44). -/
theorem target_obuf {p : Params} (hp : p.Legal) {i : Nat} {n : Width} (ha : i % n.bytes = 0)
    (hi : i + n.bytes ≤ p.nObuf) :
    target p (BitVec.ofNat 22 (0x200000 + i)).toNat n.bytes = some (.obuf i) := by
  have hmax : p.nObuf ≤ 2 ^ 20 := hp.2.2
  have hn := n.bytes_pos
  have e : (BitVec.ofNat 22 (0x200000 + i)).toNat = 0x200000 + i := by simp; omega
  have hm : (0x200000 + i) % n.bytes = 0 := (n.mod_bytes_add 2 i).trans ha
  rw [e, target, if_neg (by omega), if_neg (by omega), if_pos ⟨hm, by omega⟩, Nat.add_sub_cancel_left]

/-- What a buffer read of n bytes returns: the n bytes in their lanes, 0 above (R42, R45). -/
theorem joinLanes_window (f : Nat → Byte) (n : Width) :
    (joinLanes ((List.range n.bytes).map f)).toNat < 2 ^ (8 * n.bytes) ∧
    ∀ j, j < n.bytes → (joinLanes ((List.range n.bytes).map f)).extractLsb' (8 * j) 8 = f j :=
  ⟨by simpa using joinLanes_lt ((List.range n.bytes).map f), fun _ hj => joinLanes_bytes f hj n.bytes_le_four⟩

/-- Settles O42: both buffers store the lanes of the data and return their bytes in lanes. -/
theorem bufferAccessesAreLittleEndian : Obligations.BufferAccessesAreLittleEndian := by
  intro s i n v hp hidle hr ha
  refine ⟨fun hi => ?_, fun hi => ?_⟩
  · have ht := target_ibuf hp ha hi
    exact ⟨_, State.access_write_idle hr hidle ht, fun j => Buffer.byte_store_lanes _ _ _ j _,
      fun x => Buffer.byte_store_lanes_ne _ _ _ x _, rfl, ⟨0, rfl⟩, _, State.access_read_idle hr hidle ht,
      joinLanes_window _ n⟩
  · have ht := target_obuf hp ha hi
    exact ⟨_, State.access_write_idle hr hidle ht, fun j => Buffer.byte_store_lanes _ _ _ j _,
      fun x => Buffer.byte_store_lanes_ne _ _ _ x _, rfl, ⟨0, rfl⟩, _, State.access_read_idle hr hidle ht,
      joinLanes_window _ n⟩

/-- A read of a mapped target in IDLE, by what the target holds (R54). -/
theorem State.access_read_value {s : State} {a : Offset} {n : Width} {t : Target} {d : Word} (hr : s.rst = false)
    (hp : s.phase = .idle) (ht : target s.params a.toNat n.bytes = some t) (hd : s.targetValue n.bytes t = d) :
    s.access (.read a n) = { s with resp := some ⟨true, d⟩ } :=
  hd ▸ State.access_read_idle hr hp ht

/-- Settles O43: FREQ is a canonical table, so it reads what was written. -/
theorem freqWindowIsReadWrite : Obligations.FreqWindowIsReadWrite := by
  intro s b v hm hidle hr hb
  obtain ⟨hfreq, -⟩ := (Memory.wf_iff _ _).mp hm.wf
  have hget : ∀ x, Table.get 0#32 (Table.set 0#32 s.mem.freq b v) x = if x = b then v else s.mem.freqAt x :=
    fun x => Table.get_set _ _ b x v (Table.canonical_sorted hfreq)
  have ht := target_freq s.params hb
  exact ⟨_, State.access_write_idle hr hidle ht, hget, rfl, ⟨0, rfl⟩,
    State.access_read_value hr hidle ht ((hget b).trans (if_pos rfl))⟩

/-! ### CB words (R51) -/

/-- LEN after a write of word k (R51). -/
theorem CodeEntry.setWord_len (e : CodeEntry) (k : Nat) (v : Word) :
    (e.setWord k v).len = if k = 0 then v.extractLsb' 0 8 else e.len := by
  unfold CodeEntry.setWord
  split
  · rfl
  · split <;> rfl

/-- Code element i after a write of word k (R51). -/
theorem CodeEntry.setWord_code (e : CodeEntry) (k : Nat) (v : Word) {i : Nat} (hi : i < 256) :
    (e.setWord k v).code.getMsbD i =
      if 1 ≤ k ∧ k ≤ 8 ∧ i / 32 = k - 1 then v.getLsbD (31 - i % 32) else e.code.getMsbD i := by
  unfold CodeEntry.setWord
  split
  · rw [if_neg (by omega)]
  · split
    · rw [setCodeWord_bit _ _ (by omega) hi]
      exact if_congr (by omega) rfl rfl
    · rw [if_neg (by omega)]

/-- Word k reads back what a write of it stored (R51). -/
theorem CodeEntry.word_setWord (e : CodeEntry) (k : Nat) (v : Word) :
    (e.setWord k v).word k = if k = 0 then v &&& 0xFF#32 else if k ≤ 8 then v else 0#32 := by
  unfold CodeEntry.word CodeEntry.setWord
  split
  · apply BitVec.eq_of_toNat_eq
    simp [Nat.and_two_pow_sub_one_eq_mod _ 8]
    omega
  · split
    · exact codeWord_setCodeWord _ _ (by omega)
    · rfl

/-- Settles O45: CB is a canonical table, and one word of one entry is set. -/
theorem cbWindowLayout : Obligations.CbWindowLayout := by
  intro s b k v hm hidle hr hb hk
  obtain ⟨-, -, hcb, -⟩ := (Memory.wf_iff _ _).mp hm.wf
  have hget : ∀ x, Table.get CodeEntry.empty (Table.set CodeEntry.empty s.mem.cb b ((s.mem.cbAt b).setWord k v)) x =
      if x = b then (s.mem.cbAt b).setWord k v else s.mem.cbAt x :=
    fun x => Table.get_set _ _ b x _ (Table.canonical_sorted hcb)
  have hself := (hget b).trans (if_pos rfl)
  have ht := target_cb s.params hb hk
  exact ⟨_, State.access_write_idle hr hidle ht, (congrArg CodeEntry.len hself).trans (CodeEntry.setWord_len _ k v),
    fun i hi => (congrArg (·.code.getMsbD i) hself).trans (CodeEntry.setWord_code _ k v hi),
    fun x hx => (hget x).trans (if_neg hx), rfl, ⟨0, rfl⟩,
    State.access_read_value hr hidle ht ((congrArg (·.word k) hself).trans (CodeEntry.word_setWord _ k v))⟩

/-! ### NODE in either phase (R50) -/

/-- A write of a mapped target. -/
theorem State.access_write_mapped {s : State} {a : Offset} {n : Width} {v : Word} {t : Target} (hr : s.rst = false)
    (ht : target s.params a.toNat n.bytes = some t) : s.access (.write a n v) = s.writeAccess t n.bytes v := by
  simp only [State.access, hr, Access.target?, ht, Bool.false_eq_true, if_false]

/-- A read of a mapped target. -/
theorem State.access_read_mapped {s : State} {a : Offset} {n : Width} {t : Target} (hr : s.rst = false)
    (ht : target s.params a.toNat n.bytes = some t) : s.access (.read a n) = s.readAccess t n.bytes := by
  simp only [State.access, hr, Access.target?, ht, Bool.false_eq_true, if_false]

/-- The offsets 0x003FF0 .. 0x003FFF are unmapped (R50). -/
theorem target_nodeTail (p : Params) {a : Nat} (hlo : 0x3FF0 ≤ a) (hhi : a < 0x4000) (n : Nat) :
    target p a n = none := by
  rw [Option.eq_none_iff_forall_ne_some]
  intro t ht
  have hin := target_inRange ht
  cases t with
  | reg r =>
    have hr := r.offset_range
    dsimp only at hin
    omega
  | freq | node | cb | ibuf | obuf => dsimp only at hin; omega

/-- Settles O44: a NODE write performs nothing, a read gives the words of the entry, and behind the arena is ERR. -/
theorem nodeWindowIsReadOnly : Obligations.NodeWindowIsReadOnly := by
  intro s h k v hr hh hk
  have ht := target_node s.params hh hk
  refine ⟨⟨0, ?_⟩, fun hidle => ⟨_, State.access_read_idle hr hidle ht, ?_, ?_, ?_, ?_⟩, ?_⟩
  · rw [State.access_write_mapped hr ht, State.writeAccess, Target.dropsWhileBusy, Bool.and_false,
      if_neg Bool.false_ne_true, State.writeTarget]
  · rintro rfl; exact Node.word0_toNat _
  · rintro rfl; exact Node.word1_toNat _
  · rintro rfl; exact Node.word2_toNat _
  · rintro rfl; exact Node.word3_toNat _
  · have e : (BitVec.ofNat 22 (0x3FF0 + 4 * k)).toNat = 0x3FF0 + 4 * k := by simp; omega
    refine State.access_of_errs ?_
    rw [State.accessErrs, Access.target?, e, target_nodeTail _ (by omega) (by omega), Option.isNone_none, Bool.or_true]

/-! ### Accesses while BUSY (R53, R54) -/

/-- R53: everything a write can do while BUSY: OVR set by a dropped write or written with STATUS, and IE. -/
theorem State.writeAccess_busy {s : State} (hb : s.busy = true) (t : Target) (n : Nat) (v : Word) :
    s.writeAccess t n v =
      { s with ovr := if t.dropsWhileBusy then true else if t = .reg .status then s.ovr && !v.getLsbD 2 else s.ovr
               ie := if t = .reg .irqEn then v.getLsbD 0 else s.ie
               resp := some ⟨true, 0⟩ } := by
  cases t with
  | reg r =>
    cases r with
    | status =>
      simp [State.writeAccess, hb, Target.dropsWhileBusy, State.writeTarget, State.writeReg, State.writeStatus_eq]
    | cmd | inLen | padIn => simp [State.writeAccess, hb, Target.dropsWhileBusy, State.setOvr]
    | _ => simp [State.writeAccess, Target.dropsWhileBusy, State.writeTarget, State.writeReg]
  | node => simp [State.writeAccess, Target.dropsWhileBusy, State.writeTarget]
  | freq | cb | ibuf | obuf => simp [State.writeAccess, hb, Target.dropsWhileBusy, State.setOvr]

/-- Settles O46: the offset of the target decides which of the cases of R53 a write is. -/
theorem busyWritesAreDropped : Obligations.BusyWritesAreDropped := by
  intro s a n v _ hbusy hr he
  obtain ⟨-, t, ht⟩ := State.accessErrs_eq_false_iff.mp he
  have hin := target_inRange ht
  rw [State.access_write_mapped hr ht, State.writeAccess_busy ((s.busy_iff).mpr hbusy)]
  refine ⟨0, ?_⟩
  cases t with
  | reg r =>
    obtain ⟨ha, -⟩ := hin
    rw [← ha]
    cases r <;> simp [Reg.offset, Target.dropsWhileBusy]
  | node h k =>
    dsimp only at hin
    simp only [Target.dropsWhileBusy, Bool.false_eq_true, reduceCtorEq, if_false]
    rw [if_neg (by omega), if_neg (by omega), if_neg (by omega)]
  | freq | cb | ibuf | obuf =>
    dsimp only at hin
    simp only [Target.dropsWhileBusy, reduceCtorEq, if_false, if_true]
    rw [if_neg (by omega), if_neg (by omega), if_pos (by omega)]

/-- The windows other than REGS lie at 0x1000 and above (R41). -/
theorem target_isWindow {p : Params} {a n : Nat} {t : Target} (ht : target p a n = some t) (ha : 0x1000 ≤ a) :
    t.isWindow = true := by
  have hin := target_inRange ht
  cases t with
  | reg r =>
    have hr := r.offset_range
    dsimp only at hin
    omega
  | freq | node | cb | ibuf | obuf => rfl

/-- The targets below 0x40 are the registers at their offsets (R41). -/
theorem target_eq_reg {p : Params} {a n : Nat} {t : Target} (ht : target p a n = some t) (ha : a < 0x40) :
    ∃ r, r.offset = a ∧ t = .reg r := by
  have hin := target_inRange ht
  cases t with
  | reg r => exact ⟨r, hin.1, rfl⟩
  | freq | node | cb | ibuf | obuf => dsimp only at hin; omega

/-- What STATUS reads while a command runs: BUSY and OVR (R19). -/
theorem State.statusWord_busy {s : State} (h : s.StatusInv) (hbusy : s.phase = .busy) :
    s.statusWord = if s.ovr then 0x00000005#32 else 0x00000001#32 := by
  rw [State.statusWord, h.busy_done hbusy, h.busy_err hbusy, (s.busy_iff).mpr hbusy]
  cases s.ovr <;> rfl

/-- Settles O47: a register target reads as in IDLE, and a window target takes a draw. -/
theorem busyReads : Obligations.BusyReads := by
  intro s a n _ hs hbusy he
  obtain ⟨hr, t, ht⟩ := State.accessErrs_eq_false_iff.mp he
  rw [State.access_read_mapped hr ht]
  refine ⟨fun ha => ?_, State.statusWord_busy hs hbusy, fun ha => ⟨_, ?_, drawnData_eq s.draws n⟩⟩
  · obtain ⟨r, hoff, rfl⟩ := target_eq_reg ht ha
    refine ⟨r, hoff ▸ Reg.at?_offset r, ?_⟩
    rw [State.readAccess, Target.isWindow, Bool.and_false, if_neg Bool.false_ne_true, State.targetValue]
  · rw [State.readAccess, target_isWindow ht ha, (s.busy_iff).mpr hbusy, Bool.and_true, if_pos rfl]

/-- R53, R54: everything a host access can change while BUSY. -/
theorem State.access_busy_frame (acc : Access) {s : State} (hbusy : s.phase = .busy) :
    ∃ ovr ie resp draws, s.access acc = { s with ovr := ovr, ie := ie, resp := resp, draws := draws } := by
  cases he : s.accessErrs acc with
  | true => exact ⟨_, _, _, _, State.access_of_errs he⟩
  | false =>
    obtain ⟨hr, t, ht⟩ := State.accessErrs_eq_false_iff.mp he
    cases acc with
    | read a n => exact ⟨_, _, _, _, (State.access_read_mapped hr ht).trans (State.readAccess_frame t n.bytes s).1⟩
    | write a n v =>
      exact ⟨_, _, _, _, (State.access_write_mapped hr ht).trans
        (State.writeAccess_busy ((s.busy_iff).mpr hbusy) t _ v)⟩

/-! ### The host's turn (R55, R71) -/

theorem State.hostTurn_nil {s : State} (h : s.inputs = []) : s.hostTurn = s := by
  rw [State.hostTurn, h]

/-- A host turn whose operation does not wait on performs it (R71). -/
theorem State.hostTurn_perform {s : State} {i : Input} {rest : List Input} (h : s.inputs = i :: rest)
    (hw : i ≠ .wait) :
    s.hostTurn = State.perform i { s with inputs := rest, latency := s.latency - 1 } := by
  rw [State.hostTurn, h]
  cases i with
  | wait => exact absurd rfl hw
  | access | rst => rfl

/-- WAIT reads STATUS, and stays while the read has DONE = 0 or gets ERR (R68). -/
theorem State.hostTurn_wait {s : State} {rest : List Input} (h : s.inputs = .wait :: rest) :
    s.hostTurn = { s with resp := some (if s.rst then ⟨false, 0⟩ else ⟨true, s.statusWord⟩)
                          latency := s.latency - 1
                          inputs := if s.rst = false ∧ s.done = true then rest else s.inputs } := by
  rw [State.hostTurn, h]
  have hw : { s with inputs := rest, latency := s.latency - 1 }.statusWord = s.statusWord := rfl
  simp only [State.perform, State.access_statusRead, State.keepsWaiting, State.waitEnds, hw]
  cases hr : s.rst
  · simp only [Bool.false_eq_true, if_false, State.statusWord_bit1]
    cases s.done <;> simp
  · simp

/-- A step is the host's turn while no command runs, and while the host has steps left before a completion (R71). -/
theorem step_hostTurn {s : State} (h : s.phase = .idle ∨ (s.latency ≠ 0 ∧ s.inputs ≠ [])) :
    step s = .next s.hostTurn := by
  refine step_host (Bool.eq_false_iff.mpr fun he => ?_)
  obtain ⟨hbusy, -, hend⟩ := s.engineTurn_iff.mp he
  rcases h with hidle | ⟨hlat, hne⟩
  · exact absurd (hidle.symm.trans hbusy) nofun
  · exact hend.elim hlat hne

/-- Settles O4: it is not the engine's turn, and the oldest host operation says what the host's turn is. -/
theorem stepTakesTheOldestHostOperation : Obligations.StepTakesTheOldestHostOperation := by
  intro s hs
  have hhost : s.inputs ≠ [] → step s = .next s.hostTurn := fun h =>
    step_hostTurn (hs.imp_right fun hb => ⟨hb.2, h⟩)
  refine ⟨fun h hidle => ?_, fun acc rest h => ?_, fun b rest h => ?_, fun rest h => ?_⟩
  · rw [step_hostTurn (.inl hidle), State.hostTurn_nil h]
  · rw [hhost (by simp [h]), State.hostTurn_perform h nofun, State.perform]
  · rw [hhost (by simp [h]), State.hostTurn_perform h nofun, State.perform]
  · rw [hhost (by simp [h]), State.hostTurn_wait h]

/-- R53: everything a host operation but the assertion of RST can change while a command runs. -/
theorem State.perform_busy_frame {i : Input} {s : State} (hbusy : s.phase = .busy) (hr : s.rst = false)
    (hi : i ≠ .rst true) :
    ∃ ovr ie resp draws, State.perform i s = { s with ovr := ovr, ie := ie, resp := resp, draws := draws } := by
  cases i with
  | access acc => exact State.access_busy_frame acc hbusy
  | wait => exact State.access_busy_frame statusRead hbusy
  | rst level =>
    cases level with
    | true => exact absurd rfl hi
    | false =>
      exact ⟨s.ovr, s.ie, s.resp, s.draws, by rw [State.perform, State.setRst, if_neg Bool.false_ne_true, ← hr]⟩

/-- Settles O50: the host's turn changes OVR, IE, the response, the draws and the host's plans only. -/
theorem commandInputsAreFixedWhileBusy : Obligations.CommandInputsAreFixedWhileBusy := by
  intro s t hbusy hr he hstep hi
  rw [step_host he] at hstep
  obtain rfl := Host.Outcome.next.inj hstep
  rcases s.hostTurn_cases with ⟨-, e⟩ | ⟨i, rest, hin, e, -⟩
  · rw [e]
    simp [hbusy, hr]
  · obtain ⟨ovr, ie, resp, draws, ep⟩ :=
      State.perform_busy_frame (i := i) (s := { s with inputs := rest, latency := s.latency - 1 }) hbusy hr
        (fun h => hi (by rw [hin, h]; rfl))
    rw [e, ep]
    simp [hbusy, hr]

end Sys2Proof.Machine
end

section
/-! SUPPORT. Commands as words (30_encoding.md R60 to R63), what a command leaves unchanged (R64), the metadata mapping
(R66) and the script of CODE (R68); with them the six statements on the encoding. -/

namespace Sys2Proof.Machine

/-! ### Decode and encode (R60 to R63) -/

/-- The decoder undoes the encoder on the eight assigned words and on the reserved ones (R62, R63). -/
theorem decodeWord_encode {i : Instr} (h : i.wf = true) : decodeWord (encode i) = i := by
  cases i with
  | illegal w => exact decodeWord_of_ge ((isReservedWord_iff w).mp h)
  | nop | freq | build | gencb | pack | unpack | compress | clrcb => decide

/-- The encoder undoes the decoder on every word, which decodes to a well-formed command (R61). -/
theorem encode_decodeWord (w : Word) : (decodeWord w).wf = true ∧ encode (decodeWord w) = w := by
  rcases Nat.lt_or_ge w.toNat 8 with hlt | hge
  · rcases word_lt_eight hlt with rfl | rfl | rfl | rfl | rfl | rfl | rfl | rfl <;> decide
  · rw [decodeWord_of_ge hge]
    exact ⟨(isReservedWord_iff w).mpr hge, rfl⟩

/-- The four bytes of a word, read from the head of a sequence, are that word (R45, R60). -/
theorem decodeBytes_bytesOfWord (w : Word) (rest : List Byte) :
    decodeBytes (bytesOfWord w ++ rest) = .ok (decodeWord w, rest) := by
  simp only [bytesOfWord, List.cons_append, List.nil_append, decodeBytes, wordOfBytes_lanes]

/-- Settles O1: the lanes of a word join to the word, and the decoder and the encoder are inverse on words. -/
theorem decodeUndoesEncode : Obligations.DecodeUndoesEncode := by
  refine ⟨fun i rest h => ?_, encode_decodeWord⟩
  rw [encodeBytes, decodeBytes_bytesOfWord, decodeWord_encode h]

/-- Settles O2: the assigned words decode by evaluation, and every other one to an ILLEGAL that completes (R77). -/
theorem decodeFollowsOpcodeMap : Obligations.DecodeFollowsOpcodeMap := by
  refine ⟨by decide, by decide, by decide, by decide, by decide, by decide, by decide, by decide, fun w h => ?_⟩
  refine ⟨decodeWord_of_ge h, fun s => ⟨_, exec_eq _ s, ?_, CmdResult.complete_phase _⟩⟩
  rw [decodeWord_of_ge h]
  rfl

/-! ### What a completed command leaves unchanged (R64) -/

/-- Only BUILD and COMPRESS write NLEAF, NNODE and ROOT (R64). -/
theorem commandResult_tree_registers {i : Instr} (s : State) (hb : i ≠ .build) (hc : i ≠ .compress) :
    (commandResult i s).after.nleaf = s.nleaf ∧ (commandResult i s).after.nnode = s.nnode ∧
    (commandResult i s).after.root = s.root := by
  cases i with
  | build => exact absurd rfl hb
  | compress => exact absurd rfl hc
  | nop | gencb | clrcb | illegal => exact ⟨rfl, rfl, rfl⟩
  | freq => rcases freqCommand_cases s with ⟨-, e⟩ | ⟨-, e⟩ <;> rw [commandResult, e] <;> exact ⟨rfl, rfl, rfl⟩
  | pack => rw [commandResult, packCommand_frame]; exact ⟨rfl, rfl, rfl⟩
  | unpack => rw [commandResult, unpackCommand_frame]; exact ⟨rfl, rfl, rfl⟩

/-- Only PACK, UNPACK and COMPRESS write OUT_LEN, PAD_OUT and NBITS (R64). -/
theorem commandResult_result_registers {i : Instr} (s : State) (hp : i ≠ .pack) (hu : i ≠ .unpack)
    (hc : i ≠ .compress) :
    (commandResult i s).after.outLen = s.outLen ∧ (commandResult i s).after.padOut = s.padOut ∧
    (commandResult i s).after.nbits = s.nbits := by
  cases i with
  | pack => exact absurd rfl hp
  | unpack => exact absurd rfl hu
  | compress => exact absurd rfl hc
  | nop | build | gencb | clrcb | illegal => exact ⟨rfl, rfl, rfl⟩
  | freq => rcases freqCommand_cases s with ⟨-, e⟩ | ⟨-, e⟩ <;> rw [commandResult, e] <;> exact ⟨rfl, rfl, rfl⟩

/-- What a completed command leaves of the state before it, whatever it is (R64, R72). -/
theorem complete_commandResult_frame (i : Instr) (s : State) :
    ∃ err errPos errSym freq node cb obuf nleaf nnode root outLen padOut nbits draws,
      (commandResult i s).complete =
        { s with phase := .idle, done := true, err := err, errPos := errPos, errSym := errSym
                 mem := ⟨freq, node, cb, s.mem.ibuf, obuf⟩, nleaf := nleaf, nnode := nnode, root := root
                 outLen := outLen, padOut := padOut, nbits := nbits, draws := draws } := by
  rw [CmdResult.complete_frame, commandResult_frame, CmdResult.complete_phase, CmdResult.complete_done]
  exact ⟨_, _, _, _, _, _, _, _, _, _, _, _, _, _, rfl⟩

/-- Settles O38: the frame of every command, and the commands that write each group of registers. -/
theorem commandsWriteOnlyTheirRegisters : Obligations.CommandsWriteOnlyTheirRegisters := by
  intro i s t he
  rw [exec_eq] at he
  obtain rfl := Host.Outcome.next.inj he
  have htree := commandResult_tree_registers (i := i) s
  have hres := commandResult_result_registers (i := i) s
  simp only [← CmdResult.complete_nleaf, ← CmdResult.complete_nnode, ← CmdResult.complete_root] at htree
  simp only [← CmdResult.complete_outLen, ← CmdResult.complete_padOut, ← CmdResult.complete_nbits] at hres
  obtain ⟨err, errPos, errSym, freq, node, cb, obuf, nleaf, nnode, root, outLen, padOut, nbits, draws, e⟩ :=
    complete_commandResult_frame i s
  rw [e] at htree hres ⊢
  exact ⟨rfl, rfl, rfl, rfl, rfl, rfl, rfl, rfl, rfl, rfl, rfl, rfl, rfl, rfl, htree, hres⟩

/-! ### The bytes a command stores to (R41, R64) -/

/-- `t` holds what `s` holds in whatever memory has a byte at window offset `a` (R41). -/
structure State.SameAt (s t : State) (a : Nat) : Prop where
  params : t.params = s.params
  freq : FreqWindow a → t.mem.freq = s.mem.freq
  node : NodeWindow a → t.mem.node = s.mem.node
  cb : CbWindow a → t.mem.cb = s.mem.cb
  ibuf : t.mem.ibuf = s.mem.ibuf
  obuf : ObufBytes s.params.nObuf a → t.mem.obuf.byte (a - 0x200000) = s.mem.obuf.byte (a - 0x200000)

/-- A read that covers offset `a` with a table word or a buffer byte returns the same. -/
theorem State.SameAt.targetValue {s t : State} {a lo n : Nat} {g : Target} (h : s.SameAt t a)
    (hg : target s.params lo n = some g) (ha : lo ≤ a ∧ a < lo + n) (hwin : 0x1000 ≤ a) (hn : a < 0x100000 ∨ n = 1) :
    t.targetValue n g = s.targetValue n g := by
  have hin := target_inRange hg
  cases g with
  | reg r =>
    have hr := r.offset_range
    dsimp only at hin
    omega
  | freq b =>
    dsimp only at hin
    exact congrArg (fun f => Table.get 0#32 f b) (h.freq ⟨hwin, by omega⟩)
  | node i k =>
    dsimp only at hin
    exact congrArg (fun f => (Table.get Node.empty f i).word k) (h.node ⟨by omega, by omega⟩)
  | cb b k =>
    dsimp only at hin
    exact congrArg (fun f => (Table.get CodeEntry.empty f b).word k) (h.cb ⟨by omega, by omega⟩)
  | ibuf j => rw [State.targetValue, State.targetValue, h.ibuf]
  | obuf j =>
    dsimp only at hin
    have hj : a - 0x200000 = j := by omega
    have hbyte := h.obuf ⟨by omega, by omega⟩
    obtain rfl : n = 1 := by omega
    rw [hj] at hbyte
    simp [State.targetValue, hbyte]

theorem State.SameAt.windowByte {s t : State} {a : Nat} (h : s.SameAt t a) : t.windowByte a = s.windowByte a := by
  unfold State.windowByte
  rw [h.params]
  split
  · rfl
  · split
    · refine Option.map_congr fun g hg => ?_
      rw [h.targetValue hg (by omega) (by omega) (.inl (by omega))]
    · refine Option.map_congr fun g hg => ?_
      rw [h.targetValue hg (by omega) (by omega) (.inr rfl)]

/-- The completion step writes no memory (R72). -/
theorem State.SameAt.complete {s : State} {r : CmdResult} {a : Nat} (h : s.SameAt r.after a) :
    s.SameAt r.complete a := by
  obtain ⟨hp, hf, hn, hc, hi, ho⟩ := h
  rw [← r.complete_mem] at hf hn hc hi ho
  exact ⟨r.complete_params.trans hp, hf, hn, hc, hi, ho⟩

theorem State.SameAt.trans {s t u : State} {a : Nat} (h : s.SameAt t a) (h' : t.SameAt u a) : s.SameAt u a :=
  ⟨h'.params.trans h.params, fun w => (h'.freq w).trans (h.freq w), fun w => (h'.node w).trans (h.node w),
    fun w => (h'.cb w).trans (h.cb w), h'.ibuf.trans h.ibuf, fun w => (h'.obuf (h.params ▸ w)).trans (h.obuf w)⟩

/-- Everything PACK and UNPACK can give (R99, R103): a failure with its failure writes, or a result that fits. -/
inductive OutputResult (s : State) : CmdResult → Prop where
  | fail (f : Failure) (code : f.code ≠ .ok) : OutputResult s (s.failOutput f)
  | result (out : List Byte) (pad : BitVec 3) (n : Nat) (fits : out.length ≤ s.params.nObuf) :
      OutputResult s ⟨s.writeOutput out pad n, .ok⟩

theorem packCommand_outputResult (s : State) : OutputResult s (packCommand s) := by
  rcases packCommand_cases s with ⟨-, e⟩ | ⟨f, -, hf, e⟩ | ⟨bits, -, hbits, e⟩ <;> rw [e]
  · exact .fail _ nofun
  · refine .fail f ?_
    rcases packScan_eq_error hf with hc | ⟨hc, -⟩ <;> rw [hc] <;> nofun
  · obtain ⟨codes, -, -, hl⟩ := packScan_eq_ok hbits (Nat.zero_le _)
    exact .result _ _ _ (by rw [length_packStream]; omega)

/-- UNPACK's scan errors are E_MALFORMED and E_OBUF_OVF (R118, R120). -/
theorem unpackScan_eq_error {cb : Table CodeEntry} {cap : Nat} (bits : Bits) (k start e : Nat) (cand : Bits)
    (f : Failure) (h : unpackScan cb cap k start cand e bits = .error f) :
    f.code = .malformed ∨ f.code = .obufOvf := by
  induction bits generalizing k start e cand with
  | nil =>
    unfold unpackScan at h
    split at h
    · cases h
    · obtain rfl := Except.error.inj h
      exact .inl rfl
  | cons b bits ih =>
    unfold unpackScan at h
    dsimp only at h
    split at h
    · exact ih _ _ _ _ h
    · split at h
      · obtain rfl := Except.error.inj h
        exact .inr rfl
      · split at h
        · next g hg =>
          obtain rfl := Except.error.inj h
          exact ih _ _ _ _ hg
        · cases h

theorem unpackCommand_outputResult (s : State) : OutputResult s (unpackCommand s) := by
  unfold unpackCommand
  split
  · exact .fail _ nofun
  · split
    · exact .fail _ nofun
    · split
      · exact .fail _ nofun
      · split
        · next f hf =>
          refine .fail f ?_
          rcases unpackScan_eq_error _ _ _ _ _ _ hf with hc | hc <;> rw [hc] <;> nofun
        · next out ho =>
          have hfits := unpackScan_length _ _ _ _ _ _ ho (Nat.zero_le _)
          exact .result _ _ _ (by omega)

/-- R64: a completed PACK or UNPACK keeps the OBUF bytes beyond its result, or none after a failure, and every other
memory. -/
theorem OutputResult.sameAt {s : State} {r : CmdResult} {a : Nat} (h : OutputResult s r) (hp : s.params.Legal)
    (ha : ¬ ObufBytes (if r.complete.err = .ok then r.complete.outLen.toNat else r.complete.params.nObuf) a) :
    s.SameAt r.complete a := by
  have hmax : s.params.nObuf ≤ 2 ^ 20 := hp.2.2
  cases h with
  | fail f code =>
    rw [CmdResult.complete_fail (State.failOutput_verdict f s)] at ha ⊢
    rw [State.takeError_err, if_neg code] at ha
    exact ⟨rfl, fun _ => rfl, fun _ => rfl, fun _ => rfl, rfl, fun w => absurd w ha⟩
  | result out pad n fits =>
    have hl : (BitVec.ofNat 32 out.length).toNat = out.length := by
      rw [BitVec.toNat_ofNat, Nat.mod_eq_of_lt (by omega)]
    rw [CmdResult.complete_ok rfl] at ha ⊢
    rw [State.completeOk_err, if_pos rfl, State.completeOk_outLen, State.writeOutput_outLen, hl] at ha
    refine ⟨rfl, fun _ => rfl, fun _ => rfl, fun _ => rfl, rfl, fun w => ?_⟩
    unfold ObufBytes at ha w
    exact (Buffer.byte_store _ _ _ _).trans (if_neg (by omega))

/-- A PACK whose input fits IBUF does not fail with E_LEN (R121). -/
theorem packCommand_err_ne_len {s : State} (h : s.lenFails = false) : (packCommand s).complete.err ≠ .len := by
  rcases packCommand_cases s with ⟨hl, -⟩ | ⟨f, -, hf, e⟩ | ⟨bits, -, -, e⟩
  · exact absurd (hl.symm.trans h) nofun
  · rw [e, CmdResult.complete_fail (State.failOutput_verdict f s), State.takeError_err]
    rcases packScan_eq_error hf with hc | ⟨hc, -⟩ <;> rw [hc] <;> nofun
  · rw [e, CmdResult.complete_ok rfl]
    nofun

/-- The first three stages of COMPRESS write the windows of FREQ, NODE and CB only (R110). -/
theorem State.compressTables_sameAt {s : State} {a : Nat} (hf : ¬ FreqWindow a) (hn : ¬ NodeWindow a)
    (hc : ¬ CbWindow a) : s.SameAt s.compressTables a := by
  rw [s.compressTables_frame]
  exact ⟨rfl, fun w => absurd w hf, fun w => absurd w hn, fun w => absurd w hc, rfl, fun _ => rfl⟩

/-- R64 for COMPRESS: E_LEN by either account of the spec, or the tables and then PACK's writes. -/
theorem compressCommand_sameAt {s : State} {a : Nat} (hp : s.params.Legal)
    (h : ¬ StoredBy .compress (compressCommand s).complete a) : s.SameAt (compressCommand s).complete a := by
  obtain ⟨htables, hout⟩ := not_or.mp h
  rcases compressCommand_cases s with ⟨-, hd, e⟩ | ⟨-, -, e⟩ | ⟨hl, e⟩ <;> rw [e] at htables hout ⊢
  · exact (OutputResult.fail s.lenFailure nofun).sameAt hp fun w => hout ⟨.inr hd, w⟩
  · exact .complete ⟨rfl, fun _ => rfl, fun _ => rfl, fun _ => rfl, rfl, fun _ => rfl⟩
  · have herr := packCommand_err_ne_len (s.compressTables_lenFails.trans hl)
    obtain ⟨hf, hn, hc⟩ : ¬ FreqWindow a ∧ ¬ NodeWindow a ∧ ¬ CbWindow a := by
      simpa [herr, not_or] using htables
    refine (State.compressTables_sameAt hf hn hc).trans ?_
    exact (packCommand_outputResult _).sameAt (s.compressTables_params ▸ hp) fun w => hout ⟨.inl herr, w⟩

/-- R64: a completed command keeps what it does not store to. -/
theorem complete_commandResult_sameAt {i : Instr} {s : State} {a : Nat} (hp : s.params.Legal)
    (h : ¬ StoredBy i (commandResult i s).complete a) : s.SameAt (commandResult i s).complete a := by
  cases i with
  | nop | illegal => exact .complete ⟨rfl, fun _ => rfl, fun _ => rfl, fun _ => rfl, rfl, fun _ => rfl⟩
  | freq =>
    rw [commandResult] at h ⊢
    rcases freqCommand_cases s with ⟨-, e⟩ | ⟨-, e⟩ <;> rw [e] at h ⊢
    · exact .complete ⟨rfl, fun _ => rfl, fun _ => rfl, fun _ => rfl, rfl, fun _ => rfl⟩
    · exact .complete ⟨rfl, fun w => absurd ⟨rfl, w⟩ h, fun _ => rfl, fun _ => rfl, rfl, fun _ => rfl⟩
  | build => exact .complete ⟨rfl, fun _ => rfl, fun w => absurd w h, fun _ => rfl, rfl, fun _ => rfl⟩
  | gencb | clrcb => exact .complete ⟨rfl, fun _ => rfl, fun _ => rfl, fun w => absurd w h, rfl, fun _ => rfl⟩
  | pack => exact (packCommand_outputResult s).sameAt hp h
  | unpack => exact (unpackCommand_outputResult s).sameAt hp h
  | compress => exact compressCommand_sameAt hp h

/-- Settles O39: a byte of a window that the command does not store to lies in a memory that it keeps there. -/
theorem commandsKeepAllOtherBytes : Obligations.CommandsKeepAllOtherBytes := by
  intro i s t hp he a ha
  rw [exec_eq] at he
  obtain rfl := Host.Outcome.next.inj he
  exact (complete_commandResult_sameAt hp ha).windowByte

/-! ### The metadata mapping (R66) -/

/-- Reading digits on from `acc` is reading a decimal numeral (R66). -/
theorem parseDigits_eq_ofDigitChars {cs : List Char} (h : ∀ c ∈ cs, c.isDigit = true) (acc : Nat) :
    parseDigits acc cs = some (Nat.ofDigitChars 10 cs acc) := by
  induction cs generalizing acc with
  | nil => rfl
  | cons c cs ih =>
    rw [parseDigits, if_pos (h c List.mem_cons_self), ih fun x hx => h x (List.mem_cons_of_mem _ hx)]
    rfl

/-- The driver reads the key that it emits for a byte value (R66). -/
theorem parseKey_decimal {b : Nat} (hb : b < 256) : parseKey (decimal b) = some b := by
  rw [parseKey, decimal, if_neg Nat.toDigits_ne_nil,
    parseDigits_eq_ofDigitChars (fun c hc => Nat.isDigit_of_mem_toDigits (by decide) (by decide) hc),
    Nat.ofDigitChars_ten_toDigits]
  exact if_pos hb

/-- The driver reads the code that it emits (R66). -/
theorem parseBits_bitChars (s : Bits) : parseBits (bitChars s) = some s := by
  induction s with
  | nil => rfl
  | cons b s ih =>
    rw [bitChars, List.map_cons, ← bitChars]
    cases b <;> simp [parseBits, ih]

/-- The driver takes the entry that it emits for a byte value with a code (R66): codes have 1 to 255 bits (R36). -/
theorem parseEntry_emitted {m : Memory} {b : Nat} {c : Bits} (hb : b < 256) (hc : m.codeOf b = some c) :
    parseEntry (decimal b, bitChars c) = .ok (b, c) := by
  have hlen := Memory.codeOf_length hc
  rw [parseEntry, parseKey_decimal hb, parseBits_bitChars]
  simp [Memory.codeOf_ne_nil hc]
  omega

/-- The driver takes every entry that it emits, in order (R66). -/
theorem parseEntries_emitted (m : Memory) {bs : List Nat} (h : ∀ b ∈ bs, b < 256) :
    parseEntries (bs.filterMap fun b => (m.codeOf b).map fun c => (decimal b, bitChars c)) =
      .ok (bs.filterMap fun b => (m.codeOf b).map fun c => (b, c)) := by
  induction bs with
  | nil => rfl
  | cons b bs ih =>
    have hrest := ih fun x hx => h x (List.mem_cons_of_mem _ hx)
    cases hc : m.codeOf b with
    | none => simpa [hc] using hrest
    | some c => simp [hc, parseEntries, parseEntry_emitted (h b List.mem_cons_self) hc, hrest]

/-- Settles O53: the driver takes every entry it emits, and a pad count of 0 to 7. -/
theorem metadataDescribesTheCodebook : Obligations.MetadataDescribesTheCodebook := by
  intro s
  have hentries : parseEntries s.metadata.codebook = .ok _ :=
    parseEntries_emitted s.mem fun b hb => List.mem_range.mp hb
  have hrange : 0 ≤ s.metadata.pad ∧ s.metadata.pad ≤ 7 := by
    have hlt := s.padOut.isLt
    simp only [State.metadata]
    omega
  have hpad : BitVec.ofNat 32 s.metadata.pad.toNat = s.padOut.zeroExtend 32 := BitVec.ofNat_toNat 32 s.padOut
  rw [Metadata.parse, hentries, ← hpad]
  exact if_pos hrange

/-! ### The script of CODE (R68) -/

/-- The word accesses that write words of CB[b], in order: the index and the data of each (R51, R67). -/
def cbWrites (b : Nat) (ws : List (Nat × Word)) : List Input :=
  ws.map fun w => .access (.write (Script.cbOffset b w.1) .word w.2)

/-- The words that CODE writes for `c`: LEN, then the first `n` CODE words (R68). -/
def codeWords (c : Bits) (n : Nat) : List (Nat × Word) :=
  (0, BitVec.ofNat 32 c.length) :: (List.range n).map fun k => (k + 1, codeWord (codeOfBits c) k)

/-- A codebook entry after a list of word writes (R51). -/
def CodeEntry.setWords (e : CodeEntry) (ws : List (Nat × Word)) : CodeEntry :=
  ws.foldl (fun e w => e.setWord w.1 w.2) e

/-- The script of CODE is writes of the words of its entry (R68). -/
theorem script_code_eq (b : Nat) (c : Bits) :
    Script.code b c = cbWrites b (codeWords c ((c.length - 1) / 32 + 1)) := by
  simp [Script.code, cbWrites, codeWords, Script.wrLen, Script.wrCode, Function.comp_def]

/-- LEN and the code elements after the words of CODE (R51, R68). -/
theorem CodeEntry.setWords_codeWords (e : CodeEntry) (c : Bits) {n : Nat} (hn : n ≤ 8) :
    (e.setWords (codeWords c n)).len = BitVec.ofNat 8 c.length ∧
    ∀ i, i < 32 * n → (e.setWords (codeWords c n)).code.getMsbD i = c.getD i false := by
  induction n with
  | zero =>
    refine ⟨?_, fun i hi => absurd hi (Nat.not_lt_zero i)⟩
    apply BitVec.eq_of_toNat_eq
    simp [CodeEntry.setWords, codeWords, CodeEntry.setWord]
  | succ n ih =>
    obtain ⟨hlen, hcode⟩ := ih (by omega)
    have hsnoc : e.setWords (codeWords c (n + 1)) =
        (e.setWords (codeWords c n)).setWord (n + 1) (codeWord (codeOfBits c) n) := by
      simp [CodeEntry.setWords, codeWords, List.range_succ]
    rw [hsnoc, CodeEntry.setWord_len, if_neg (Nat.succ_ne_zero n)]
    refine ⟨hlen, fun i hi => ?_⟩
    rw [CodeEntry.setWord_code _ _ _ (by omega)]
    split
    · rw [codeWord_bit _ (by omega) (by omega), show 32 * n + i % 32 = i by omega, codeOfBits_bit _ (by omega)]
    · exact hcode i (by omega)

/-- An entry whose LEN and first elements are those of a code of 1 to 255 bits has that code (R94). -/
theorem CodeEntry.codeOf_eq_some {e : CodeEntry} {c : Bits} (h1 : 1 ≤ c.length) (hlen : e.len.toNat = c.length)
    (hcode : ∀ i, i < c.length → e.code.getMsbD i = c.getD i false) : e.codeOf = some c := by
  have hne : e.len ≠ 0 := fun h0 => by
    rw [h0] at hlen
    exact absurd (hlen.trans_ge h1) (by decide)
  rw [CodeEntry.codeOf, if_neg hne]
  refine congrArg some (List.ext_getElem (by rw [CodeEntry.length_bits, hlen]) fun i hi hi' => ?_)
  simp only [CodeEntry.bits, List.getElem_map, List.getElem_range]
  rw [hcode i hi', List.getD_eq_getElem _ _ hi']

/-- One step in IDLE that writes word k of CB[b] (R51, R71). -/
theorem step_cbWrite {s : State} {b k : Nat} {v : Word} {rest : List Input} (hm : s.MemInv) (hidle : s.phase = .idle)
    (hr : s.rst = false) (hb : b < 256) (hk : k < 16)
    (hin : s.inputs = .access (.write (Script.cbOffset b k) .word v) :: rest) :
    ∃ t, step s = .next t ∧ t.MemInv ∧ t.phase = .idle ∧ t.rst = false ∧ t.inputs = rest ∧
      t.mem.cbAt b = (s.mem.cbAt b).setWord k v ∧ ∀ x, x ≠ b → t.mem.cbAt x = s.mem.cbAt x := by
  obtain ⟨-, -, hcb, -⟩ := (Memory.wf_iff _ _).mp hm.wf
  have hget : ∀ x, Table.get CodeEntry.empty (Table.set CodeEntry.empty s.mem.cb b ((s.mem.cbAt b).setWord k v)) x =
      if x = b then (s.mem.cbAt b).setWord k v else s.mem.cbAt x :=
    fun x => Table.get_set _ _ b x _ (Table.canonical_sorted hcb)
  have hstep : step s = .next _ := (step_hostTurn (.inl hidle)).trans (by
    rw [State.hostTurn_perform hin nofun, State.perform,
      State.access_write_idle (s := { s with inputs := rest, latency := s.latency - 1 }) hr hidle
        (target_cb s.params hb hk)])
  exact ⟨_, hstep, stepKeepsMemoryCanonical s _ hm hstep, hidle, hr, rfl, (hget b).trans (if_pos rfl),
    fun x hx => (hget x).trans (if_neg hx)⟩

/-- A run of one step more begins with that step. -/
theorem run_of_step {s u : State} (k : Nat) (h : step s = .next u) :
    Host.Core.run Sys2Proof.core (k + 1) s = Host.Core.run Sys2Proof.core k u := by
  have hs : Sys2Proof.core.step s = .next u := h
  simp only [Host.Core.run, hs]

/-- A run of word writes to CB[b] in IDLE: one step each (R51, R71). -/
theorem run_cbWrites {b : Nat} (hb : b < 256) {ws : List (Nat × Word)} (hws : ∀ w ∈ ws, w.1 < 16) {s : State}
    (hm : s.MemInv) (hidle : s.phase = .idle) (hr : s.rst = false) (hin : s.inputs = cbWrites b ws) :
    ∃ t, Host.Core.run Sys2Proof.core ws.length s = .next t ∧ t.inputs = [] ∧ t.phase = .idle ∧
      t.mem.cbAt b = (s.mem.cbAt b).setWords ws ∧ ∀ x, x ≠ b → t.mem.cbAt x = s.mem.cbAt x := by
  induction ws generalizing s with
  | nil => exact ⟨s, rfl, hin, hidle, rfl, fun _ _ => rfl⟩
  | cons w ws ih =>
    obtain ⟨u, hstep, hmu, hidleu, hru, hinu, hbu, hxu⟩ := step_cbWrite hm hidle hr hb (hws w List.mem_cons_self) hin
    obtain ⟨t, hrun, hint, hidlet, hbt, hxt⟩ := ih (fun x hx => hws x (List.mem_cons_of_mem _ hx)) hmu hidleu hru hinu
    refine ⟨t, ?_, hint, hidlet, by rw [hbt, hbu]; rfl, fun x hx => (hxt x hx).trans (hxu x hx)⟩
    exact (run_of_step ws.length hstep).trans hrun

/-- Settles O52: the script is a run of word writes to CB[b], and the words it writes are LEN and the code. -/
theorem codeScriptLoadsTheCode : Obligations.CodeScriptLoadsTheCode := by
  intro s b c hm hidle hr hb h1 h255 hin
  rw [script_code_eq] at hin
  have hws : ∀ w ∈ codeWords c ((c.length - 1) / 32 + 1), w.1 < 16 := by
    simp [codeWords]
    omega
  obtain ⟨t, hrun, hint, hidlet, hbt, hxt⟩ := run_cbWrites hb hws hm hidle hr hin
  have hlast : (t.mem.cbAt b).codeOf = some c := by
    obtain ⟨hlen, hcode⟩ := (s.mem.cbAt b).setWords_codeWords c (n := (c.length - 1) / 32 + 1) (by omega)
    rw [← hbt] at hlen hcode
    refine CodeEntry.codeOf_eq_some h1 ?_ fun i hi => hcode i (by omega)
    rw [hlen, BitVec.toNat_ofNat, Nat.mod_eq_of_lt (by omega)]
  refine ⟨t, ?_, hint, hidlet, hlast, fun x hx => congrArg CodeEntry.codeOf (hxt x hx)⟩
  rw [script_code_eq, cbWrites, List.length_map]
  exact hrun

end Sys2Proof.Machine
end

section
/-! SUPPORT. A running command up to its completion (40_command_control.md R69 to R75), and the two commands that write
nothing (R76, R77); with them the five statements on command control. -/

namespace Sys2Proof.Machine

/-! ### STATUS (R19) -/

/-- A CMD write starts a command with DONE and ERR cleared, and a STATUS write clears both or neither (R19, R69). -/
theorem State.StatusInv.writeTarget {s : State} (h : s.StatusInv) (n : Nat) (v : Word) (t : Target)
    (hr : s.rst = false) : (s.writeTarget n v t).StatusInv := by
  obtain ⟨hdone, herr, hrst, hed⟩ := h
  cases t with
  | freq | node | cb | ibuf | obuf => exact ⟨hdone, herr, hrst, hed⟩
  | reg r =>
    cases r with
    | cmd => exact ⟨fun _ => rfl, fun _ => rfl, fun hr' => absurd (hr.symm.trans hr') nofun, (absurd rfl ·)⟩
    | status =>
      rw [State.writeTarget, State.writeReg, State.writeStatus_eq]
      cases v.getLsbD 1 && !s.busy with
      | true => exact ⟨fun _ => Bool.and_false _, fun _ => rfl, hrst, (absurd rfl ·)⟩
      | false => exact ⟨fun hb => by simp [hdone hb], herr, hrst, fun he => by simp [hed he]⟩
    | _ => exact ⟨hdone, herr, hrst, hed⟩

theorem hostKeeps_statusInv : HostKeeps State.StatusInv where
  plan _ _ _ h := ⟨h.busy_done, h.busy_err, h.rst_idle, h.err_done⟩
  respond _ _ _ _ h := ⟨h.busy_done, h.busy_err, h.rst_idle, h.err_done⟩
  overrun _ h := ⟨h.busy_done, h.busy_err, h.rst_idle, h.err_done⟩
  write _ _ _ _ _ _ hr _ h := h.writeTarget _ _ _ hr
  reset _ _ := ⟨nofun, fun _ => rfl, fun _ => rfl, (absurd rfl ·)⟩
  release _ h := ⟨h.busy_done, h.busy_err, nofun, h.err_done⟩

/-- A completion leaves IDLE and DONE, whatever came before (R72). -/
theorem CmdResult.statusInv_complete (r : CmdResult) : r.complete.StatusInv where
  busy_done h := absurd (r.complete_phase.symm.trans h) nofun
  busy_err h := absurd (r.complete_phase.symm.trans h) nofun
  rst_idle _ := r.complete_phase
  err_done _ := r.complete_done

/-- Settles O57: the CMD write is the only way into BUSY, and it clears DONE and ERR. -/
theorem stepKeepsStatusConsistent : Obligations.StepKeepsStatusConsistent :=
  fun _ _ h e => hostKeeps_statusInv.step (fun _ => CmdResult.statusInv_complete _) h e

/-! ### The running command (R71, R72, R75) -/

/-- In the engine's turn one step completes the running command (R72). -/
theorem run_one_completes {s : State} (h : s.engineTurn = true) :
    ∃ t, Host.Core.run Sys2Proof.core 1 s = .next t ∧ t.phase = .idle ∧ t.done = true :=
  ⟨_, run_of_step 0 ((step_engine h).trans (exec_eq _ s)), CmdResult.complete_phase _, CmdResult.complete_done _⟩

/-- A command runs, `n` host steps may land before its completion, and none of them asserts RST (R75). -/
structure State.RunsFor (s : State) (n : Nat) : Prop where
  busy : s.phase = .busy
  rst : s.rst = false
  latency : s.latency = n
  noReset : ∀ i ∈ s.inputs.take n, i ≠ .rst true

/-- A host step leaves the command running, with one host step fewer to land, whether its operation is over or is a WAIT
that stays pending (R53, R68, R71). -/
theorem State.RunsFor.hostTurn {s : State} {n : Nat} (h : s.RunsFor (n + 1)) (hne : s.inputs ≠ []) :
    s.hostTurn.RunsFor n := by
  rcases s.hostTurn_cases with ⟨hnil, -⟩ | ⟨i, rest, hin, hturn, hinputs⟩
  · exact absurd hnil hne
  · have hno := h.noReset
    rw [hin, List.take_succ_cons] at hno
    obtain ⟨ovr, ie, resp, draws, hperform⟩ :=
      State.perform_busy_frame (s := { s with inputs := rest, latency := s.latency - 1 }) h.busy h.rst
        (hno i List.mem_cons_self)
    rw [hperform] at hturn hinputs
    have hlat : s.latency - 1 = n := by rw [h.latency, Nat.add_sub_cancel]
    refine ⟨by rw [hturn]; exact h.busy, by rw [hturn]; exact h.rst, by rw [hturn]; exact hlat, fun j hj => ?_⟩
    rcases hinputs with hrest | hwait
    · rw [hrest] at hj
      exact hno j (List.mem_cons_of_mem i hj)
    · rw [hwait, ← hin] at hj
      exact h.noReset j (List.take_subset_take_left _ (Nat.le_succ n) hj)

/-- Within `n` host steps and one more the running command completes (R75). -/
theorem State.RunsFor.run_completes {s : State} {n : Nat} (h : s.RunsFor n) :
    ∃ k t, k ≤ n + 1 ∧ Host.Core.run Sys2Proof.core k s = .next t ∧ t.phase = .idle ∧ t.done = true := by
  induction n generalizing s with
  | zero =>
    obtain ⟨t, ht⟩ := run_one_completes (s.engineTurn_iff.mpr ⟨h.busy, h.rst, .inl h.latency⟩)
    exact ⟨1, t, le_rfl, ht⟩
  | succ n ih =>
    by_cases hnil : s.inputs = []
    · obtain ⟨t, ht⟩ := run_one_completes (s.engineTurn_iff.mpr ⟨h.busy, h.rst, .inr hnil⟩)
      exact ⟨1, t, Nat.le_add_left 1 _, ht⟩
    · obtain ⟨k, t, hk, hrun, hidle, hdone⟩ := ih (h.hostTurn hnil)
      have hstep : step s = .next s.hostTurn := step_hostTurn (.inr ⟨by simp [h.latency], hnil⟩)
      exact ⟨k + 1, t, Nat.succ_le_succ hk, (run_of_step k hstep).trans hrun, hidle, hdone⟩

/-- Settles O6, by induction on the number of host steps that land before the completion. -/
theorem runningCommandCompletes : Obligations.RunningCommandCompletes :=
  fun _ hbusy hr hno => State.RunsFor.run_completes ⟨hbusy, hr, rfl, hno⟩

/-- A placed command word stands in CMD as it is (R18). -/
theorem State.withFetchWord_word (s : State) (w : Word) : (s.withFetchWord 32 w.toNat).cmd = w := by
  rw [State.withFetchWord_cmd, Nat.mod_eq_of_lt w.isLt, BitVec.ofNat_toNat, BitVec.setWidth_eq]

/-- Settles O3: in both cases it is the engine's turn, and the running command is the decoded CMD. -/
theorem stepRunsTheDecodedCommand : Obligations.StepRunsTheDecodedCommand := by
  refine ⟨fun s i hbusy hr hturn hi => ?_, fun s w => ⟨?_, s.withFetchWord_word w, rfl⟩⟩
  · rw [step_engine (s.engineTurn_iff.mpr ⟨hbusy, hr, hturn⟩), State.command, hi]
  · have hengine : (s.withFetchWord 32 w.toNat).engineTurn = true :=
      (State.engineTurn_iff _).mpr ⟨rfl, rfl, .inl rfl⟩
    rw [step_engine hengine, State.command, s.withFetchWord_word]

/-! ### NOP and ILLEGAL (R76, R77) -/

/-- What STATUS reads after a completion with OVR clear: DONE and the error code (R19, R72). -/
theorem CmdResult.complete_statusWord {r : CmdResult} {e : ErrCode} (h : r.after.ovr = false)
    (he : r.complete.err = e) : r.complete.statusWord = 0#24 ++ e.code ++ 2#4 := by
  have hovr : r.complete.ovr = false := by rw [r.complete_frame, h]
  have hbusy : r.complete.busy = false := (State.busy_eq_false_iff _).mpr r.complete_phase
  rw [State.statusWord, hovr, hbusy, he, r.complete_done]
  cases e <;> rfl

/-- The interrupt after a completion, while RST is released: IE (R72, R126). -/
theorem CmdResult.complete_irq {r : CmdResult} (h : r.after.rst = false) : r.complete.irq = r.after.ie := by
  have hrst : r.complete.rst = false := by rw [r.complete_frame, h]
  have hie : r.complete.ie = r.after.ie := by rw [r.complete_frame]
  rw [State.irq, hrst, hie, r.complete_done, Bool.and_true, Bool.not_false, Bool.and_true]

/-- Settles O7: the function of NOP writes nothing, so its completion is all there is. -/
theorem nopOnlyCompletes : Obligations.NopOnlyCompletes := by
  refine ⟨by decide, fun s => ⟨_, exec_eq .nop s, rfl, fun h => ?_, fun h => ?_⟩⟩
  · exact (CmdResult.complete_statusWord (e := .ok) h rfl).trans (by decide)
  · exact CmdResult.complete_irq (r := commandResult .nop s) h

/-- Settles O8: the function of ILLEGAL writes nothing and fails with E_BAD_CMD, so its completion is all there is. -/
theorem illegalCompletesWithBadCmd : Obligations.IllegalCompletesWithBadCmd := by
  refine fun w s hw => ⟨_, decodeWord_of_ge hw, exec_eq (.illegal w) s, rfl, fun h => ?_⟩
  exact (CmdResult.complete_statusWord (e := .badCmd) h rfl).trans (by decide)

end Sys2Proof.Machine
end

section
/-! SUPPORT. The FREQ command (41_frequency.md R78 to R80): its two completions, and which byte values the counts
hold; with them the two statements on FREQ. -/

namespace Sys2Proof.Machine

/-! ### The two completions of FREQ (R78) -/

/-- R78: with the input inside IBUF, FREQ takes the counts and completes. -/
theorem exec_freq_of_le {s : State} (h : s.inLen.toNat ≤ s.params.nIbuf) :
    exec .freq s = .next { s with mem := { s.mem with freq := countBytes s.inputBytes }, phase := .idle, done := true,
                                  err := .ok, errPos := 0#32, errSym := 0#16 } := by
  have hlen : s.lenFails = false := s.lenFails_eq_false_iff.mpr h
  obtain ⟨hf, -⟩ | ⟨-, e⟩ := freqCommand_cases s
  · exact absurd hf (by simp [hlen])
  · rw [exec_eq, commandResult, e, CmdResult.complete_ok rfl]
    rfl

/-- R78, R121: with the input beyond IBUF, FREQ fails with E_LEN at IN_LEN and writes nothing. -/
theorem exec_freq_of_gt {s : State} (h : s.params.nIbuf < s.inLen.toNat) :
    exec .freq s = .next { s with phase := .idle, done := true, err := .len, errPos := s.inLen, errSym := 0#16 } := by
  have hlen : s.lenFails = true := s.lenFails_iff.mpr h
  have hpos : BitVec.ofNat 32 s.inLen.toNat = s.inLen := by
    rw [BitVec.ofNat_toNat, BitVec.setWidth_eq]
  obtain ⟨-, e⟩ | ⟨hf, -⟩ := freqCommand_cases s
  · rw [exec_eq, commandResult, e, CmdResult.complete_fail (s.failClean_verdict _)]
    simp only [State.takeError, State.lenFailure, hpos]
    rfl
  · exact absurd hf (by simp [hlen])

/-! ### The input and its byte values (R64, R80) -/

/-- R64: the input has IN_LEN bytes. -/
theorem State.length_inputBytes (s : State) : s.inputBytes.length = s.inLen.toNat := Buffer.length_bytes _ _

/-- IN_LEN is a 32-bit register, so no input has 2^32 bytes (R6). -/
theorem State.length_inputBytes_lt (s : State) : s.inputBytes.length < 2 ^ 32 := by
  rw [s.length_inputBytes]
  exact s.inLen.isLt

/-- R64: a byte value occurs in the input when some byte of IBUF below IN_LEN has it. -/
theorem State.mem_inputBytes {s : State} {v : Byte} :
    v ∈ s.inputBytes ↔ ∃ i, i < s.inLen.toNat ∧ s.mem.ibuf.byte i = v := by
  simp only [State.inputBytes, Buffer.bytes, List.mem_map, List.mem_range]

/-- R80: the present byte values after counting are those that occur. -/
theorem toFinset_presentSyms_countBytes {bs : List Byte} (hl : bs.length < 2 ^ 32) :
    (presentSyms (countBytes bs)).toFinset = bs.toFinset.image BitVec.toNat := by
  ext b
  rw [List.mem_toFinset, mem_presentSyms, Finset.mem_image]
  constructor
  · rintro ⟨hb, hne⟩
    have hv : (BitVec.ofNat 8 b).toNat = b := (byte_eq_ofNat_iff hb _).mp rfl
    rw [← hv, get_countBytes_ne_zero bs _ hl] at hne
    exact ⟨_, List.mem_toFinset.mpr hne, hv⟩
  · rintro ⟨v, hv, rfl⟩
    exact ⟨v.isLt, (get_countBytes_ne_zero bs v hl).mpr (List.mem_toFinset.mp hv)⟩

/-- R80: after counting, K is the number of distinct byte values. -/
theorem length_presentSyms_countBytes {bs : List Byte} (hl : bs.length < 2 ^ 32) :
    (presentSyms (countBytes bs)).length = bs.toFinset.card := by
  rw [← List.toFinset_card_of_nodup (presentSyms_nodup _), toFinset_presentSyms_countBytes hl]
  exact Finset.card_image_of_injective _ fun _ _ => BitVec.eq_of_toNat_eq

/-- R79: the counts add up to the length. -/
theorem sum_countBytes {bs : List Byte} (hl : bs.length < 2 ^ 32) :
    ((List.range 256).map fun b => (Table.get 0#32 (countBytes bs) b).toNat).sum = bs.length := by
  rw [← sum_count_bytes bs]
  exact congrArg List.sum (List.map_congr_left fun b hb => get_countBytes_toNat bs (List.mem_range.mp hb) hl)

/-! ### The obligations -/

/-- Settles O9: the two completions of FREQ, and each entry of the counts. -/
theorem freqCountsTheInput : Obligations.FreqCountsTheInput := by
  refine ⟨by decide, fun s => ⟨fun h => ?_, exec_freq_of_gt⟩⟩
  exact ⟨_, exec_freq_of_le h, fun _ hb => get_countBytes s.inputBytes hb, rfl⟩

/-- Settles O10: the input has fewer than 2^32 bytes, so the counts are exact; the rest is counting a list. -/
theorem freqPresentExactlyWhenOccurring : Obligations.FreqPresentExactlyWhenOccurring := by
  intro s _ hle
  have hl := s.length_inputBytes_lt
  refine ⟨_, exec_freq_of_le hle, fun v => ?_, length_presentSyms_countBytes hl, fun b hb => ?_, ?_⟩
  · exact (get_countBytes_ne_zero s.inputBytes v hl).trans State.mem_inputBytes
  · calc (Table.get 0#32 (countBytes s.inputBytes) b).toNat
        = s.inputBytes.count (BitVec.ofNat 8 b) := get_countBytes_toNat _ hb hl
      _ ≤ s.inputBytes.length := List.count_le_length
      _ = s.inLen.toNat := s.length_inputBytes
  · exact (sum_countBytes hl).trans s.length_inputBytes

end Sys2Proof.Machine
end

section
/-! SUPPORT. The BUILD command (42_tree_builder.md R81 to R91): its completion, the root weight, the two-queue
realisation, and the lengths of the codes of its tree; with them the statements on the tree builder. -/

namespace Sys2Proof.Machine

/-! ### The completion of BUILD and of GENCB (R72, R81, R92) -/

/-- BUILD completes on every state (R81). -/
theorem exec_build (s : State) : exec .build s = .next (buildCommand s).complete := exec_eq .build s

/-- Everything BUILD writes (R81). -/
theorem buildCommand_complete (s : State) :
    (buildCommand s).complete =
      { s with mem := { s.mem with node := (buildCommand s).complete.mem.node }
               nleaf := BitVec.ofNat 9 (presentSyms s.mem.freq).length
               nnode := BitVec.ofNat 10 (buildNodes s.mem.freq).length
               root := if (buildNodes s.mem.freq).length = 0 then Config.noRoot
                 else BitVec.ofNat 9 ((buildNodes s.mem.freq).length - 1)
               phase := .idle, done := true, err := .ok, errPos := 0#32, errSym := 0#16 } := rfl

/-- R81: NODE after BUILD is the arena of the FREQ table. -/
theorem buildCommand_complete_nodeAt (s : State) (h : Nat) :
    (buildCommand s).complete.mem.nodeAt h = (arena (buildNodes s.mem.freq)).nodeAt h := rfl

/-- R87: the completed BUILD leaves a tree. -/
theorem buildCommand_complete_treeInv (s : State) : (buildCommand s).complete.TreeInv :=
  (buildCommand_treeInv s).congr rfl rfl rfl rfl

/-- R81: NLEAF is K; the register is wide enough for 256. -/
theorem buildCommand_complete_nleaf (s : State) :
    (buildCommand s).complete.nleaf.toNat = (presentSyms s.mem.freq).length := by
  have hb := length_presentSyms_le s.mem.freq
  rw [buildCommand_complete, BitVec.toNat_ofNat, Nat.mod_eq_of_lt (by omega)]

/-- R81: NNODE is the number of nodes; the register is wide enough for 511. -/
theorem buildCommand_complete_nnode (s : State) :
    (buildCommand s).complete.nnode.toNat = (buildNodes s.mem.freq).length := by
  have hb := length_presentSyms_le s.mem.freq
  have hl := length_buildNodes_cases s.mem.freq
  rw [buildCommand_complete, BitVec.toNat_ofNat, Nat.mod_eq_of_lt (by omega)]

/-- GENCB completes on every state (R92). -/
theorem exec_gencb (s : State) : exec .gencb s = .next (gencbCommand s).complete := exec_eq .gencb s

/-- R92, R94: on a tree, GENCB gives byte value b the code p exactly when p is the path to its leaf. -/
theorem State.TreeInv.codeOf_gencb {s : State} (ht : s.TreeInv) (b : Nat) (p : Bits) :
    (gencbCommand s).complete.mem.codeOf b = some p ↔ s.mem.LeafPath s.root.toNat b p :=
  ht.codeOf_treeCodebook b p

/-! ### The present byte values and their leaves (R82, R85, R86) -/

/-- R85: an empty table has no present byte value. -/
theorem presentSyms_eq_nil {f : Table Word} (h : ∀ b, b < 256 → Table.get 0#32 f b = 0#32) : presentSyms f = [] :=
  List.eq_nil_iff_forall_not_mem.mpr fun b hb => (mem_presentSyms.mp hb).2 (h b (mem_presentSyms.mp hb).1)

/-- R86: the present byte values when there is exactly one. -/
theorem presentSyms_eq_singleton {f : Table Word} {b : Nat} (hb : b < 256)
    (h : ∀ b', b' < 256 → (Table.get 0#32 f b' ≠ 0#32 ↔ b' = b)) : presentSyms f = [b] := by
  refine List.perm_singleton.mp ((List.perm_ext_iff_of_nodup (presentSyms_nodup f) (List.nodup_singleton b)).mpr ?_)
  intro b'
  rw [mem_presentSyms, List.mem_singleton]
  constructor
  · rintro ⟨hlt, hne⟩
    exact (h b' hlt).mp hne
  · rintro rfl
    exact ⟨hb, (h b' hb).mpr rfl⟩

/-- R82: the byte value of leaf h is the h-th present one. -/
theorem buildNodes_leaf_sym {f : Table Word} {h : Nat} (hh : h < (presentSyms f).length) :
    ((arena (buildNodes f)).nodeAt h).sym.toNat = (presentSyms f)[h] := by
  have hlt := (mem_presentSyms.mp (List.getElem_mem hh)).1
  rw [buildNodes_leaf hh, leafNode, BitVec.toNat_ofNat, Nat.mod_eq_of_lt (by omega)]

/-- R82, R87: BUILD's tree has a path to the leaf of a byte value exactly when it is present. -/
theorem buildCommand_leafPath_iff (s : State) (b : Nat) :
    (∃ p, (buildCommand s).complete.mem.LeafPath (buildCommand s).complete.root.toNat b p) ↔
      b ∈ presentSyms s.mem.freq := by
  have ht := buildCommand_complete_treeInv s
  have hl := buildCommand_complete_nleaf s
  constructor
  · rintro ⟨p, g, -, hk, rfl⟩
    have hg := ht.leaf_range hk
    rw [hl] at hg
    rw [buildCommand_complete_nodeAt, buildNodes_leaf_sym hg]
    exact List.getElem_mem hg
  · intro hb
    obtain ⟨h, hh, rfl⟩ := List.getElem_of_mem hb
    have hn : h < (buildCommand s).complete.nnode.toNat := by
      have hlen := length_buildNodes_cases s.mem.freq
      rw [buildCommand_complete_nnode]
      omega
    obtain ⟨p, hp⟩ := ht.reached hn
    exact ⟨p, h, hp, ht.leaf h (by rwa [hl]), buildNodes_leaf_sym hh⟩

/-- R86: the three nodes that BUILD makes of one present byte value. -/
theorem buildCommand_single {s : State} {b : Nat} (hs : presentSyms s.mem.freq = [b]) :
    (buildCommand s).complete.mem.nodeAt 0 = leafNode s.mem.freq b ∧
    (buildCommand s).complete.mem.nodeAt 1 = phantomNode ∧
    (buildCommand s).complete.mem.nodeAt 2 = ⟨.internal, 0, 0, 1, (leafNode s.mem.freq b).weight⟩ := by
  simp only [buildCommand_complete_nodeAt, arena_nodeAt, buildNodes_single hs]
  exact ⟨rfl, rfl, rfl⟩

/-- R86: the left edge from the root leads to the only leaf. -/
theorem leafPath_single {s : State} {b : Nat} (hb : b < 256) (hs : presentSyms s.mem.freq = [b]) :
    (buildCommand s).complete.mem.LeafPath (buildCommand s).complete.root.toNat b [false] := by
  obtain ⟨h0, -, h2⟩ := buildCommand_single hs
  have hroot : (buildCommand s).complete.root = 2#9 := by
    rw [buildCommand_complete, buildNodes_single hs]
    rfl
  have hfollow : (buildCommand s).complete.mem.follow (buildCommand s).complete.root.toNat [false] = some 0 := by
    rw [hroot, Memory.follow_cons, BitVec.toNat_ofNat, h2]
    rfl
  refine ⟨0, hfollow, by rw [h0]; rfl, ?_⟩
  rw [h0, leafNode, BitVec.toNat_ofNat, Nat.mod_eq_of_lt (by omega)]

/-! ### The weight of the root (R88) -/

/-- R88: the last node weighs the sum of all FREQ entries: it is the one key left of a sum that no merge changes. -/
theorem buildNodes_root_weight {f : Table Word} (hne : (buildNodes f).length ≠ 0) :
    ((arena (buildNodes f)).nodeAt ((buildNodes f).length - 1)).weight.toNat =
      ((List.range 256).map fun b => (Table.get 0#32 f b).toNat).sum := by
  rcases length_buildNodes_cases f with ⟨-, hl⟩ | ⟨h1, hl⟩ | ⟨h2, -⟩
  · exact absurd hl hne
  · obtain ⟨b, hb⟩ := List.length_eq_one_iff.mp h1
    rw [← sum_leaf_weights, hl, (buildNodes_single_root h1).2, buildNodes_leaf (by omega)]
    simp [hb]
  · obtain ⟨k, l, -, hi⟩ := buildNodes_spec h2
    have hk : k ∈ [k] := List.mem_singleton_self k
    have hlast : k.handle + 1 = (buildNodes f).length := (hi.live_iff_last _).mp ((hi.live _).mp ⟨k, hk, rfl⟩)
    rw [← hlast, Nat.add_sub_cancel, hi.weight k hk, ← hi.sum]
    simp

/-! ### BUILD reads FREQ only (R90) -/

/-- R90: the arena depends on the 256 entries only. -/
theorem buildNodes_congr {f g : Table Word} (h : ∀ b, b < 256 → Table.get 0#32 f b = Table.get 0#32 g b) :
    buildNodes f = buildNodes g := by
  have hleaf : ∀ b ∈ presentSyms g, leafNode f b = leafNode g b := fun b hb => by
    rw [leafNode, leafNode, h b (mem_presentSyms.mp hb).1]
  rw [buildNodes, buildNodes, presentSyms_congr h]
  match presentSyms g, hleaf with
  | [], _ => rfl
  | [b], hleaf => simp only [hleaf b (List.mem_singleton_self b)]
  | b :: c :: syms, hleaf => simp only [List.map_congr_left hleaf]

/-! ### The two-queue realisation (R91) -/

/-- The queues of R91 beside the working collection `q` of R81: together they hold its keys, each rises, and every key of
A is older than every key of B. A key of B weighs at most as much as any two keys of `q`, since it was made of the two
least ones: so the next one made weighs at least as much. -/
structure QueueInv (q qa qb : List Key) : Prop where
  perm : q.Perm (qa ++ qb)
  risesA : qa.Pairwise fun a c => c.lt a = false
  risesB : qb.Pairwise fun a c => c.lt a = false
  older : ∀ a ∈ qa, ∀ b ∈ qb, a.handle < b.handle
  pair : ∀ b ∈ qb, ∀ x ∈ q, ∀ y ∈ q, b.weight.toNat ≤ x.weight.toNat + y.weight.toNat

/-- Not being less is transitive: the order of the keys is total (R83). -/
theorem Key.not_lt_trans {a b c : Key} (h1 : b.lt a = false) (h2 : c.lt b = false) : c.lt a = false := by
  rw [Bool.eq_false_iff, ne_eq, Key.lt_iff] at *
  omega

/-- In a rising list no key is less than the first. -/
theorem Key.not_lt_head {k : Key} {q : List Key} (h : (k :: q).Pairwise fun a c => c.lt a = false) :
    ∀ x ∈ k :: q, x.lt k = false := fun x hx => by
  rcases List.mem_cons.mp hx with rfl | hx
  · exact Key.not_lt_self x
  · exact (List.pairwise_cons.mp h).1 x hx

/-- Everything taking a front does (R91): it takes the least key of the two queues out of one of them. -/
theorem takeFront_spec {qa qb : List Key} (hA : qa.Pairwise fun a c => c.lt a = false)
    (hB : qb.Pairwise fun a c => c.lt a = false) (ho : ∀ a ∈ qa, ∀ b ∈ qb, a.handle < b.handle) (hne : qa ++ qb ≠ []) :
    ∃ m qa' qb', takeFront qa qb = some (m, qa', qb') ∧ (qa ++ qb).Perm (m :: (qa' ++ qb')) ∧
      qa'.Sublist qa ∧ qb'.Sublist qb ∧ ∀ x ∈ qa' ++ qb', x.lt m = false := by
  match qa, qb with
  | [], [] => exact absurd rfl hne
  | a :: qa, [] =>
    refine ⟨a, qa, [], rfl, .refl _, List.sublist_cons_self _ _, .refl _, fun x hx => ?_⟩
    rw [List.append_nil] at hx
    exact Key.not_lt_head hA x (List.mem_cons_of_mem _ hx)
  | [], b :: qb =>
    exact ⟨b, [], qb, rfl, .refl _, .refl _, List.sublist_cons_self _ _,
      fun x hx => Key.not_lt_head hB x (List.mem_cons_of_mem _ hx)⟩
  | a :: qa, b :: qb =>
    have hab := ho a List.mem_cons_self b List.mem_cons_self
    by_cases hw : b.weight < a.weight
    · have hba : a.lt b = false := by
        rw [BitVec.lt_def] at hw
        rw [Bool.eq_false_iff, ne_eq, Key.lt_iff]
        omega
      refine ⟨b, a :: qa, qb, by rw [takeFront, if_pos hw], List.perm_middle, .refl _,
        List.sublist_cons_self _ _, fun x hx => ?_⟩
      rcases List.mem_append.mp hx with hx | hx
      · exact Key.not_lt_trans hba (Key.not_lt_head hA x hx)
      · exact Key.not_lt_head hB x (List.mem_cons_of_mem _ hx)
    · have hba : b.lt a = false := by
        rw [BitVec.lt_def] at hw
        rw [Bool.eq_false_iff, ne_eq, Key.lt_iff]
        omega
      refine ⟨a, qa, b :: qb, by rw [takeFront, if_neg hw], .refl _, List.sublist_cons_self _ _, .refl _,
        fun x hx => ?_⟩
      rcases List.mem_append.mp hx with hx | hx
      · exact Key.not_lt_head hA x (List.mem_cons_of_mem _ hx)
      · exact Key.not_lt_trans hba (Key.not_lt_head hB x hx)

/-- A selection of R91 is the selection of R81, and leaves the queues and the collection with the same keys. -/
theorem QueueInv.take {q qa qb : List Key} (hi : QueueInv q qa qb) (hn : (q.map Key.handle).Nodup) (hne : q ≠ []) :
    ∃ m r qa' qb', takeLeast q = some (m, r) ∧ takeFront qa qb = some (m, qa', qb') ∧ q.Perm (m :: r) ∧
      (∀ x ∈ r, x.lt m = false) ∧ qb'.Sublist qb ∧ QueueInv r qa' qb' := by
  have hne' : qa ++ qb ≠ [] := fun e => hne (List.Perm.nil_eq (e ▸ hi.perm).symm).symm
  obtain ⟨m, qa', qb', hfront, hp, hsa, hsb, hmin⟩ := takeFront_spec hi.risesA hi.risesB hi.older hne'
  obtain ⟨r, hleast, hr⟩ := takeLeast_of_perm (hi.perm.trans hp) hn hmin
  have hq : q.Perm (m :: r) := (hi.perm.trans hp).trans (hr.symm.cons m)
  have hsub : ∀ x ∈ r, x ∈ q := fun x hx => hq.mem_iff.mpr (List.mem_cons_of_mem m hx)
  exact ⟨m, r, qa', qb', hleast, hfront, hq, fun x hx => hmin x (hr.mem_iff.mp hx), hsb, hr,
    hi.risesA.sublist hsa, hi.risesB.sublist hsb, fun a ha b hb => hi.older a (hsa.mem ha) b (hsb.mem hb),
    fun b hb x hx y hy => hi.pair b (hsb.mem hb) x (hsub x hx) y (hsub y hy)⟩

/-- R91: the parent of the two least keys goes to the back of B: it is the youngest node, and no key of B weighs more. -/
theorem QueueInv.push {q r qa qb : List Key} {a c : Key} {n : Nat} (hi : QueueInv r qa qb)
    (hp : q.Perm (a :: c :: r)) (hpair : ∀ b ∈ qb, ∀ x ∈ q, ∀ y ∈ q, b.weight.toNat ≤ x.weight.toNat + y.weight.toNat)
    (hw : (a.weight + c.weight).toNat = a.weight.toNat + c.weight.toNat) (hn : ∀ x ∈ q, x.handle < n)
    (ha : ∀ x ∈ c :: r, x.lt a = false) (hc : ∀ x ∈ r, x.lt c = false) :
    QueueInv (⟨a.weight + c.weight, n⟩ :: r) qa (qb ++ [⟨a.weight + c.weight, n⟩]) := by
  have haq : a ∈ q := hp.mem_iff.mpr List.mem_cons_self
  have hcq : c ∈ q := hp.mem_iff.mpr (List.mem_cons_of_mem _ List.mem_cons_self)
  have hrq : ∀ x ∈ r, x ∈ q := fun x hx => hp.mem_iff.mpr (List.mem_cons_of_mem _ (List.mem_cons_of_mem _ hx))
  have hrold : ∀ x ∈ qa ++ qb, x.handle < n := fun x hx => hn x (hrq x (hi.perm.mem_iff.mpr hx))
  have hnew : ∀ b ∈ qb, b.weight.toNat ≤ (a.weight + c.weight).toNat := fun b hb => by
    rw [hw]
    exact hpair b hb a haq c hcq
  have hge : ∀ x ∈ r, a.weight.toNat ≤ x.weight.toNat ∧ c.weight.toNat ≤ x.weight.toNat := fun x hx => by
    have h1 := ha x (List.mem_cons_of_mem _ hx)
    have h2 := hc x hx
    rw [Bool.eq_false_iff, ne_eq, Key.lt_iff] at h1 h2
    omega
  refine ⟨?_, hi.risesA, ?_, ?_, ?_⟩
  · rw [← List.append_assoc]
    exact (hi.perm.cons _).trans (List.perm_append_singleton _ _).symm
  · refine List.pairwise_append.mpr ⟨hi.risesB, List.pairwise_singleton _ _, fun b hb x hx => ?_⟩
    obtain rfl := List.mem_singleton.mp hx
    have h1 := hnew b hb
    have h2 := hrold b (List.mem_append_right _ hb)
    rw [Bool.eq_false_iff, ne_eq, Key.lt_iff]
    simp only
    omega
  · intro x hx b hb
    rcases List.mem_append.mp hb with hb | hb
    · exact hi.older x hx b hb
    · obtain rfl := List.mem_singleton.mp hb
      exact hrold x (List.mem_append_left _ hx)
  · intro b hb x hx y hy
    have hle : b.weight.toNat ≤ (a.weight + c.weight).toNat := by
      rcases List.mem_append.mp hb with hb | hb
      · exact hnew b hb
      · rw [List.mem_singleton.mp hb]
    rcases List.mem_cons.mp hx with rfl | hx
    · exact hle.trans (Nat.le_add_right _ _)
    rcases List.mem_cons.mp hy with rfl | hy
    · exact hle.trans (Nat.le_add_left _ _)
    have h1 := hge x hx
    have h2 := hge y hy
    omega

/-- R88: the weights of two keys of the working collection add up without overflow. -/
theorem MergeInv.toNat_add {K total : Nat} {q r : List Key} {a c : Key} {ns : List Node} (hm : MergeInv K total q ns)
    (hp : q.Perm (a :: c :: r)) : (a.weight + c.weight).toNat = a.weight.toNat + c.weight.toNat := by
  have hsum := hm.sum
  have hfits := hm.fits
  rw [(hp.map fun k => k.weight.toNat).sum_eq, List.map_cons, List.map_cons, List.sum_cons, List.sum_cons] at hsum
  rw [BitVec.toNat_add, Nat.mod_eq_of_lt (by omega)]

/-- R91: over the same keys the two loops append the same nodes. -/
theorem twoQueueLoop_eq_mergeLoop {K total : Nat} (fuel : Nat) {q qa qb : List Key} {ns : List Node}
    (hm : MergeInv K total q ns) (hi : QueueInv q qa qb) : twoQueueLoop fuel qa qb ns = mergeLoop fuel q ns := by
  induction fuel generalizing q qa qb ns with
  | zero => rfl
  | succ fuel ih =>
    obtain ⟨a, q1, qa1, qb1, hleast, hfront, hp, ha, hsub1, hi1⟩ := hi.take hm.nodup hm.nonempty
    rw [twoQueueLoop, mergeLoop, hfront, hleast]
    by_cases hq1 : q1 = []
    · subst hq1
      obtain ⟨rfl, rfl⟩ := List.append_eq_nil_iff.mp hi1.perm.nil_eq.symm
      rfl
    · have hnodup := (hp.map Key.handle).nodup_iff.mp hm.nodup
      rw [List.map_cons, List.nodup_cons] at hnodup
      obtain ⟨c, r, qa2, qb2, hleast1, hfront1, hp1, hc, hsub2, hi2⟩ := hi1.take hnodup.2 hq1
      have hpq : q.Perm (a :: c :: r) := hp.trans (hp1.cons a)
      have hac : ∀ x ∈ c :: r, x.lt a = false := fun x hx => ha x (hp1.mem_iff.mpr hx)
      have hold : ∀ x ∈ q, x.handle < ns.length := fun x hx => ((hm.live _).mp ⟨x, hx, rfl⟩).1
      have hpair : ∀ b ∈ qb2, ∀ x ∈ q, ∀ y ∈ q, b.weight.toNat ≤ x.weight.toNat + y.weight.toNat :=
        fun b hb => hi.pair b (hsub1.mem (hsub2.mem hb))
      simp only [hfront1, hleast1]
      exact ih (hm.step hpq hac hc) (hi2.push hpq hpair (hm.toNat_add hpq) hold hac hc)

/-- The loop starts from the leaves of the present byte values (R81, R82). -/
theorem mergeInv_leaves {f : Table Word} (hne : presentSyms f ≠ []) :
    MergeInv (presentSyms f).length ((List.range 256).map fun b => (Table.get 0#32 f b).toNat).sum
      (keysFrom 0 ((presentSyms f).map (leafNode f))) ((presentSyms f).map (leafNode f)) := by
  have h := MergeInv.start (ls := (presentSyms f).map (leafNode f)) (mt List.map_eq_nil_iff.mp hne)
    (by simpa using length_presentSyms_le f) (fun x hx => by obtain ⟨b, -, rfl⟩ := List.mem_map.mp hx; rfl)
    (by rw [sum_leaf_weights]; exact sum_freq_lt f)
  rwa [List.length_map, sum_leaf_weights] at h

/-- The queues start with the sorted leaves in A and nothing in B (R91). -/
theorem QueueInv.start (q : List Key) : QueueInv q (Key.sort q) [] where
  perm := by rw [List.append_nil]; exact (Key.sort_perm q).symm
  risesA := Key.sort_sorted q
  risesB := .nil
  older _ _ _ hb := absurd hb List.not_mem_nil
  pair _ hb := absurd hb List.not_mem_nil

/-! ### Kraft's equality (R97) -/

/-- R97: the leaves below a node of depth d add up to 2^−d (times 2^255), when no phantom is below it. A path
from h passes at most h + 1 − NLEAF internal nodes, so the bound on d keeps every depth within 255. -/
theorem State.TreeInv.kraft {s : State} (ht : s.TreeInv) (h2 : s.nleaf.toNat ≠ 1) {len : Nat → Nat} {h d : Nat}
    {B : Finset Nat} (hh : h < s.nnode.toNat) (hd : d + (h + 1 - s.nleaf.toNat) ≤ 255)
    (hB : ∀ b, b ∈ B ↔ ∃ p, s.mem.LeafPath h b p) (hlen : ∀ b p, s.mem.LeafPath h b p → len b = d + p.length) :
    ∑ b ∈ B, 2 ^ (255 - len b) = 2 ^ (255 - d) := by
  induction h using Nat.strong_induction_on generalizing d B with
  | _ h ih =>
  by_cases hl : h < s.nleaf.toNat
  · have hk := ht.leaf h hl
    have hB1 : B = {(s.mem.nodeAt h).sym.toNat} := by
      ext b
      simp [hB, Memory.leafPath_leaf hk, eq_comm]
    rw [hB1, Finset.sum_singleton, hlen _ [] ((Memory.leafPath_leaf hk []).mpr ⟨rfl, rfl⟩), List.length_nil, Nat.add_zero]
  · have hk := ht.internal h (by omega) hh fun c => absurd c h2
    classical
    have hchild : ∀ e, ∑ b ∈ B with ∃ p, s.mem.LeafPath ((s.mem.nodeAt h).child e) b p, 2 ^ (255 - len b) =
        2 ^ (255 - (d + 1)) := by
      intro e
      have hlt := ht.child_lt h e hk
      refine ih _ hlt (by omega) (by omega) (fun b => ?_) fun b p hp => ?_
      · rw [Finset.mem_filter, hB]
        exact ⟨And.right, fun ⟨p, hp⟩ => ⟨⟨e :: p, (Memory.leafPath_internal hk _).mpr ⟨e, p, rfl, hp⟩⟩, p, hp⟩⟩
      · rw [hlen b (e :: p) ((Memory.leafPath_internal hk _).mpr ⟨e, p, rfl, hp⟩), List.length_cons]
        omega
    have hright : (B.filter fun b => ¬ ∃ p, s.mem.LeafPath ((s.mem.nodeAt h).child false) b p) =
        B.filter fun b => ∃ p, s.mem.LeafPath ((s.mem.nodeAt h).child true) b p := by
      refine Finset.filter_congr fun b hb => ⟨fun hno => ?_, fun ⟨p, hp⟩ ⟨q, hq⟩ => ?_⟩
      · obtain ⟨p, hp⟩ := (hB b).mp hb
        obtain ⟨e, q, -, hq⟩ := (Memory.leafPath_internal hk p).mp hp
        cases e with
        | false => exact absurd ⟨q, hq⟩ hno
        | true => exact ⟨q, hq⟩
      · have := ht.leafPath_unique ((Memory.leafPath_internal hk _).mpr ⟨true, p, rfl, hp⟩)
          ((Memory.leafPath_internal hk _).mpr ⟨false, q, rfl, hq⟩)
        simp at this
    rw [← Finset.sum_filter_add_sum_filter_not B fun b => ∃ p, s.mem.LeafPath ((s.mem.nodeAt h).child false) b p,
      hright, hchild, hchild, ← two_mul, ← pow_succ']
    congr 1
    omega

/-- R97: the code lengths of a tree of two or more leaves meet Kraft's inequality with equality. -/
theorem State.TreeInv.kraft_root {s : State} (ht : s.TreeInv) (h2 : 2 ≤ s.nleaf.toNat) {len : Nat → Nat} {B : Finset Nat}
    (hB : ∀ b, b ∈ B ↔ ∃ p, s.mem.LeafPath s.root.toNat b p)
    (hlen : ∀ b p, s.mem.LeafPath s.root.toNat b p → len b = p.length) : ∑ b ∈ B, 2 ^ (255 - len b) = 2 ^ 255 := by
  have hle := ht.nleaf_le
  have hn := ht.nnode_eq
  rw [if_neg (by omega), if_neg (by omega)] at hn
  have hr := ht.root_toNat (by omega)
  exact ht.kraft (d := 0) (by omega) (by omega) (by omega) hB fun b p hp => by rw [hlen b p hp, Nat.zero_add]

/-! ### The codebook of BUILD's tree (R89, R97) -/

/-- R92, R94: after GENCB a byte value has a code exactly when a path leads to its leaf. -/
theorem State.TreeInv.gencb_len_ne_zero {s : State} (ht : s.TreeInv) (b : Nat) :
    ((gencbCommand s).complete.mem.cbAt b).len ≠ 0#8 ↔ ∃ p, s.mem.LeafPath s.root.toNat b p := by
  rw [ne_eq, ← CodeEntry.codeOf_eq_none, ← ne_eq, Option.ne_none_iff_exists']
  exact exists_congr fun p => ht.codeOf_gencb b p

/-- R92: LEN is the number of edges of the path. -/
theorem State.TreeInv.gencb_len {s : State} (ht : s.TreeInv) {b : Nat} {p : Bits}
    (hp : s.mem.LeafPath s.root.toNat b p) : ((gencbCommand s).complete.mem.cbAt b).len.toNat = p.length :=
  (Memory.codeOf_length ((ht.codeOf_gencb b p).mpr hp)).1.symm

/-- R97: after BUILD and GENCB the byte values with a code are the present ones. -/
theorem filter_gencb_len_ne_zero (s : State) :
    ((List.range 256).filter fun b => ((gencbCommand (buildCommand s).complete).complete.mem.cbAt b).len != 0#8) =
      presentSyms s.mem.freq := by
  refine List.filter_congr fun b hb => ?_
  rw [Bool.eq_iff_iff, bne_iff_ne, (buildCommand_complete_treeInv s).gencb_len_ne_zero, buildCommand_leafPath_iff,
    mem_presentSyms, bne_iff_ne]
  exact and_iff_right (List.mem_range.mp hb)

/-! ### The obligations -/

/-- Settles O12: no byte value is present, so the arena is empty. -/
theorem buildOfEmptyTableMakesNoTree : Obligations.BuildOfEmptyTableMakesNoTree := by
  intro s h
  have hs : presentSyms s.mem.freq = [] := presentSyms_eq_nil h
  have hn := buildNodes_empty hs
  refine ⟨_, exec_build s, fun h => ?_, ?_⟩
  · rw [buildCommand_complete_nodeAt, hn, arena_nodeAt_beyond (Nat.zero_le h)]
  · conv_lhs => rw [buildCommand_complete, hs, hn]
    rfl

/-- Settles O13: the arena is that of R86, and the only path to a leaf is the left edge from the root. -/
theorem buildOfOneSymbolAddsPhantom : Obligations.BuildOfOneSymbolAddsPhantom := by
  intro s b hb h
  have hs : presentSyms s.mem.freq = [b] := presentSyms_eq_singleton hb h
  have hn := buildNodes_single hs
  have ht := buildCommand_complete_treeInv s
  obtain ⟨h0, h1, h2⟩ := buildCommand_single hs
  refine ⟨_, _, exec_build s, h0, h1, h2, fun h hh => ?_, ?_, exec_gencb _, ?_, fun b' hne => ?_⟩
  · rw [buildCommand_complete_nodeAt, arena_nodeAt_beyond (by rw [hn]; exact hh)]
  · conv_lhs => rw [buildCommand_complete, hs, hn]
    rfl
  · exact (ht.codeOf_gencb b _).mpr (leafPath_single hb hs)
  · refine Option.eq_none_iff_forall_ne_some.mpr fun p hp => hne ?_
    have hmem := (buildCommand_leafPath_iff s b').mp ⟨p, (ht.codeOf_gencb b' p).mp hp⟩
    rwa [hs, List.mem_singleton] at hmem

/-- Settles O14: the leaves stand first in the arena, in the order of the present byte values. -/
theorem buildAllocatesLeavesInByteOrder : Obligations.BuildAllocatesLeavesInByteOrder := by
  intro s
  refine ⟨_, exec_build s, rfl, fun j b hj => ?_⟩
  obtain ⟨hlt, rfl⟩ := List.getElem?_eq_some_iff.mp hj
  exact buildNodes_leaf hlt

/-- Settles O15: every internal node of the tree is a merge. -/
theorem buildMergesTheTwoLeastKeys : Obligations.BuildMergesTheTwoLeastKeys := by
  intro s h2
  have ht := buildCommand_complete_treeInv s
  refine ⟨_, exec_build s, fun h hge hlt => ?_⟩
  obtain ⟨hk, hsym, hw, -, hll, hlr, hless, hleast⟩ :=
    ht.merged (by rw [buildCommand_complete_nleaf]; exact h2) h hge hlt
  exact ⟨hk, hsym, hw, hll, hlr, hless, hleast⟩

/-- Settles O16: what BUILD makes is a tree whatever FREQ holds. -/
theorem buildLeavesATree : Obligations.BuildLeavesATree :=
  fun s => ⟨_, exec_build s, buildCommand_complete_treeInv s, buildCommand_complete_nleaf s, buildCommand_complete s⟩

/-- Settles O17: a leaf weighs a count, a merge loses no carry, and the merges keep the sum. -/
theorem buildWeightsNeverOverflow : Obligations.BuildWeightsNeverOverflow := by
  intro s
  have ht := buildCommand_complete_treeInv s
  refine ⟨_, exec_build s, fun h hk => ?_, ht.weights_add, fun hne => ?_⟩
  · obtain ⟨-, -, -, hlt⟩ := ht.leaf_fields h (ht.leaf_range hk)
    exact hlt
  · have hn : (buildCommand s).complete.nnode.toNat ≠ 0 := fun e => hne (BitVec.eq_of_toNat_eq e)
    have hr := ht.root_toNat hn
    rw [buildCommand_complete_nnode] at hn hr
    rw [hr]
    exact buildNodes_root_weight hn

/-- Settles O18: the present byte values and the arena depend on the 256 entries only. -/
theorem buildDependsOnlyOnFreq : Obligations.BuildDependsOnlyOnFreq := by
  intro s s' h
  have hs : presentSyms s.mem.freq = presentSyms s'.mem.freq := presentSyms_congr h
  have hn : buildNodes s.mem.freq = buildNodes s'.mem.freq := buildNodes_congr h
  refine ⟨_, _, exec_build s, exec_build s', ?_, ?_, ?_, ?_⟩ <;> simp [buildCommand, hs, hn]

/-- Settles O19: with fewer than two byte values both builders are written alike; with more, their loops agree. -/
theorem twoQueueBuilderGivesTheSameArena : Obligations.TwoQueueBuilderGivesTheSameArena := by
  intro f
  rw [twoQueueNodes, buildNodes]
  have hloop := fun hne : presentSyms f ≠ [] =>
    twoQueueLoop_eq_mergeLoop ((presentSyms f).map (leafNode f)).length (mergeInv_leaves hne) (QueueInv.start _)
  match presentSyms f, hloop with
  | [], _ => rfl
  | [b], _ => rfl
  | b :: c :: syms, hloop => exact hloop (List.cons_ne_nil _ _)

/-- Settles O21: the codes are the paths to the leaves, and those have 1 to max(1, K − 1) edges. -/
theorem gencbCodeLengthsAreBounded : Obligations.GencbCodeLengthsAreBounded :=
  fun s ht => ⟨_, exec_gencb s, fun _ _ hp => ht.depth hp, fun b _ c hc => ht.depth ((ht.codeOf_gencb b c).mp hc)⟩

/-- Settles O23: the byte values with a code are the present ones, and their code lengths are depths in a binary tree. -/
theorem generatedCodebookIsComplete : Obligations.GeneratedCodebookIsComplete := by
  intro s
  have ht := buildCommand_complete_treeInv s
  have hl := buildCommand_complete_nleaf s
  have hB := fun b => List.mem_toFinset.trans (buildCommand_leafPath_iff s b).symm
  refine ⟨_, _, exec_build s, exec_gencb _, fun b hb => ?_, ?_⟩
  · rw [ht.gencb_len_ne_zero, buildCommand_leafPath_iff, mem_presentSyms]
    exact and_iff_right hb
  rw [filter_gencb_len_ne_zero, hl, ← List.sum_toFinset _ (presentSyms_nodup _)]
  refine ⟨rfl, fun h2 => ?_, fun h1 => ?_⟩
  · exact ht.kraft_root (hl.symm ▸ h2) hB fun b p hp => ht.gencb_len hp
  · obtain ⟨b, hb⟩ := List.length_eq_one_iff.mp h1
    obtain ⟨p, hp⟩ := (buildCommand_leafPath_iff s b).mpr (by simp [hb])
    obtain ⟨hge, hle, -⟩ := ht.depth hp
    rw [hl, h1] at hle
    have hone : p.length = 1 := by omega
    rw [hb, List.toFinset_cons, List.toFinset_nil, insert_empty_eq, Finset.sum_singleton, ht.gencb_len hp, hone]

end Sys2Proof.Machine
end

section
/-! SUPPORT. The codebook commands GENCB and CLRCB (43_codebook.md R92 to R96): the entry made from a path, and why no path
to a leaf is the beginning of another. -/

namespace Sys2Proof.Machine

/-! ### The entry of a path (R92) -/

/-- R92: LEN of the entry made from a path of up to 255 edges. -/
theorem CodeEntry.ofBits_len {p : Bits} (h : p.length ≤ 255) : (CodeEntry.ofBits p).len.toNat = p.length := by
  rw [← CodeEntry.length_bits, bits_ofBits h]

/-- R92: the code elements beyond a path are 0. -/
theorem codeOfBits_beyond {p : Bits} {i : Nat} (h : p.length ≤ i) : (codeOfBits p).getMsbD i = false := by
  by_cases hi : i < 256
  · rw [codeOfBits_bit p hi, List.getD_eq_default _ _ h]
  · exact BitVec.getMsbD_of_ge _ _ (by omega)

/-- Everything GENCB leaves in the entry of a byte value of a tree (R92): the entry of its path, or the cleared entry. -/
theorem State.TreeInv.cbAt_gencb {s : State} (ht : s.TreeInv) (b : Nat) :
    (∃ p, s.mem.LeafPath s.root.toNat b p ∧ (gencbCommand s).complete.mem.cbAt b = CodeEntry.ofBits p) ∨
    ((∀ p, ¬ s.mem.LeafPath s.root.toNat b p) ∧ (gencbCommand s).complete.mem.cbAt b = CodeEntry.empty) :=
  ht.treeCodebook_spec b

/-- R92: after GENCB the code elements beyond LEN are 0. -/
theorem State.TreeInv.gencb_code_beyond {s : State} (ht : s.TreeInv) {b i : Nat}
    (hi : ((gencbCommand s).complete.mem.cbAt b).len.toNat ≤ i) :
    ((gencbCommand s).complete.mem.cbAt b).code.getMsbD i = false := by
  rcases ht.cbAt_gencb b with ⟨p, hp, e⟩ | ⟨-, e⟩ <;> rw [e] at hi ⊢
  · obtain ⟨-, -, hl⟩ := ht.depth hp
    exact codeOfBits_beyond (by rwa [CodeEntry.ofBits_len hl] at hi)
  · exact BitVec.getMsbD_zero

/-! ### No path to a leaf begins another (R96) -/

/-- A path to a leaf goes no further, so two paths to leaves of which one begins the other lead to one leaf (R87). -/
theorem Memory.LeafPath.eq_of_prefix {m : Memory} {h b b' : Nat} {p q : Bits} (hp : m.LeafPath h b p)
    (hq : m.LeafPath h b' q) (hpq : p <+: q) : b = b' := by
  obtain ⟨r, rfl⟩ := hpq
  obtain ⟨g, hg, hk, rfl⟩ := hp
  obtain ⟨g', hg', hk', hs'⟩ := hq
  rw [Memory.follow_append, hg, Option.bind_some] at hg'
  exact ((Memory.leafPath_leaf hk r).mp ⟨g', hg', hk', hs'⟩).2

/-- R96: the codes of a tree are the paths to its leaves, so none begins another. -/
theorem State.TreeInv.gencb_prefixFree {s : State} (ht : s.TreeInv) : (gencbCommand s).complete.mem.PrefixFree :=
  fun b b' _ _ hne c c' hc hc' hp =>
    hne (((ht.codeOf_gencb b c).mp hc).eq_of_prefix ((ht.codeOf_gencb b' c').mp hc') hp)

/-- R106: a code that two byte values share begins with itself. -/
theorem Memory.PrefixFree.noSharedCode {m : Memory} (h : m.PrefixFree) : m.NoSharedCode :=
  fun b b' hlt hb' c hc hc' => h b b' (by omega) hb' (by omega) c c hc hc' List.prefix_rfl

/-! ### The obligations -/

/-- Settles O20: the entry of a byte value is that of the path to its leaf, or the cleared one. -/
theorem gencbWritesTheLeafPaths : Obligations.GencbWritesTheLeafPaths := by
  refine ⟨by decide, fun s ht => ⟨_, exec_gencb s, fun b _ p => ht.codeOf_gencb b p,
    fun b _ i hi => ht.gencb_code_beyond hi, fun b _ hno => ?_, rfl⟩⟩
  rcases ht.cbAt_gencb b with ⟨p, hp, -⟩ | ⟨-, e⟩
  · exact absurd hp (hno p)
  · exact e

/-- Settles O22: the codes are the paths to the leaves, and none of those begins another. -/
theorem generatedCodebookIsPrefixFree : Obligations.GeneratedCodebookIsPrefixFree :=
  fun s ht => ⟨_, exec_gencb s, ht.gencb_prefixFree, ht.gencb_prefixFree.noSharedCode⟩

/-- Settles O24: CLRCB writes the empty codebook, and GENCB reads neither the codebook nor what a completion writes. -/
theorem clrcbClearsEveryEntry : Obligations.ClrcbClearsEveryEntry :=
  ⟨by decide, fun s => ⟨_, exec_eq .clrcb s, fun _ => rfl, rfl, rfl⟩⟩

end Sys2Proof.Machine
end

section
/-! SUPPORT. The round trip of PACK and UNPACK (R109): what PACK leaves when it succeeds, what UNPACK emits on a greedy
parse, and the bits and bytes that go from OBUF to IBUF. -/

namespace Sys2Proof.Machine

/-! ### PACK and UNPACK when they succeed (R99, R103) -/

/-- Everything a PACK that completes without an error has done (R99): every input byte has a code, the codes fit OBUF, and
OBUF takes their bits in order. -/
theorem packCommand_eq_ok {s : State} (h : (packCommand s).complete.err = .ok) :
    ∃ codes : List Bits, (s.inputBytes.map fun v => s.mem.codeOf v.toNat) = codes.map some ∧
      codes.flatten.length ≤ 8 * s.params.nObuf ∧ (packCommand s).complete =
        (s.writeOutput (packStream codes.flatten) (BitVec.ofNat 3 (padCount codes.flatten.length))
          codes.flatten.length).completeOk := by
  rcases packCommand_cases s with ⟨-, e⟩ | ⟨f, -, hf, e⟩ | ⟨bits, -, hs, e⟩
  · rw [e, CmdResult.complete_fail (State.failOutput_verdict _ s)] at h
    cases h
  · rw [e, CmdResult.complete_fail (State.failOutput_verdict f s), State.takeError_err] at h
    rcases packScan_eq_error hf with hc | ⟨hc, -⟩ <;> rw [hc] at h <;> cases h
  · obtain ⟨codes, hcodes, rfl, hl⟩ := packScan_eq_ok hs (Nat.zero_le _)
    exact ⟨codes, hcodes, by omega, by rw [e, CmdResult.complete_ok rfl]⟩

/-- UNPACK of a stream that is a list of greedy emissions writes their byte values (R103, R104). -/
theorem unpackCommand_segs {s : State} {segs : List (Nat × Bits)} (hlen : s.inLen.toNat ≤ s.params.nIbuf)
    (hpad : s.padIn.toNat ≤ 8 * s.inLen.toNat) (hs : s.mem.NoSharedCode) (hg : s.mem.GreedySegs segs)
    (hcap : segs.length ≤ s.params.nObuf) (hbits : s.trimmedStream = segBits segs) :
    unpackCommand s = ⟨s.writeOutput (segBytes segs) 0 (segBits segs).length, .ok⟩ := by
  have hscan : unpackScan s.mem.cb s.params.nObuf 0 0 [] 0 s.trimmedStream = .ok (segBytes segs) := by
    obtain ⟨st, h⟩ := unpackScan_segs (cap := s.params.nObuf) segs [] 0 0 0 hs hg (by omega)
    rw [List.append_nil] at h
    rw [hbits, h]
    simp [unpackScan]
  have hdup : Codebook.dupPair s.mem.cb = none := dupPair_none hs
  unfold unpackCommand
  rw [(s.lenFails_eq_false_iff).mpr hlen, if_neg Bool.false_ne_true, if_neg (by omega), hdup, hscan, hbits]

/-! ### Segments -/

/-- The byte values and their codes, as segments (R99). -/
theorem Memory.exists_segs {m : Memory} {vs : List Byte} {codes : List Bits}
    (h : (vs.map fun v => m.codeOf v.toNat) = codes.map some) :
    ∃ segs, segBytes segs = vs ∧ segBits segs = codes.flatten ∧ ∀ g ∈ segs, g.1 < 256 ∧ m.codeOf g.1 = some g.2 := by
  induction vs generalizing codes with
  | nil =>
    obtain rfl : codes = [] := by simpa using h.symm
    exact ⟨[], rfl, rfl, nofun⟩
  | cons v vs ih =>
    match codes, h with
    | c :: codes, h =>
      obtain ⟨hc, h⟩ := List.cons.inj h
      obtain ⟨segs, hv, hb, hall⟩ := ih h
      refine ⟨(v.toNat, c) :: segs, ?_, ?_, List.forall_mem_cons.mpr ⟨⟨v.isLt, hc⟩, hall⟩⟩
      · rw [← hv, segBytes, List.map_cons, BitVec.ofNat_toNat, BitVec.setWidth_eq]
        rfl
      · rw [List.flatten_cons, ← hb]
        rfl

theorem length_segBytes (segs : List (Nat × Bits)) : (segBytes segs).length = segs.length := List.length_map _

/-- In a codebook where no code begins another (R96), every code is a greedy emission (R104). -/
theorem Memory.PrefixFree.emits {m : Memory} (h : m.PrefixFree) {b : Nat} {c : Bits} (hb : b < 256)
    (hc : m.codeOf b = some c) : m.Emits b c := by
  refine ⟨hb, hc, fun b' hb' c' hc' hp => ?_⟩
  by_cases e : b' = b
  · subst e
    exact Option.some.inj (hc'.symm.trans hc)
  · exact absurd hp (h b' b hb' hb e c' c hc' hc)

/-- Memories with one codebook have the same codes (R94). -/
theorem Memory.codeOf_congr {m m' : Memory} (h : m.cb = m'.cb) (b : Nat) : m.codeOf b = m'.codeOf b := by
  rw [Memory.codeOf, Memory.codeOf, h]

theorem Memory.PrefixFree.congr {m m' : Memory} (hm : m.PrefixFree) (h : m'.cb = m.cb) : m'.PrefixFree := by
  intro b b' hb hb' hne c c' hc hc'
  rw [Memory.codeOf_congr h] at hc hc'
  exact hm b b' hb hb' hne c c' hc hc'

/-! ### From OBUF to IBUF (R52, R100) -/

/-- A state that takes the packed bytes of a stream, their number and their pad count as its input sees that stream
(R52, R100, R103). -/
theorem State.trimmedStream_of_packed {u : State} {o : Buffer} {bits : Bits}
    (hlen : u.inLen.toNat = (packStream bits).length) (hpad : u.padIn = BitVec.ofNat 3 (padCount bits.length))
    (hbytes : ∀ j, j < u.inLen.toNat → u.mem.ibuf.byte j = (o.store 0 (packStream bits)).byte j) :
    u.trimmedStream = bits := by
  have hsum := packStream_padded bits
  rw [← hpad, ← hlen] at hsum
  refine State.trimmedStream_eq (by omega) fun k hk => ?_
  rw [← streamBit_store_packStream o bits k (by omega), streamBit, streamBit, hbytes (k / 8) (by omega)]

/-- R109 on one machine state: UNPACK of the packed codes of some byte values, with a codebook as R96 has it, gives the byte
values back. -/
theorem unpackCommand_packed {u : State} {o : Buffer} {vs : List Byte} {codes : List Bits} (hpf : u.mem.PrefixFree)
    (hcodes : (vs.map fun v => u.mem.codeOf v.toNat) = codes.map some)
    (hlen : u.inLen.toNat = (packStream codes.flatten).length)
    (hpad : u.padIn = BitVec.ofNat 3 (padCount codes.flatten.length))
    (hbytes : ∀ j, j < u.inLen.toNat → u.mem.ibuf.byte j = (o.store 0 (packStream codes.flatten)).byte j)
    (hfits : u.inLen.toNat ≤ u.params.nIbuf) (hcap : vs.length ≤ u.params.nObuf) :
    unpackCommand u = ⟨u.writeOutput vs 0 codes.flatten.length, .ok⟩ := by
  obtain ⟨segs, rfl, hbits, hall⟩ := Memory.exists_segs hcodes
  have hsum := packStream_padded codes.flatten
  rw [← hpad, ← hlen] at hsum
  rw [← hbits]
  exact unpackCommand_segs hfits (by omega) hpf.noSharedCode
    (fun g hg => hpf.emits (hall g hg).1 (hall g hg).2) (length_segBytes segs ▸ hcap)
    ((State.trimmedStream_of_packed hlen hpad hbytes).trans hbits.symm)

/-! ### The obligation -/

/-- Settles O34: PACK succeeded, so its bits are codes of the input in order; in a generated codebook no code begins
another, so UNPACK's greedy parse of them is those codes. -/
theorem unpackUndoesPack : Obligations.UnpackUndoesPack := by
  intro s g c t u ht hg hp hcb ht' hok hucb hlen hpad hfits hcap hbytes
  obtain rfl := Host.Outcome.next.inj ((exec_gencb s).symm.trans hg)
  obtain rfl : (packCommand c).complete = t := Host.Outcome.next.inj ((exec_eq .pack c).symm.trans ht')
  obtain ⟨codes, hcodes, hroom, hpack⟩ := packCommand_eq_ok hok
  have hmax : c.params.nObuf ≤ 2 ^ 20 := hp.2.2
  have hsize := length_packStream codes.flatten
  have houtLen : (packCommand c).complete.outLen.toNat = (packStream codes.flatten).length := by
    rw [hpack, State.completeOk_outLen, State.writeOutput_outLen, BitVec.toNat_ofNat, Nat.mod_eq_of_lt (by omega)]
  have hunpack : unpackCommand u = ⟨u.writeOutput c.inputBytes 0 codes.flatten.length, .ok⟩ := by
    refine unpackCommand_packed (o := c.mem.obuf) (ht.gencb_prefixFree.congr hucb) ?_ (hlen ▸ houtLen) ?_ ?_
      (hlen ▸ hfits) (c.length_inputBytes ▸ hcap)
    · simpa only [Memory.codeOf_congr (hucb.trans hcb.symm)] using hcodes
    · rw [hpad, hpack, State.completeOk_padOut, State.writeOutput_padOut]
    · intro j hj
      rw [hbytes j (hlen ▸ hj), hpack, State.completeOk_mem, State.writeOutput_mem]
  refine ⟨_, exec_eq .unpack u, ?_⟩
  rw [commandResult, hunpack, CmdResult.complete_ok rfl, hpack]
  refine ⟨rfl, ?_, rfl, fun j hj => ?_⟩
  · rw [State.completeOk_outLen, State.writeOutput_outLen, c.length_inputBytes, BitVec.ofNat_toNat, BitVec.setWidth_eq]
  · rw [State.completeOk_mem, State.writeOutput_mem, Buffer.byte_store,
      if_pos ⟨Nat.zero_le j, by rwa [c.length_inputBytes, Nat.zero_add]⟩]
    exact Buffer.getD_bytes c.mem.ibuf hj 0

end Sys2Proof.Machine
end

section
/-! SUPPORT. PACK (44_packer.md R99 to R102, R117, R122): the state after a success and its parts, and the first byte that
ends the loop. -/

namespace Sys2Proof.Machine

/-! ### The completion of PACK -/

/-- The state in which PACK completes when it has laid down `bits` (R99, R72). -/
def State.completePack (bits : Bits) (s : State) : State :=
  (s.writeOutput (packStream bits) (BitVec.ofNat 3 (padCount bits.length)) bits.length).completeOk

/-- PACK completes with the bits that its loop lays down (R99). -/
theorem exec_pack_of_scan_ok {s : State} {bits : Bits} (hlen : s.inLen.toNat ≤ s.params.nIbuf)
    (h : packScan s.mem.cb (8 * s.params.nObuf) 0 0 s.inputBytes = .ok bits) :
    exec .pack s = .next (s.completePack bits) := by
  rw [exec_eq, commandResult, packCommand, s.lenFails_eq_false_iff.mpr hlen, if_neg Bool.false_ne_true, h]
  rfl

/-- PACK takes the error that ends its loop, with the failure writes (R99, R123). -/
theorem exec_pack_of_scan_error {s : State} {f : Failure} (hlen : s.inLen.toNat ≤ s.params.nIbuf)
    (h : packScan s.mem.cb (8 * s.params.nObuf) 0 0 s.inputBytes = .error f) :
    exec .pack s = .next (s.dropOutput.takeError f) := by
  rw [exec_eq, commandResult, packCommand, s.lenFails_eq_false_iff.mpr hlen, if_neg Bool.false_ne_true, h]
  rfl

/-- Legal buffers hold fewer than 2^32 bits (R6), so the result registers hold the numbers of PACK exactly. -/
theorem Params.bits_lt_of_legal {p : Params} (hp : p.Legal) {n : Nat} (h : n ≤ 8 * p.nObuf) : n < 2 ^ 32 := by
  have hmax : p.nObuf ≤ 2 ^ 20 := hp.2.2
  omega

section Parts

variable {s : State} {bits : Bits}

theorem State.completePack_nbits_toNat (h : bits.length < 2 ^ 32) : (s.completePack bits).nbits.toNat = bits.length :=
  (BitVec.toNat_ofNat _ _).trans (Nat.mod_eq_of_lt h)

theorem State.completePack_outLen_toNat (h : bits.length < 2 ^ 32) :
    (s.completePack bits).outLen.toNat = (bits.length + 7) / 8 := by
  rw [State.completePack, State.completeOk_outLen, State.writeOutput_outLen, length_packStream, BitVec.toNat_ofNat,
    Nat.mod_eq_of_lt (by omega)]

/-- R100: the code bits and the pad bits fill whole bytes. -/
theorem State.completePack_padded : bits.length + (s.completePack bits).padOut.toNat = 8 * ((bits.length + 7) / 8) :=
  (packStream_padded bits).trans (by rw [length_packStream])

/-- The stream bits in the written bytes are the codes, then zeros (R99, R52). -/
theorem State.completePack_streamBit {k : Nat} (hk : k < 8 * ((bits.length + 7) / 8)) :
    streamBit (s.completePack bits).mem.obuf.byte k = bits.getD k false :=
  streamBit_store_packStream s.mem.obuf bits k (by rwa [length_packStream])

/-- R99: the bytes beyond the result keep their values. -/
theorem State.completePack_byte_beyond {j : Nat} (hj : (bits.length + 7) / 8 ≤ j) :
    (s.completePack bits).mem.obuf.byte j = s.mem.obuf.byte j := by
  rw [State.completePack, State.completeOk_mem, State.writeOutput_mem, Buffer.byte_store, length_packStream,
    if_neg (by omega)]

/-- R100: the low PAD_OUT bits of the last written byte are the padding. -/
theorem State.completePack_last_byte {k : Nat} (hk : k < (s.completePack bits).padOut.toNat) :
    ((s.completePack bits).mem.obuf.byte ((bits.length + 7) / 8 - 1)).getLsbD k = false := by
  have hpad := s.completePack_padded (bits := bits)
  have hlt := (s.completePack bits).padOut.isLt
  have hbit := s.completePack_streamBit (bits := bits) (k := 8 * ((bits.length + 7) / 8) - 1 - k) (by omega)
  rw [List.getD_eq_default _ _ (by omega), streamBit,
    show (8 * ((bits.length + 7) / 8) - 1 - k) / 8 = (bits.length + 7) / 8 - 1 by omega,
    show 7 - (8 * ((bits.length + 7) / 8) - 1 - k) % 8 = k by omega] at hbit
  exact hbit

end Parts

/-! ### The loop on the input buffer -/

/-- The codes of the first bytes of a buffer, by index and as a map over the bytes. -/
theorem Memory.map_codeOf_bytes (m : Memory) (b : Buffer) (n : Nat) :
    ((b.bytes n).map fun v => m.codeOf v.toNat) = (List.range n).map fun i => m.codeOf (b.byte i).toNat :=
  List.map_map

/-- PACK succeeds when every input byte has a code and the codes fit OBUF (R99). -/
theorem exec_pack_of_codes {s : State} {codes : List Bits} (hlen : s.inLen.toNat ≤ s.params.nIbuf)
    (hcodes : ((List.range s.inLen.toNat).map fun i => s.mem.codeOf (s.mem.ibuf.byte i).toNat) = codes.map some)
    (hroom : codes.flatten.length ≤ 8 * s.params.nObuf) :
    exec .pack s = .next (s.completePack codes.flatten) :=
  exec_pack_of_scan_ok hlen
    (packScan_ok s.inputBytes codes 0 0 ((s.mem.map_codeOf_bytes _ _).trans hcodes) (by rwa [Nat.zero_add]))

/-- The bytes of a buffer up to an index, the byte there, and what follows. -/
theorem Buffer.bytes_split (b : Buffer) {n m : Nat} (h : n < m) :
    ∃ rest, b.bytes m = b.bytes n ++ b.byte n :: rest := by
  obtain ⟨k, rfl⟩ := Nat.exists_eq_add_of_lt h
  rw [Nat.add_assoc, Buffer.bytes, List.range_add, List.range_succ_eq_map, List.map_append]
  exact ⟨_, rfl⟩

/-- After bytes whose codes fit, PACK's error is the one its loop meets at the next byte, at whatever follows (R99). -/
theorem exec_pack_of_bad_byte {s : State} {codes : List Bits} {f : Failure} (hlen : s.inLen.toNat ≤ s.params.nIbuf)
    (hlt : codes.length < s.inLen.toNat)
    (hcodes : ((List.range codes.length).map fun i => s.mem.codeOf (s.mem.ibuf.byte i).toNat) = codes.map some)
    (hroom : codes.flatten.length ≤ 8 * s.params.nObuf)
    (hbad : ∀ rest, packScan s.mem.cb (8 * s.params.nObuf) codes.length codes.flatten.length
      (s.mem.ibuf.byte codes.length :: rest) = .error f) :
    exec .pack s = .next (s.dropOutput.takeError f) := by
  obtain ⟨rest, hsplit⟩ := s.mem.ibuf.bytes_split hlt
  refine exec_pack_of_scan_error hlen ?_
  rw [State.inputBytes, hsplit, packScan_append _ _ codes 0 0 ((s.mem.map_codeOf_bytes _ _).trans hcodes)
    (by rwa [Nat.zero_add]), Nat.zero_add, Nat.zero_add, hbad]

/-! ### The obligations -/

/-- Settles O25: the loop lays down the codes, and the parts of the completion are those of their bits. -/
theorem packLaysDownTheCodes : Obligations.PackLaysDownTheCodes := by
  intro s codes hp hlen hcodes hroom
  have hlt := Params.bits_lt_of_legal hp hroom
  have hnbits := s.completePack_nbits_toNat hlt
  have hout := s.completePack_outLen_toNat hlt
  have hpad := s.completePack_padded (bits := codes.flatten)
  refine ⟨_, exec_pack_of_codes hlen hcodes hroom, hnbits, hout, by omega, fun k hk => ?_, fun k hlo hhi => ?_,
    fun j hj => State.completePack_byte_beyond (hout ▸ hj), rfl⟩
  · exact State.completePack_streamBit (by omega)
  · rw [State.completePack_streamBit (hout ▸ hhi), List.getD_eq_default _ _ (hnbits ▸ hlo)]

/-- Settles O26: a success has laid down bits that fit, and its pad count fills whole bytes; the empty input has no
bits. -/
theorem padCountRoundsUpToBytes : Obligations.PadCountRoundsUpToBytes := by
  refine ⟨fun s t hp ht hok => ?_, fun s h => ?_⟩
  · obtain rfl : (packCommand s).complete = t := Host.Outcome.next.inj ((exec_eq .pack s).symm.trans ht)
    obtain ⟨codes, -, hroom, hpack⟩ := packCommand_eq_ok hok
    have hlt := Params.bits_lt_of_legal hp hroom
    have hpad := s.completePack_padded (bits := codes.flatten)
    have hpad8 := (s.completePack codes.flatten).padOut.isLt
    rw [hpack, ← State.completePack, s.completePack_nbits_toNat hlt, s.completePack_outLen_toNat hlt]
    refine ⟨hpad, rfl, fun k hk => State.completePack_last_byte hk, ?_⟩
    rw [← BitVec.toNat_inj, BitVec.toNat_zero]
    omega
  · have hlen : s.inLen.toNat = 0 := by rw [h, BitVec.toNat_zero]
    exact exec_pack_of_codes (codes := []) (by omega) (by rw [hlen]; rfl) (Nat.zero_le _)

/-- Settles O27: the bytes before are laid down, and the next one has no code or one too long. -/
theorem packStopsAtTheFirstBadByte : Obligations.PackStopsAtTheFirstBadByte := by
  intro s codes e hlen hlt hcodes hroom hbad
  rcases hbad with ⟨hnone, rfl⟩ | ⟨c, hc, hover, rfl⟩
  · exact exec_pack_of_bad_byte hlen hlt hcodes hroom fun _ => packScan_missing hnone
  · exact exec_pack_of_bad_byte hlen hlt hcodes hroom fun _ => packScan_overflow hc hover

end Sys2Proof.Machine
end

section
/-! SUPPORT. UNPACK (45_unpacker.md R103 to R108, R118, R120, R122): the state in which it completes for each outcome of
its checks and of its scan, the error information, and what it reads of IBUF. -/

namespace Sys2Proof.Machine

/-! ### The completion of UNPACK, check by check (R122) -/

section Checks

variable {s : State} (hlen : s.inLen.toNat ≤ s.params.nIbuf)

include hlen

/-- The pad count is checked after IN_LEN (R105). -/
theorem exec_unpack_of_pad (hpad : 8 * s.inLen.toNat < s.padIn.toNat) :
    exec .unpack s = .next (s.dropOutput.takeError ⟨.malformed, 0, 0⟩) := by
  rw [exec_eq, commandResult, unpackCommand, s.lenFails_eq_false_iff.mpr hlen, if_neg Bool.false_ne_true, if_pos hpad]
  rfl

variable (hpad : s.padIn.toNat ≤ 8 * s.inLen.toNat)

include hpad

/-- Equal codes are looked for after the pad count (R106). -/
theorem exec_unpack_of_dupPair {b b' : Nat} (h : Codebook.dupPair s.mem.cb = some (b, b')) :
    exec .unpack s = .next
      (s.dropOutput.takeError ⟨.dupCode, 0, BitVec.ofNat 16 b ||| BitVec.ofNat 16 b' <<< 8⟩) := by
  rw [exec_eq, commandResult, unpackCommand, s.lenFails_eq_false_iff.mpr hlen, if_neg Bool.false_ne_true,
    if_neg (by omega), h]
  rfl

/-- With no equal codes UNPACK takes the error that ends its scan (R103, R123). -/
theorem exec_unpack_of_scan_error {f : Failure} (hs : s.mem.NoSharedCode)
    (h : unpackScan s.mem.cb s.params.nObuf 0 0 [] 0 s.trimmedStream = .error f) :
    exec .unpack s = .next (s.dropOutput.takeError f) := by
  have hdup : Codebook.dupPair s.mem.cb = none := dupPair_none hs
  rw [exec_eq, commandResult, unpackCommand, s.lenFails_eq_false_iff.mpr hlen, if_neg Bool.false_ne_true,
    if_neg (by omega), hdup, h]
  rfl

/-- After greedy emissions that fit OBUF, UNPACK takes the error that the scan meets in the bits that follow (R104). -/
theorem exec_unpack_of_segs_error {segs : List (Nat × Bits)} {rest : Bits} {f : Failure} (hs : s.mem.NoSharedCode)
    (hg : s.mem.GreedySegs segs) (hcap : segs.length ≤ s.params.nObuf) (hbits : s.trimmedStream = segBits segs ++ rest)
    (hrest : ∀ start, unpackScan s.mem.cb s.params.nObuf (segBits segs).length start [] segs.length rest = .error f) :
    exec .unpack s = .next (s.dropOutput.takeError f) := by
  obtain ⟨start, hscan⟩ := unpackScan_segs (cap := s.params.nObuf) segs rest 0 0 0 hs hg (by omega)
  refine exec_unpack_of_scan_error hlen hpad hs ?_
  rw [hbits, hscan, Nat.zero_add, Nat.zero_add, hrest]

end Checks

/-! ### The error information (R106, R120) -/

/-- ERR_SYM of E_DUP_CODE holds b in its low byte and b′ in its high byte (R106). -/
theorem ofNat_or_shiftLeft_eight {b : Nat} (b' : Nat) (hb : b < 256) :
    BitVec.ofNat 16 b ||| BitVec.ofNat 16 b' <<< 8 = BitVec.ofNat 16 (b + 256 * b') := by
  have hor : b + 256 * b' = b ||| b' <<< 8 := by
    rw [Nat.lor_comm, ← Nat.shiftLeft_add_eq_or_of_lt (i := 8) hb, Nat.shiftLeft_eq, Nat.add_comm, Nat.mul_comm]
  have hshift : (b' % 2 ^ 16) <<< 8 % 2 ^ 16 = b' <<< 8 % 2 ^ 16 := by
    rw [Nat.shiftLeft_eq, Nat.shiftLeft_eq, Nat.mod_mul_mod]
  apply BitVec.eq_of_toNat_eq
  rw [BitVec.toNat_or, BitVec.toNat_shiftLeft, BitVec.toNat_ofNat, BitVec.toNat_ofNat, BitVec.toNat_ofNat, hshift, hor,
    Nat.or_mod_two_pow]

/-- A greedy emission into a full OBUF gives E_OBUF_OVF with its byte value, at its first bit (R120). -/
theorem unpackScan_emit_full {m : Memory} {b : Nat} {c : Bits} (rest : Bits) (k start : Nat) {e cap : Nat}
    (hs : m.NoSharedCode) (he : m.Emits b c) (hfull : e = cap) :
    unpackScan m.cb cap k start [] e (c ++ rest) = .error ⟨.obufOvf, k, BitVec.ofNat 16 b⟩ := by
  have hb : b < 256 := he.1
  have hsym : (BitVec.ofNat 8 b).zeroExtend 16 = BitVec.ofNat 16 b := by bv_omega
  rw [unpackScan_emit b c rest k start e hs he, if_pos hfull, hsym]

/-! ### What UNPACK reads of IBUF (R107) -/

/-- A state with another input buffer. -/
def State.withIbuf (ib : Buffer) (s : State) : State := { s with mem := { s.mem with ibuf := ib } }

section WithIbuf

variable (ib : Buffer) (s : State)

@[simp] theorem State.withIbuf_params : (s.withIbuf ib).params = s.params := rfl
@[simp] theorem State.withIbuf_inLen : (s.withIbuf ib).inLen = s.inLen := rfl
@[simp] theorem State.withIbuf_padIn : (s.withIbuf ib).padIn = s.padIn := rfl
@[simp] theorem State.withIbuf_cb : (s.withIbuf ib).mem.cb = s.mem.cb := rfl
@[simp] theorem State.withIbuf_lenFails : (s.withIbuf ib).lenFails = s.lenFails := rfl

end WithIbuf

/-- Buffers with the same bits before the dropped ones hold the same trimmed stream (R103). -/
theorem State.trimmedStream_withIbuf {s : State} {ib : Buffer}
    (h : ∀ k, k < 8 * s.inLen.toNat - s.padIn.toNat → streamBit ib.byte k = streamBit s.mem.ibuf.byte k) :
    (s.withIbuf ib).trimmedStream = s.trimmedStream := by
  refine State.trimmedStream_eq s.length_trimmedStream fun k hk => ?_
  rw [s.length_trimmedStream] at hk
  rw [s.trimmedStream_getD hk]
  exact h k hk

/-- UNPACK reads IBUF through the trimmed stream only, and keeps it (R103). -/
theorem unpackCommand_withIbuf {s : State} {ib : Buffer} (h : (s.withIbuf ib).trimmedStream = s.trimmedStream) :
    unpackCommand (s.withIbuf ib) = ⟨(unpackCommand s).after.withIbuf ib, (unpackCommand s).verdict⟩ := by
  unfold unpackCommand
  simp only [h, State.withIbuf_params, State.withIbuf_inLen, State.withIbuf_padIn, State.withIbuf_cb,
    State.withIbuf_lenFails]
  split_ifs
  · rfl
  · rfl
  · cases Codebook.dupPair s.mem.cb with
    | some bb => rfl
    | none => cases unpackScan s.mem.cb s.params.nObuf 0 0 [] 0 s.trimmedStream <;> rfl

/-- A completion commutes with an exchange of the input buffer (R72). -/
theorem CmdResult.complete_withIbuf (r : CmdResult) (ib : Buffer) :
    CmdResult.complete ⟨r.after.withIbuf ib, r.verdict⟩ = r.complete.withIbuf ib := by
  rcases r with ⟨s, _ | f⟩ <;> rfl

/-! ### The obligations -/

/-- Settles O28: the scan emits the byte values of the greedy parse, and the result registers hold their number and the
trimmed length, which legal parameters keep below 2^32. -/
theorem unpackEmitsTheGreedyParse : Obligations.UnpackEmitsTheGreedyParse := by
  intro s segs hp hlen hpad hs hg hl hb hcap
  have hstream : s.trimmedStream = segBits segs := State.trimmedStream_eq hl hb
  have hbytes := length_segBytes segs
  have hobuf : s.params.nObuf ≤ 2 ^ 20 := hp.2.2
  have hibuf : s.params.nIbuf ≤ 2 ^ 20 := hp.1.2
  refine ⟨_, exec_eq .unpack s, ?_⟩
  rw [commandResult, unpackCommand_segs hlen hpad hs hg hcap hstream, CmdResult.complete_ok rfl]
  refine ⟨?_, ?_, fun j hj => ?_, fun j hj => ?_, rfl⟩
  · rw [State.completeOk_outLen, State.writeOutput_outLen, hbytes, BitVec.toNat_ofNat, Nat.mod_eq_of_lt (by omega)]
  · rw [State.completeOk_nbits, State.writeOutput_nbits, hl, BitVec.toNat_ofNat, Nat.mod_eq_of_lt (by omega)]
  · rw [State.completeOk_mem, State.writeOutput_mem, Buffer.byte_store, if_pos ⟨Nat.zero_le j, by omega⟩]
    rfl
  · rw [State.completeOk_mem, State.writeOutput_mem, Buffer.byte_store, if_neg (by omega)]

/-- Settles O29: the emissions before are scanned, and the bits that follow never match or emit one byte too many. -/
theorem unpackReportsWhereTheStreamBreaks : Obligations.UnpackReportsWhereTheStreamBreaks := by
  intro s segs rest e sym hlen hpad hs hg hl hb hcap hbad
  have hbits : s.trimmedStream = segBits segs ++ rest := State.trimmedStream_eq hl hb
  rcases hbad with ⟨hne, hnever, rfl, rfl⟩ | ⟨hfull, b, c, he, ⟨tail, rfl⟩, rfl, rfl⟩
  · exact exec_unpack_of_segs_error hlen hpad hs hg hcap hbits fun start =>
      unpackScan_never rest _ start _ hne hnever
  · exact exec_unpack_of_segs_error hlen hpad hs hg hcap hbits fun start =>
      unpackScan_emit_full tail _ start hs he hfull

/-- Settles O31: the pair is the one that the search over the codebook meets first. -/
theorem unpackReportsTheLeastDuplicate : Obligations.UnpackReportsTheLeastDuplicate := by
  intro s b b' c hlen hpad hlt hb' hc hc' hmin hmin'
  rw [← ofNat_or_shiftLeft_eight b' (by omega)]
  exact ⟨_, _, exec_unpack_of_dupPair hlen hpad (dupPair_some hlt hb' hc hc' hmin hmin')⟩

/-- Settles O32: the two buffers hold one trimmed stream, and UNPACK reads nothing else of IBUF. -/
theorem unpackIgnoresThePadBits : Obligations.UnpackIgnoresThePadBits := by
  intro s ib h
  refine ⟨_, exec_eq .unpack s, ?_⟩
  rw [← State.withIbuf, ← State.withIbuf, exec_eq, commandResult,
    unpackCommand_withIbuf (State.trimmedStream_withIbuf h), CmdResult.complete_withIbuf]

/-- Settles O33: a candidate longer than every code matches none, however it grows, and is left over at the end. -/
theorem unpackFailsOnceTheCandidateIsTooLong : Obligations.UnpackFailsOnceTheCandidateIsTooLong := by
  intro m cap k start emitted cand bits hcand hlong
  have hnone : ∀ r, r <+: bits → r ≠ [] → Codebook.inverse m.cb (cand ++ r) = none := fun r _ _ =>
    inverse_none fun b hb hc => by
      have hl := (Memory.codeOf_length (m := m) hc).1
      have hlt := hlong b hb
      rw [List.length_append] at hl
      omega
  have hskip := unpackScan_skip (cap := cap) bits [] k start cand emitted hnone
  rw [List.append_nil, if_neg fun h => hcand h.1] at hskip
  rw [hskip, unpackScan, if_neg (by simp [hcand])]
  rfl

/-- Settles O30: the pad count is checked before the codebook and the stream. -/
theorem unpackRejectsPadBeyondStream : Obligations.UnpackRejectsPadBeyondStream :=
  fun _ hlen hpad => ⟨_, _, exec_unpack_of_pad hlen hpad⟩

end Sys2Proof.Machine
end

section
/-! SUPPORT. COMPRESS (46_compress.md R110 to R112): its two kinds of completion, the tables that its first three stages
leave as a function of the input, and why every input byte has a code; with them the three statements on COMPRESS. -/

namespace Sys2Proof.Machine

/-! ### The completion of COMPRESS (R110) -/

/-- R110: with the input inside IBUF, COMPRESS is PACK on the tables of its first three stages. -/
theorem exec_compress_of_le {s : State} (h : s.inLen.toNat ≤ s.params.nIbuf) :
    exec .compress s = exec .pack s.compressTables := by
  obtain ⟨hl, -⟩ | ⟨hl, -⟩ | ⟨-, e⟩ := compressCommand_cases s
  · exact absurd h (Nat.not_le.mpr (s.lenFails_iff.mp hl))
  · exact absurd h (Nat.not_le.mpr (s.lenFails_iff.mp hl))
  · rw [exec_eq, exec_eq, commandResult, commandResult, e]

/-- R99, R121: with the input beyond IBUF, PACK makes its failure writes and takes E_LEN. -/
theorem exec_pack_of_gt {s : State} (h : s.params.nIbuf < s.inLen.toNat) :
    exec .pack s = .next (s.dropOutput.takeError s.lenFailure) := by
  rw [exec_eq, commandResult, packCommand, if_pos (s.lenFails_iff.mpr h), CmdResult.complete_fail rfl]
  rfl

/-- R110, R121: with the input beyond IBUF, COMPRESS takes E_LEN, with the failure writes of PACK or without. -/
theorem exec_compress_of_gt {s : State} (h : s.params.nIbuf < s.inLen.toNat) :
    exec .compress s =
      .next ((if s.params.compressLenDrops then s.dropOutput else s).takeError s.lenFailure) := by
  rw [exec_eq, commandResult]
  obtain ⟨-, hd, e⟩ | ⟨-, hd, e⟩ | ⟨hl, -⟩ := compressCommand_cases s
  · rw [e, CmdResult.complete_fail (State.failOutput_verdict _ s), if_pos hd, State.failOutput_after]
  · rw [e, CmdResult.complete_fail (State.failClean_verdict _ s), hd, if_neg Bool.false_ne_true, State.failClean_after]
  · exact absurd h (Nat.not_lt.mpr (s.lenFails_eq_false_iff.mp hl))

/-- PACK neither reads nor keeps what the completion of an earlier command writes (R72, R99). -/
theorem exec_pack_completeOk {s : State} (h : s.inLen.toNat ≤ s.params.nIbuf) :
    exec .pack s.completeOk = exec .pack s := by
  cases hs : packScan s.mem.cb (8 * s.params.nObuf) 0 0 s.inputBytes with
  | error f =>
    rw [exec_pack_of_scan_error h hs, exec_pack_of_scan_error (s := s.completeOk) h hs]
    rfl
  | ok bits =>
    rw [exec_pack_of_scan_ok h hs, exec_pack_of_scan_ok (s := s.completeOk) h hs]
    rfl

/-! ### The first three stages (R110) -/

@[simp] theorem State.compressTables_inLen (s : State) : s.compressTables.inLen = s.inLen := by
  rw [s.compressTables_frame]

@[simp] theorem State.compressTables_ibuf (s : State) : s.compressTables.mem.ibuf = s.mem.ibuf := by
  rw [s.compressTables_frame]

/-- The first three stages write neither IN_LEN nor the buffer sizes, so PACK does not fail with E_LEN after them. -/
theorem State.compressTables_fits {s : State} (h : s.inLen.toNat ≤ s.params.nIbuf) :
    s.compressTables.inLen.toNat ≤ s.compressTables.params.nIbuf := by
  rwa [s.compressTables_inLen, s.compressTables_params]

/-- R110: the stages of COMPRESS leave what FREQ, BUILD and GENCB leave as commands of their own. -/
theorem State.compressTables_completeOk {s : State} (h : s.inLen.toNat ≤ s.params.nIbuf) :
    s.compressTables.completeOk = (gencbCommand (buildCommand (freqCommand s).complete).complete).complete := by
  obtain ⟨hl, -⟩ | ⟨-, e⟩ := freqCommand_cases s
  · exact absurd h (Nat.not_le.mpr (s.lenFails_iff.mp hl))
  · rw [State.compressTables, e]
    rfl

/-- Two states with one FREQ, one tree and one codebook. -/
structure State.SameTables (a b : State) : Prop where
  freq : a.mem.freq = b.mem.freq
  node : a.mem.node = b.mem.node
  cb : a.mem.cb = b.mem.cb
  nleaf : a.nleaf = b.nleaf
  nnode : a.nnode = b.nnode
  root : a.root = b.root

/-- R112: the tables are a function of the input bytes. -/
theorem State.compressTables_sameTables {s s' : State} (h : s.inLen.toNat ≤ s.params.nIbuf)
    (h' : s'.inLen.toNat ≤ s'.params.nIbuf) (hb : s.inputBytes = s'.inputBytes) :
    s.compressTables.SameTables s'.compressTables := by
  rw [State.compressTables_eq (s.lenFails_eq_false_iff.mpr h),
    State.compressTables_eq (s'.lenFails_eq_false_iff.mpr h'), hb]
  exact ⟨rfl, rfl, rfl, rfl, rfl, rfl⟩

/-! ### Every input byte has a code (R111) -/

/-- R111: an input byte is counted (R80), so it is present and has a leaf (R82), so GENCB gives it a code (R92). -/
theorem State.compressTables_codeOf {s : State} (h : s.inLen.toNat ≤ s.params.nIbuf) {v : Byte}
    (hv : v ∈ s.inputBytes) : ∃ c, s.compressTables.mem.codeOf v.toNat = some c := by
  have hcb : s.compressTables.mem.cb =
      (gencbCommand (buildCommand (freqCommand s).complete).complete).complete.mem.cb := by
    rw [← State.compressTables_completeOk h, State.completeOk_mem]
  have hfreq : (freqCommand s).complete.mem.freq = countBytes s.inputBytes :=
    congrArg (fun t => t.mem.freq) (Host.Outcome.next.inj ((exec_eq .freq s).symm.trans (exec_freq_of_le h)))
  have hpresent : v.toNat ∈ presentSyms (freqCommand s).complete.mem.freq := by
    rw [hfreq, mem_presentSyms]
    exact ⟨v.isLt, (get_countBytes_ne_zero _ v s.length_inputBytes_lt).mpr hv⟩
  obtain ⟨p, hp⟩ := (buildCommand_leafPath_iff _ _).mpr hpresent
  exact ⟨p, (Memory.codeOf_congr hcb _).trans (((buildCommand_complete_treeInv _).codeOf_gencb _ p).mpr hp)⟩

/-- The codes that a codebook gives the input bytes, in order; the empty one for a byte without a code (R94). -/
def State.inputCodes (s : State) (m : Memory) : List Bits :=
  (List.range s.inLen.toNat).map fun i => (m.codeOf (s.mem.ibuf.byte i).toNat).getD []

/-- A code has at most 255 bits (R36), so the codes of n bytes have at most 255 · n. -/
theorem State.length_inputCodes_le (s : State) (m : Memory) :
    (s.inputCodes m).flatten.length ≤ 255 * s.inLen.toNat := by
  have hcode : ∀ n ∈ (s.inputCodes m).map List.length, n ≤ 255 := by
    simp only [State.inputCodes, List.map_map, List.forall_mem_map]
    intro i _
    cases hc : m.codeOf (s.mem.ibuf.byte i).toNat with
    | none => simp [hc]
    | some c => simpa [hc] using (Memory.codeOf_length hc).2.2
  have hsum := List.sum_le_card_nsmul _ 255 hcode
  rw [List.length_flatten]
  simpa [State.inputCodes, Nat.mul_comm] using hsum

/-- R111: the codes of the input bytes are all there. -/
theorem State.map_codeOf_compressTables {s : State} (h : s.inLen.toNat ≤ s.params.nIbuf) :
    (s.inputBytes.map fun v => s.compressTables.mem.codeOf v.toNat) =
      (s.inputCodes s.compressTables.mem).map some := by
  rw [State.inputBytes, Memory.map_codeOf_bytes, State.inputCodes, List.map_map]
  refine List.map_congr_left fun i hi => ?_
  obtain ⟨c, hc⟩ := State.compressTables_codeOf h (State.mem_inputBytes.mpr ⟨i, List.mem_range.mp hi, rfl⟩)
  rw [Function.comp_apply, hc, Option.getD_some]

/-- Everything COMPRESS can do with an input inside IBUF (R111): lay down the codes of the input, or find that
they do not fit OBUF. -/
theorem exec_compress_cases {s : State} (h : s.inLen.toNat ≤ s.params.nIbuf) :
    ((s.inputCodes s.compressTables.mem).flatten.length ≤ 8 * s.params.nObuf ∧
      exec .compress s = .next (s.compressTables.completePack (s.inputCodes s.compressTables.mem).flatten)) ∨
    (8 * s.params.nObuf < (s.inputCodes s.compressTables.mem).flatten.length ∧
      ∃ f, f.code = .obufOvf ∧ exec .compress s = .next (s.compressTables.dropOutput.takeError f)) := by
  have hcodes := State.map_codeOf_compressTables h
  have hfits := State.compressTables_fits h
  rw [exec_compress_of_le h]
  rcases Nat.lt_or_ge (8 * s.params.nObuf) (s.inputCodes s.compressTables.mem).flatten.length with hover | hroom
  · refine .inr ⟨hover, ?_⟩
    cases hs : packScan s.compressTables.mem.cb (8 * s.compressTables.params.nObuf) 0 0
      s.compressTables.inputBytes with
    | error f =>
      refine ⟨f, (packScan_eq_error hs).resolve_right ?_, exec_pack_of_scan_error hfits hs⟩
      rintro ⟨-, v, hv, hnone⟩
      obtain ⟨c, hc⟩ := State.compressTables_codeOf h (by simpa using hv)
      exact absurd (hnone.symm.trans hc) nofun
    | ok bits =>
      obtain ⟨codes, hmap, rfl, hroom⟩ := packScan_eq_ok hs (Nat.zero_le _)
      rw [State.compressTables_inputBytes] at hmap
      have hsame := List.map_injective_iff.mpr (Option.some_injective _) (hcodes.symm.trans hmap)
      rw [State.compressTables_params, ← hsame] at hroom
      omega
  · refine .inl ⟨hroom, exec_pack_of_scan_ok hfits ?_⟩
    rw [State.compressTables_inputBytes, State.compressTables_params]
    exact packScan_ok _ _ 0 0 hcodes (by rwa [Nat.zero_add])

/-! ### The obligations -/

/-- Settles O36: the input bytes are counted and so have codes, the codes have at most 255 bits each, and PACK lays them
down unless they do not fit. -/
theorem compressNeverMissesACode : Obligations.CompressNeverMissesACode := by
  intro s hp hlen
  have hall : ∀ i, i < s.inLen.toNat → (s.compressTables.mem.codeOf (s.mem.ibuf.byte i).toNat).isSome = true :=
    fun i hi => Option.isSome_iff_exists.mpr
      (State.compressTables_codeOf hlen (State.mem_inputBytes.mpr ⟨i, hi, rfl⟩))
  have hbound := s.length_inputCodes_le s.compressTables.mem
  rcases exec_compress_cases hlen with ⟨hroom, e⟩ | ⟨hover, f, hf, e⟩
  · have hnbits := s.compressTables.completePack_nbits_toNat (Params.bits_lt_of_legal hp hroom)
    refine ⟨_, e, .inl rfl, hall, fun _ => ⟨rfl, fun k hk => ?_⟩⟩
    rw [hnbits] at hk
    exact State.completePack_streamBit (by omega)
  · exact ⟨_, e, .inr hf, hall, fun hroom => by omega⟩

/-- Settles O37: the tables are a function of the input, and PACK reads nothing but the codebook, the input and the
size of OBUF. -/
theorem compressDependsOnlyOnTheInput : Obligations.CompressDependsOnlyOnTheInput := by
  intro s s' hp hparams hinLen hlen hbytes
  have hlen' : s'.inLen.toNat ≤ s'.params.nIbuf := hparams ▸ hinLen ▸ hlen
  have hinput : s.inputBytes = s'.inputBytes := by
    rw [State.inputBytes, State.inputBytes, ← hinLen]
    exact List.map_congr_left fun i hi => hbytes i (List.mem_range.mp hi)
  obtain ⟨hfreq, hnode, hcb, hnleaf, hnnode, hroot⟩ := State.compressTables_sameTables hlen hlen' hinput
  have hfits := State.compressTables_fits hlen
  have hfits' := State.compressTables_fits hlen'
  have hscan : packScan s.compressTables.mem.cb (8 * s.compressTables.params.nObuf) 0 0 s.compressTables.inputBytes =
      packScan s'.compressTables.mem.cb (8 * s'.compressTables.params.nObuf) 0 0 s'.compressTables.inputBytes := by
    simp only [State.compressTables_inputBytes, State.compressTables_params, hcb, hparams, hinput]
  rw [exec_compress_of_le hlen, exec_compress_of_le hlen']
  cases hs : packScan s'.compressTables.mem.cb (8 * s'.compressTables.params.nObuf) 0 0
    s'.compressTables.inputBytes with
  | error f =>
    exact ⟨_, _, exec_pack_of_scan_error hfits (hscan.trans hs), exec_pack_of_scan_error hfits' hs, rfl, rfl, rfl,
      rfl, rfl, rfl, hfreq, hnode, hcb, hnleaf, hnnode, hroot, fun j hj => absurd hj (Nat.not_lt_zero j)⟩
  | ok bits =>
    refine ⟨_, _, exec_pack_of_scan_ok hfits (hscan.trans hs), exec_pack_of_scan_ok hfits' hs, rfl, rfl, rfl, rfl,
      rfl, rfl, hfreq, hnode, hcb, hnleaf, hnnode, hroot, fun j hj => ?_⟩
    have hj' : 0 ≤ j ∧ j < 0 + (packStream bits).length :=
      ⟨Nat.zero_le j, by rw [Nat.zero_add]; exact hj.trans_le (Nat.mod_le _ _)⟩
    simp only [State.completePack, State.completeOk_mem, State.writeOutput_mem, Buffer.byte_store, if_pos hj']

/-- Settles O35: the stages leave what the three commands leave, which PACK does not tell from their completions; E_LEN
is checked before any stage. -/
theorem compressIsItsFourStages : Obligations.CompressIsItsFourStages := by
  intro s
  refine ⟨fun h => ?_, fun h => ?_⟩
  · refine ⟨_, _, _, _, exec_eq .freq s, exec_build _, exec_gencb _, exec_eq .pack _, ?_⟩
    calc exec .compress s
        = exec .pack s.compressTables := exec_compress_of_le h
      _ = exec .pack s.compressTables.completeOk := (exec_pack_completeOk (State.compressTables_fits h)).symm
      _ = exec .pack (gencbCommand (buildCommand (freqCommand s).complete).complete).complete := by
        rw [State.compressTables_completeOk h]
      _ = _ := exec_eq .pack _
  · have hpos : BitVec.ofNat 32 s.inLen.toNat = s.inLen := by rw [BitVec.ofNat_toNat, BitVec.setWidth_eq]
    rw [exec_compress_of_gt h, exec_pack_of_gt h]
    cases s.params.compressLenDrops with
    | true => rfl
    | false =>
      simp only [Bool.false_eq_true, if_false, State.takeError, State.lenFailure, hpos]
      rfl

end Sys2Proof.Machine
end

section
/-! SUPPORT. Errors and the interrupt (60_exceptions.md R121 to R126): which operation clears OVR, what E_LEN leaves of
each command, and when IRQ falls; with them the four statements on exceptions. -/

namespace Sys2Proof.Machine

/-! ### OVR (R53, R124) -/

/-- No command writes OVR (R64, R72). -/
theorem commandResult_complete_ovr (i : Instr) (s : State) : (commandResult i s).complete.ovr = s.ovr := by
  rw [CmdResult.complete_frame, commandResult_frame]

/-- Of the writes that are performed, only that of STATUS reaches OVR (R19). -/
theorem State.writeTarget_ovr (n : Nat) (v : Word) (s : State) (t : Target) :
    (s.writeTarget n v t).ovr = if t = .reg .status then s.ovr && !v.getLsbD 2 else s.ovr := by
  cases t with
  | reg r =>
    cases r with
    | status => rw [if_pos rfl, State.writeTarget, State.writeReg, State.writeStatus_eq]
    | _ => rfl
  | freq | node | cb | ibuf | obuf => rfl

/-- A performed write that clears OVR is a write of STATUS with OVR's bit at 1 (R19). -/
theorem State.writeTarget_clears_ovr {n : Nat} {v : Word} {s : State} {t : Target} (hs : s.ovr = true)
    (hc : (s.writeTarget n v t).ovr = false) : t = .reg .status ∧ v.getLsbD 2 = true := by
  rw [State.writeTarget_ovr, hs] at hc
  split at hc
  · exact ⟨‹_›, by simpa using hc⟩
  · cases hc

/-- The write accesses of STATUS are the word writes at offset 0x010 (R41, R43). -/
theorem Access.write_eq_of_target_status {p : Params} {a : Offset} {n : Width} {v : Word}
    (h : (Access.write a n v).target? p = some (.reg .status)) : Access.write a n v = .write 0x000010#22 .word v := by
  obtain ⟨ha, hn⟩ := target_inRange h
  obtain rfl : n = .word := Width.bytes_eq_four.mp hn
  obtain rfl : a = 0x000010#22 := BitVec.eq_of_toNat_eq ha.symm
  rfl

/-- An access that clears OVR is a write of 1 to STATUS.OVR that gets OK (R124). -/
theorem State.access_clears_ovr {acc : Access} {s : State} (hs : s.ovr = true) (hc : (s.access acc).ovr = false) :
    ∃ v, acc = .write 0x000010#22 .word v ∧ v.getLsbD 2 = true ∧ s.rst = false := by
  rcases s.access_cases acc with
    ⟨-, e⟩ | ⟨t, hr, ht, ⟨a, n, -, e⟩ | ⟨a, n, v, -, -, -, e⟩ | ⟨a, n, v, rfl, -, e⟩⟩ <;> rw [e] at hc
  · exact absurd (hs.symm.trans hc) nofun
  · rw [(State.readAccess_frame t n.bytes s).1] at hc
    exact absurd (hs.symm.trans hc) nofun
  · cases hc
  · obtain ⟨rfl, hv⟩ := State.writeTarget_clears_ovr hs hc
    exact ⟨v, Access.write_eq_of_target_status ht, hv, hr⟩

/-- A host operation that clears OVR asserts RST or writes 1 to STATUS.OVR (R124, R131). -/
theorem State.perform_clears_ovr {i : Input} {s : State} (hs : s.ovr = true)
    (hc : (State.perform i s).ovr = false) :
    i = .rst true ∨ ∃ v, i = .access (.write 0x000010#22 .word v) ∧ v.getLsbD 2 = true ∧ s.rst = false := by
  cases i with
  | access acc =>
    obtain ⟨v, rfl, hv⟩ := State.access_clears_ovr hs hc
    exact .inr ⟨v, rfl, hv⟩
  | wait =>
    obtain ⟨v, hw, -⟩ := State.access_clears_ovr (acc := statusRead) hs hc
    cases hw
  | rst level =>
    cases level with
    | true => exact .inl rfl
    | false => exact absurd (hs.symm.trans hc) nofun

/-- Settles O51: no completion writes OVR, and of the host's operations only these two clear it. -/
theorem ovrIsSticky : Obligations.OvrIsSticky := by
  intro s t hstep hs ht
  rcases step_cases hstep with ⟨-, rfl⟩ | ⟨hturn, rfl⟩
  · rw [commandResult_complete_ovr, hs] at ht
    cases ht
  · refine ⟨hturn, ?_⟩
    rcases s.hostTurn_cases with ⟨-, e⟩ | ⟨i, rest, hin, e, -⟩ <;> rw [e] at ht
    · exact absurd (hs.symm.trans ht) nofun
    · exact ⟨i, rest, hin,
        State.perform_clears_ovr (s := { s with inputs := rest, latency := s.latency - 1 }) hs ht⟩

/-! ### Errors (R47, R121, R123) -/

/-- Settles O5: a completion is a next state whatever the command's verdict, and so is a host turn. -/
theorem everyStepHasANextState : Obligations.EveryStepHasANextState := by
  intro s
  cases h : s.engineTurn with
  | true => exact ⟨_, (step_engine h).trans (exec_eq _ s)⟩
  | false => exact ⟨_, step_host h⟩

/-- Taking E_LEN: ERR_POS is IN_LEN and ERR_SYM is 0 (R115, R123). -/
theorem State.takeError_lenFailure (s t : State) :
    t.takeError s.lenFailure =
      { t with phase := .idle, done := true, err := .len, errPos := s.inLen, errSym := 0#16 } := by
  have hpos : BitVec.ofNat 32 s.inLen.toNat = s.inLen := by rw [BitVec.ofNat_toNat, BitVec.setWidth_eq]
  rw [State.takeError, State.lenFailure, hpos]
  rfl

/-- R103, R121: with the input beyond IBUF, UNPACK makes its failure writes and takes E_LEN. -/
theorem exec_unpack_of_gt {s : State} (h : s.params.nIbuf < s.inLen.toNat) :
    exec .unpack s = .next (s.dropOutput.takeError s.lenFailure) := by
  rw [exec_eq, commandResult, unpackCommand, if_pos (s.lenFails_iff.mpr h), CmdResult.complete_fail rfl]
  rfl

/-- Settles O11: each of the four commands takes E_LEN, on the state as it was or after the failure writes. -/
theorem lengthErrorComesFirst : Obligations.LengthErrorComesFirst := by
  intro s h
  refine ⟨exec_freq_of_gt h, fun hd => ?_, fun i hi => ?_⟩
  · rw [exec_compress_of_gt h, hd, if_neg Bool.false_ne_true, State.takeError_lenFailure]
  · have hexec : exec i s = .next (s.dropOutput.takeError s.lenFailure) := by
      rcases hi with rfl | rfl | ⟨rfl, hd⟩
      · exact exec_pack_of_gt h
      · exact exec_unpack_of_gt h
      · rw [exec_compress_of_gt h, if_pos hd]
    rw [hexec, State.takeError_lenFailure]
    exact ⟨_, _, rfl⟩

/-! ### The interrupt (R126) -/

/-- The interrupt after a completion, while RST is released: IE (R64, R126). -/
theorem exec_irq {i : Instr} {s t : State} (h : exec i s = .next t) (hr : s.rst = false) : t.irq = s.ie := by
  have hf := commandResult_frame i s
  have hrst : (commandResult i s).after.rst = false := by rw [hf, hr]
  have hie : (commandResult i s).after.ie = s.ie := by rw [hf]
  rw [exec_eq] at h
  obtain rfl := Host.Outcome.next.inj h
  rw [CmdResult.complete_irq hrst, hie]

theorem State.irq_of_done_eq_false {s : State} (h : s.done = false) : s.irq = false := by
  rw [State.irq, h, Bool.and_false, Bool.false_and]

theorem State.irq_of_ie_eq_false {s : State} (h : s.ie = false) : s.irq = false := by
  rw [State.irq, h, Bool.false_and, Bool.false_and]

/-- The interrupt after a register write in IDLE, which gets its response with no effect on it (R53). -/
theorem State.access_write_reg_irq {s : State} (r : Reg) (v : Word) (hr : s.rst = false) (hidle : s.phase = .idle) :
    (s.access (.write (BitVec.ofNat 22 r.offset) .word v)).irq = (s.writeReg v r).irq := by
  rw [State.access_write_reg r v s hr, State.writeAccess, s.busy_eq_false_iff.mpr hidle, Bool.false_and,
    if_neg Bool.false_ne_true]
  rfl

/-- Settles O54: a completion sets DONE and keeps IE; a command start and ACK clear DONE, the write of 0 clears IE. -/
theorem irqFollowsIeAndDone : Obligations.IrqFollowsIeAndDone := by
  refine ⟨fun s hr => ?_, fun i s t => exec_irq, fun s v hidle hr => ⟨?_, fun hv => ?_, fun hv => ?_⟩⟩
  · rw [State.irq, hr, Bool.not_false, Bool.and_true]
  · exact (State.access_write_reg_irq .cmd v hr hidle).trans (State.irq_of_done_eq_false rfl)
  · have hdone : (s.writeReg v .status).done = false := by
      rw [State.writeReg, State.writeStatus_eq, hv, s.busy_eq_false_iff.mpr hidle]
      exact Bool.and_false _
    exact (State.access_write_reg_irq .status v hr hidle).trans (State.irq_of_done_eq_false hdone)
  · exact (State.access_write_reg_irq .irqEn v hr hidle).trans (State.irq_of_ie_eq_false hv)

end Sys2Proof.Machine
end

section
/-! SUPPORT. Reset (70_reset_and_hazards.md section 1): what the memories read after reset, and what RST does while it is
held; with them the statement on reset. -/

namespace Sys2Proof.Machine

/-! ### The memories after reset (R39) -/

@[simp] theorem Memory.freqAt_reset (d b : Nat) : (Memory.reset d).freqAt b = 0#32 := rfl
@[simp] theorem Memory.nodeAt_reset (d h : Nat) : (Memory.reset d).nodeAt h = Node.empty := rfl
@[simp] theorem Memory.cbAt_reset (d b : Nat) : (Memory.reset d).cbAt b = CodeEntry.empty := rfl
@[simp] theorem Memory.ibuf_byte_reset (d i : Nat) : (Memory.reset d).ibuf.byte i = Config.freeByte d i := rfl
@[simp] theorem Memory.obuf_byte_reset (d i : Nat) : (Memory.reset d).obuf.byte i = Config.freeByte (d + 1) i := rfl

/-! ### RST (R131) -/

@[simp] theorem State.setRst_true (s : State) : s.setRst true = s.assertReset := rfl
@[simp] theorem State.setRst_false (s : State) : s.setRst false = { s with rst := false } := rfl
@[simp] theorem State.assertReset_mem (s : State) : s.assertReset.mem = Memory.reset s.draws := rfl

/-- A reset HCC is IDLE with no flag and no error to show (R19, R39). -/
@[simp] theorem State.assertReset_statusWord (s : State) : s.assertReset.statusWord = 0#32 :=
  calc s.assertReset.statusWord = State.reset.statusWord := rfl
    _ = 0#32 := by decide

theorem State.irq_of_rst {s : State} (h : s.rst = true) : s.irq = false := by
  rw [State.irq, h, Bool.not_true, Bool.and_false]

/-- No command completes while RST is asserted. -/
theorem State.engineTurn_of_rst {s : State} (h : s.rst = true) : s.engineTurn = false := by
  rw [State.engineTurn, h, Bool.not_true, Bool.and_false, Bool.false_and]

theorem State.accessErrs_of_rst {s : State} (h : s.rst = true) (acc : Access) : s.accessErrs acc = true := by
  rw [State.accessErrs, h, Bool.true_or]

/-- Settles O55: assertion gives the reset state with RST high, and RST high bars the interrupt, completion and access. -/
theorem resetTakesEveryRegister : Obligations.ResetTakesEveryRegister := by
  refine fun s => ⟨⟨s.assertReset, s.setRst_true, rfl, State.irq_of_rst rfl, rfl, rfl, rfl, s.assertReset_statusWord,
    rfl, rfl, rfl, rfl, rfl, rfl, rfl, rfl, rfl, rfl, rfl, ?freq, ?node, ?cb, ?buffers⟩, fun hr => ?held, s.setRst_false⟩
  case freq => exact fun b => by rw [s.assertReset_mem, Memory.freqAt_reset]
  case node => exact fun h => by rw [s.assertReset_mem, Memory.nodeAt_reset]
  case cb => exact fun b => by rw [s.assertReset_mem, Memory.cbAt_reset]; rfl
  case buffers => simp
  case held =>
    exact ⟨State.irq_of_rst hr, State.engineTurn_of_rst hr,
      fun acc => ⟨_, State.access_of_errs (State.accessErrs_of_rst hr acc)⟩⟩

end Sys2Proof.Machine
end
